-- ==== Sys2Proof/Word.lean ====
section
/-! DEFINITION. The word types of FBRAST (00_scope.md R5, R6): bus and command words, bytes, coordinate
fields and the 19-bit offsets of the host window. -/

namespace Sys2Proof

/-- A 32-bit command or bus word; also the `Word32` of the 16.16 edge walker (R5, R6). -/
abbrev Word := BitVec 32

/-- A colour channel or a byte of the framebuffer (R5). -/
abbrev Byte := BitVec 8

/-- A 16-bit field of an operand word (R92). -/
abbrev Half := BitVec 16

/-- A byte offset in the 512 KiB host window (20_memory.md R60). -/
abbrev Offset := BitVec 19

end Sys2Proof
end

