-- ==== Sys2Proof/Config.lean ====
section
/-! DEFINITION. What is fixed for the machine: the fixed values of 00_scope.md R5, its two OPEN parameters
(without a value), and the free values of the spec's unspecified bytes. -/

namespace Sys2Proof.Config

/-- `SCREEN_W` (R5). -/
def screenW : Nat := 256

/-- `SCREEN_H` (R5). -/
def screenH : Nat := 224

/-- `PIXEL_BYTES` (R5). -/
def pixelBytes : Nat := 4

/-- `FB_BYTES` (R5). -/
def fbBytes : Nat := 0x38000

/-- `MAX_VERTICES` (R5). -/
def maxVertices : Nat := 128

/-- The capacity of the command latch, 2 + `MAX_VERTICES` words (10_state.md R33). -/
def latchCapacity : Nat := 2 + maxVertices

/-- The first offset of the framebuffer window (20_memory.md R61). -/
def fbBase : Nat := 0x40000

/-- The first offset after the framebuffer window (20_memory.md R61). -/
def fbEnd : Nat := 0x78000

/-- The size of the host window in bytes (20_memory.md R60). -/
def windowBytes : Nat := 0x80000

/-- The value of the ID register (10_state.md R24). -/
def idWord : Word := 0x52415331#32

/-- OPEN parameter: `CMD_FIFO_DEPTH` less one, any number (R5: the depth is at least 1). -/
opaque fifoExtra : Nat

/-- `CMD_FIFO_DEPTH`, at least 1 (R5, 10_state.md R32). -/
def fifoDepth : Nat := fifoExtra + 1

/-- OPEN parameter: `RAS_BASE` in units of 512 KiB, any number (R5: the base is aligned to 512 KiB). -/
opaque rasBaseIndex : Nat

/-- `RAS_BASE`, the host address of offset 0 of the window (R5, 20_memory.md R60). -/
def rasBase : Nat := rasBaseIndex * windowBytes

/-- FREE VALUE: the framebuffer byte at offset `off` that nothing has written since reset number `draw`:
after power-on, or after a soft reset taken while busy (10_state.md R39, 70_reset_and_hazards.md R263).
Nothing is known of its values. Log entries 1, 2 and 4. -/
opaque freeByte (draw off : Nat) : Byte

/-- FREE VALUE: the byte at offset `off` that a framebuffer read issued while busy returns, in draw number
`draw` (20_memory.md R72). Nothing is known of its values. Log entries 2 and 3. -/
opaque busyByte (draw off : Nat) : Byte

end Sys2Proof.Config
end

