-- ==== Sys2Proof/Machine/State.lean ====
section
/-! DEFINITION. The state of FBRAST as plain data (10_state.md R20 to R39), its reset, and the reasons a
step can stop. Beside the block's own state it holds the outside world the step reads: the bus masters'
accesses, the schedule and the draw counters (log entries 2, 5, 6). -/

namespace Sys2Proof.Machine

/-- The framebuffer bytes that have been written, as (window offset, byte) cells in strictly rising order
of offset (20_memory.md R63). An offset that is not listed holds a byte nothing has written since
power-on, or since a soft reset taken while busy. Log entry 1. -/
abbrev Memory := List Host.Cell

/-- The clipping registers (10_state.md R31): `crx`, `cry` are signed, `crw`, `crh` unsigned. -/
structure Clip where
  crx : Half
  cry : Half
  crw : Half
  crh : Half
  deriving DecidableEq, Repr

/-- The engine mode (10_state.md R35). -/
inductive Mode where
  | run
  | halted
  deriving DecidableEq, Repr

/-- The causes of a command error (60_exceptions.md R230). -/
inductive CmdError where
  | illegalOpcode
  | badVertexCount
  deriving DecidableEq, Repr

/-- The width of a host access (20_memory.md R65, R66). -/
inductive Width where
  | w8
  | w16
  | w32
  deriving DecidableEq, Repr

/-- A host access to the window, by its offset from `RAS_BASE` (00_scope.md R9, 20_memory.md R60). -/
inductive BusReq where
  | read (off : Offset) (width : Width)
  | write (off : Offset) (width : Width) (value : Word)
  deriving DecidableEq, Repr

/-- The answer to a completed access; a read narrower than 32 bits is zero-extended (log entry 18). -/
inductive BusResp where
  | data (value : Word)
  | written
  deriving DecidableEq, Repr

/-- A bus master: the accesses it has still to make, in its order, and the answers it got, newest first
(20_memory.md R69, 60_exceptions.md R243). -/
structure Master where
  requests : List BusReq
  responses : List BusResp
  deriving DecidableEq, Repr

/-- Whose turn it is (10_state.md R20, 60_exceptions.md R237): the engine, bus master number `k`, or an
edge of the platform's reset input (70_reset_and_hazards.md R260). -/
inductive Turn where
  | engine
  | host (k : Nat)
  | resetAssert
  | resetRelease
  deriving DecidableEq, Repr

/-- The whole state. -/
structure State where
  /-- CTRL.ERR_IE (10_state.md R25). -/
  errIE : Bool
  /-- CTRL.IDLE_IE (R25). -/
  idleIE : Bool
  /-- The clipping registers (R31). -/
  clip : Clip
  /-- The engine mode (R35). -/
  mode : Mode
  /-- `err_code` (R35). -/
  errCode : BitVec 4
  /-- `err_info` (R30, R35). -/
  errInfo : Word
  /-- The command FIFO, oldest word first (R32). -/
  fifo : List Word
  /-- The command latch, header first; its words from the third on are the vertex buffer (R33, R34). -/
  latch : List Word
  /-- The command position: words of the stream consumed by completed commands (R22; log entry 13). -/
  cmdPos : Nat
  /-- The framebuffer's written bytes (R37). -/
  fb : Memory
  /-- The level of the platform's reset input, true while asserted (70_reset_and_hazards.md R260). -/
  resetIn : Bool
  /-- The bus masters. -/
  masters : List Master
  /-- The masters whose CMD write is being held, in bus order (R27; log entry 8). -/
  waiting : List Nat
  /-- Which agent moves next. -/
  schedule : List Turn
  /-- MODEL'S OWN: the draw that gives the framebuffer bytes nothing has written (log entry 2). -/
  fbDraw : Nat
  /-- MODEL'S OWN: the draw that gives the bytes of a framebuffer read while busy (log entries 2, 3). -/
  readDraw : Nat
  deriving DecidableEq, Repr

/-- The full-screen clipping rectangle of reset (10_state.md R39). -/
def Clip.reset : Clip := ⟨0#16, 0#16, 256#16, 224#16⟩

/-- The machine right after a power-on reset (10_state.md R39, 70_reset_and_hazards.md R260, R261), with
nothing yet asked of it by the outside world (log entry 5). -/
def State.reset : State where
  errIE := false
  idleIE := false
  clip := Clip.reset
  mode := .run
  errCode := 0#4
  errInfo := 0#32
  fifo := []
  latch := []
  cmdPos := 0
  fb := []
  resetIn := false
  masters := []
  waiting := []
  schedule := []
  fbDraw := 0
  readDraw := 0

/-- Why the machine can stop with a fault. -/
inductive Fault where
  /-- Raised by the engine's move of a word into a latch that already holds its 130 words
  (10_state.md R33). Safe: R268 of 70_reset_and_hazards.md says the latch can always take the next word,
  so only states no run reaches raise it. Log entry 9. -/
  | latchOverflow
  deriving DecidableEq, Repr

/-- Why a step can be refused. -/
inductive Refusal where
  /-- Raised by an arm of `exec` whose instruction has no meaning yet. Safe. -/
  | notModelled (mnemonic : String)
  /-- Raised by a bus master's turn whose access is of a width or alignment the block does not support
  (20_memory.md R65, R66, 60_exceptions.md R246: "the host has no step"). Safe. -/
  | unsupportedAccess
  /-- Raised by a bus master's turn that issues an access while the reset input is asserted
  (70_reset_and_hazards.md R260: "FBRAST accepts no host access, and the host must not issue one";
  93_implementation_defined.md: refuse). Safe. -/
  | accessDuringReset
  deriving DecidableEq, Repr

end Sys2Proof.Machine
end

