-- ==== Sys2Proof/Machine/Flags.lean ====
section
/-! DEFINITION. FBRAST has no condition codes (10_state.md R23). Its flags are the status bits the host
reads, each a pure function of the state (R26, R36), and the register words built from fields. -/

namespace Sys2Proof.Machine

/-- STATUS.BUSY: the FIFO is not empty or the latch holds a word (R26). -/
def State.busy (s : State) : Bool := !s.fifo.isEmpty || !s.latch.isEmpty

/-- STATUS.ERR: the engine is halted (R26, R35). -/
def State.err (s : State) : Bool := s.mode == .halted

/-- The `irq` output (R36). -/
def State.irq (s : State) : Bool :=
  (s.err && s.errIE) || (!s.err && !s.busy && s.idleIE)

/-- STATUS.ERR_CODE: the error's code, 0 when ERR = 0 (R26). -/
def State.errCodeField (s : State) : BitVec 4 := if s.err then s.errCode else 0#4

/-- The STATUS register: ERR_CODE [7:4], IRQ [2], ERR [1], BUSY [0], the rest 0 (R26). -/
def State.statusWord (s : State) : Word :=
  0#24 ++ s.errCodeField ++ 0#1 ++ BitVec.ofBool s.irq ++ BitVec.ofBool s.err ++ BitVec.ofBool s.busy

/-- The CTRL register: IDLE_IE [2], ERR_IE [1], SRST and the reserved bits 0 (R25). -/
def State.ctrlWord (s : State) : Word :=
  0#29 ++ BitVec.ofBool s.idleIE ++ BitVec.ofBool s.errIE ++ 0#1

/-- The CLIP_ORG register (R28). -/
def State.clipOrgWord (s : State) : Word := s.clip.crx ++ s.clip.cry

/-- The CLIP_SIZE register (R29). -/
def State.clipSizeWord (s : State) : Word := s.clip.crw ++ s.clip.crh

/-- The ERR_INFO register: the offending header while ERR = 1, else 0 (R30). -/
def State.errInfoWord (s : State) : Word := if s.err then s.errInfo else 0#32

end Sys2Proof.Machine
end

