-- ==== Sys2Proof/Syntax.lean ====
section
/-! DEFINITION. The commands of FBRAST as syntax (30_encoding.md R90 to R98): one constructor per row of
spec/opcode_table.json. Fields the hardware ignores (R97) are kept, so that encoding loses no bit. -/

namespace Sys2Proof

/-- The colour of a header, `(H[23:16], H[15:8], H[7:0])` (R91, R93). -/
structure Rgb where
  r : Byte
  g : Byte
  b : Byte
  deriving DecidableEq, Repr

/-- Operand word XY: two signed 16-bit coordinates, `x` in bits [31:16] (R92). -/
structure XY where
  x : Half
  y : Half
  deriving DecidableEq, Repr

/-- Operand word CNT: reserved bits [31:16] and the vertex count `n` (R92). -/
structure Cnt where
  rsv : Half
  n : Half
  deriving DecidableEq, Repr

/-- Operand word WH: an unsigned width in bits [31:16] and height (R92). -/
structure WH where
  w : Half
  h : Half
  deriving DecidableEq, Repr

/-- Operand word X2: the two signed ends of a span, `x1` in bits [31:16] (R92). -/
structure X2 where
  x1 : Half
  x2 : Half
  deriving DecidableEq, Repr

/-- Operand word YW: reserved bits [31:16] and the signed row `y` (R92). -/
structure YW where
  rsv : Half
  y : Half
  deriving DecidableEq, Repr

/-- A command (R95). `a` is header bit 27 where the table does not split the row on it, `rsv` header
bits [26:24]. The three ILLEGAL rows keep every header bit their match leaves open. -/
inductive Instr where
  /-- NOP, OP 0x0 (44_control.md R210). -/
  | nop (a : Bool) (rsv : BitVec 3) (rgb : Rgb)
  /-- POINT, OP 0x1 (41_point_line.md R140). -/
  | point (a : Bool) (rsv : BitVec 3) (rgb : Rgb) (p : XY)
  /-- LINE, OP 0x2 (41_point_line.md R143). -/
  | line (a : Bool) (rsv : BitVec 3) (rgb : Rgb) (p1 p2 : XY)
  /-- POLY, OP 0x3 with A = 0 (42_polygon.md R160). -/
  | poly (rsv : BitVec 3) (rgb : Rgb) (cnt : Cnt) (vs : List XY)
  /-- POLY.A, OP 0x3 with A = 1 (42_polygon.md R160). -/
  | polyA (rsv : BitVec 3) (rgb : Rgb) (cnt : Cnt) (vs : List XY)
  /-- OUTLINE, OP 0x4 (42_polygon.md R174). -/
  | outline (a : Bool) (rsv : BitVec 3) (rgb : Rgb) (cnt : Cnt) (vs : List XY)
  /-- ELLIPSE, OP 0x5 with A = 0 (43_ellipse.md R190). -/
  | ellipse (rsv : BitVec 3) (rgb : Rgb) (c r : XY)
  /-- ELLIPSE.A, OP 0x5 with A = 1 (43_ellipse.md R190). -/
  | ellipseA (rsv : BitVec 3) (rgb : Rgb) (c r : XY)
  /-- SPAN, OP 0x6 with A = 0 (40_pixel_span.md R128). -/
  | span (rsv : BitVec 3) (rgb : Rgb) (xs : X2) (row : YW)
  /-- SPAN.A, OP 0x6 with A = 1 (40_pixel_span.md R128). -/
  | spanA (rsv : BitVec 3) (rgb : Rgb) (xs : X2) (row : YW)
  /-- CLEAR, OP 0x7 (44_control.md R211). -/
  | clear (a : Bool) (rsv : BitVec 3) (rgb : Rgb)
  /-- SETCLIP, OP 0x8 (44_control.md R212). -/
  | setclip (a : Bool) (rsv : BitVec 3) (rgb : Rgb) (org : XY) (size : WH)
  /-- ILLEGAL, OP 0x9, header bits [27:0] kept (30_encoding.md R96). -/
  | illegal9 (low : BitVec 28)
  /-- ILLEGAL, OP 0xA and 0xB, header bits [28:0] kept (R96). -/
  | illegalAB (low : BitVec 29)
  /-- ILLEGAL, OP 0xC to 0xF, header bits [29:0] kept (R96). -/
  | illegalCF (low : BitVec 30)
  deriving DecidableEq, Repr

end Sys2Proof
end

