-- ==== Sys2Proof/Decode.lean ====
section
/-! DEFINITION. From command words to commands and back (30_encoding.md R90 to R99). Decoding is total:
every sequence of words gives a command and the words after it, or is rejected by name because words are
still missing. Illegal opcodes and illegal vertex counts decode, to the commands whose meaning raises the
command error (R96). Log entry 14. -/

namespace Sys2Proof

/-! ## Fields -/

/-- The opcode field `H[31:28]` (R91). -/
def opOf (h : Word) : Nat := (h.extractLsb' 28 4).toNat

/-- The alpha bit `H[27]` (R91). -/
def aOf (h : Word) : Bool := h.getLsbD 27

/-- The reserved bits `H[26:24]` (R91). -/
def rsvOf (h : Word) : BitVec 3 := h.extractLsb' 24 3

/-- The colour `(H[23:16], H[15:8], H[7:0])` (R91, R93). -/
def rgbOf (h : Word) : Rgb := ⟨h.extractLsb' 16 8, h.extractLsb' 8 8, h.extractLsb' 0 8⟩

/-- Bits [31:16] of an operand word (R92). -/
def hiOf (w : Word) : Half := w.extractLsb' 16 16

/-- Bits [15:0] of an operand word (R92). -/
def loOf (w : Word) : Half := w.extractLsb' 0 16

/-- Operand format XY (R92). -/
def xyOf (w : Word) : XY := ⟨hiOf w, loOf w⟩

/-- Operand format CNT (R92). -/
def cntOf (w : Word) : Cnt := ⟨hiOf w, loOf w⟩

/-- Operand format WH (R92). -/
def whOf (w : Word) : WH := ⟨hiOf w, loOf w⟩

/-- Operand format X2 (R92). -/
def x2Of (w : Word) : X2 := ⟨hiOf w, loOf w⟩

/-- Operand format YW (R92). -/
def ywOf (w : Word) : YW := ⟨hiOf w, loOf w⟩

/-! ## Lengths -/

/-- `1 ≤ n ≤ MAX_VERTICES` (R96). -/
def Cnt.legal (c : Cnt) : Bool :=
  decide (1 ≤ c.n.toNat) && decide (c.n.toNat ≤ Config.maxVertices)

/-- How many vertex words follow the CNT word: `n`, or none where the count is illegal, because then no
vertex word is consumed (R96, 60_exceptions.md R231). -/
def Cnt.vertexWords (c : Cnt) : Nat :=
  if c.legal then c.n.toNat else 0

/-- The length of a command in words, header included (R98). -/
def Instr.words : Instr → Nat
  | .nop _ _ _ => 1
  | .point _ _ _ _ => 2
  | .line _ _ _ _ _ => 3
  | .poly _ _ cnt _ => 2 + cnt.vertexWords
  | .polyA _ _ cnt _ => 2 + cnt.vertexWords
  | .outline _ _ _ cnt _ => 2 + cnt.vertexWords
  | .ellipse _ _ _ _ => 3
  | .ellipseA _ _ _ _ => 3
  | .span _ _ _ _ => 3
  | .spanA _ _ _ _ => 3
  | .clear _ _ _ => 1
  | .setclip _ _ _ _ _ => 3
  | .illegal9 _ => 1
  | .illegalAB _ => 1
  | .illegalCF _ => 1

/-! ## Decoding -/

/-- Why words give no command. -/
inductive DecodeReject where
  /-- The command's words have not all arrived (70_reset_and_hazards.md R267). -/
  | incomplete
  deriving DecidableEq, Repr

/-- A command and the words after it, or the reason there is none. -/
abbrev Decoded := Except DecodeReject (Instr × List Word)

/-- A command of one operand word (R95). -/
def decodeOne (mk : Word → Instr) : List Word → Decoded
  | w1 :: rest => .ok (mk w1, rest)
  | _ => .error .incomplete

/-- A command of two operand words (R95). -/
def decodeTwo (mk : Word → Word → Instr) : List Word → Decoded
  | w1 :: w2 :: rest => .ok (mk w1 w2, rest)
  | _ => .error .incomplete

/-- A command of a CNT word and the vertex words it counts (R95, R98). -/
def decodeCounted (mk : Cnt → List XY → Instr) : List Word → Decoded
  | w1 :: rest =>
    let k := (cntOf w1).vertexWords
    if rest.length < k then .error .incomplete
    else .ok (mk (cntOf w1) ((rest.take k).map xyOf), rest.drop k)
  | _ => .error .incomplete

/-- The decoder: the first command of a sequence of words, and the words after it (R95, R96, R98). -/
def decode : List Word → Decoded
  | [] => .error .incomplete
  | h :: ws =>
    match opOf h with
    | 0x0 => .ok (.nop (aOf h) (rsvOf h) (rgbOf h), ws)
    | 0x1 => decodeOne (fun w1 => .point (aOf h) (rsvOf h) (rgbOf h) (xyOf w1)) ws
    | 0x2 => decodeTwo (fun w1 w2 => .line (aOf h) (rsvOf h) (rgbOf h) (xyOf w1) (xyOf w2)) ws
    | 0x3 =>
      decodeCounted (fun cnt vs =>
        if aOf h then .polyA (rsvOf h) (rgbOf h) cnt vs else .poly (rsvOf h) (rgbOf h) cnt vs) ws
    | 0x4 => decodeCounted (fun cnt vs => .outline (aOf h) (rsvOf h) (rgbOf h) cnt vs) ws
    | 0x5 =>
      decodeTwo (fun w1 w2 =>
        if aOf h then .ellipseA (rsvOf h) (rgbOf h) (xyOf w1) (xyOf w2)
        else .ellipse (rsvOf h) (rgbOf h) (xyOf w1) (xyOf w2)) ws
    | 0x6 =>
      decodeTwo (fun w1 w2 =>
        if aOf h then .spanA (rsvOf h) (rgbOf h) (x2Of w1) (ywOf w2)
        else .span (rsvOf h) (rgbOf h) (x2Of w1) (ywOf w2)) ws
    | 0x7 => .ok (.clear (aOf h) (rsvOf h) (rgbOf h), ws)
    | 0x8 => decodeTwo (fun w1 w2 => .setclip (aOf h) (rsvOf h) (rgbOf h) (xyOf w1) (whOf w2)) ws
    | 0x9 => .ok (.illegal9 (h.extractLsb' 0 28), ws)
    | 0xA => .ok (.illegalAB (h.extractLsb' 0 29), ws)
    | 0xB => .ok (.illegalAB (h.extractLsb' 0 29), ws)
    | _ => .ok (.illegalCF (h.extractLsb' 0 30), ws)

/-! ## Encoding -/

/-- The header word of format H (R91). -/
def headerWord (op : BitVec 4) (a : Bool) (rsv : BitVec 3) (rgb : Rgb) : Word :=
  op ++ BitVec.ofBool a ++ rsv ++ rgb.r ++ rgb.g ++ rgb.b

/-- The XY word (R92). -/
def XY.word (p : XY) : Word := p.x ++ p.y

/-- The CNT word (R92). -/
def Cnt.word (c : Cnt) : Word := c.rsv ++ c.n

/-- The WH word (R92). -/
def WH.word (s : WH) : Word := s.w ++ s.h

/-- The X2 word (R92). -/
def X2.word (s : X2) : Word := s.x1 ++ s.x2

/-- The YW word (R92). -/
def YW.word (s : YW) : Word := s.rsv ++ s.y

/-- The first word of a command, the one ERR_INFO records (R91, R95, R96; 60_exceptions.md R230). -/
def Instr.header : Instr → Word
  | .nop a rsv rgb => headerWord 0x0#4 a rsv rgb
  | .point a rsv rgb _ => headerWord 0x1#4 a rsv rgb
  | .line a rsv rgb _ _ => headerWord 0x2#4 a rsv rgb
  | .poly rsv rgb _ _ => headerWord 0x3#4 false rsv rgb
  | .polyA rsv rgb _ _ => headerWord 0x3#4 true rsv rgb
  | .outline a rsv rgb _ _ => headerWord 0x4#4 a rsv rgb
  | .ellipse rsv rgb _ _ => headerWord 0x5#4 false rsv rgb
  | .ellipseA rsv rgb _ _ => headerWord 0x5#4 true rsv rgb
  | .span rsv rgb _ _ => headerWord 0x6#4 false rsv rgb
  | .spanA rsv rgb _ _ => headerWord 0x6#4 true rsv rgb
  | .clear a rsv rgb => headerWord 0x7#4 a rsv rgb
  | .setclip a rsv rgb _ _ => headerWord 0x8#4 a rsv rgb
  | .illegal9 low => 0x9#4 ++ low
  | .illegalAB low => 0b101#3 ++ low
  | .illegalCF low => 0b11#2 ++ low

/-- The operand words of a command (R92, R95). -/
def Instr.operands : Instr → List Word
  | .nop _ _ _ => []
  | .point _ _ _ p => [p.word]
  | .line _ _ _ p1 p2 => [p1.word, p2.word]
  | .poly _ _ cnt vs => cnt.word :: vs.map XY.word
  | .polyA _ _ cnt vs => cnt.word :: vs.map XY.word
  | .outline _ _ _ cnt vs => cnt.word :: vs.map XY.word
  | .ellipse _ _ c r => [c.word, r.word]
  | .ellipseA _ _ c r => [c.word, r.word]
  | .span _ _ xs row => [xs.word, row.word]
  | .spanA _ _ xs row => [xs.word, row.word]
  | .clear _ _ _ => []
  | .setclip _ _ _ org size => [org.word, size.word]
  | .illegal9 _ => []
  | .illegalAB _ => []
  | .illegalCF _ => []

/-- The words of a command in the order the host writes them (R90). -/
def encode (i : Instr) : List Word := i.header :: i.operands

/-! ## The opcode table's numbering -/

/-- The words of an opcode-table row: bit 0 of `w` is bit 0 of the header, bit 32 that of the second
word, and every bit above `nbits` is 0. They are as many as a command with that second word can take: three,
and a vertex word for each it counts (R98). -/
def tableWords (nbits w : Nat) : List Word :=
  let v := w % 2 ^ nbits
  (List.range (3 + min (v / 2 ^ 32 % 2 ^ 16) Config.maxVertices)).map fun k =>
    BitVec.ofNat 32 (v >>> (32 * k))

/-- The command the decoder reads from an opcode-table word. -/
def decodeTableWord (nbits w : Nat) : Option Instr :=
  match decode (tableWords nbits w) with
  | .ok (i, _) => some i
  | .error _ => none

end Sys2Proof
end

