-- ==== Sys2Proof/Machine/Operands.lean ====
section
/-! DEFINITION. The pseudocode primitives of 00_scope.md R7, R8 and the values of the operand fields
(30_encoding.md R92). Pseudocode computes over `Int` and narrows only where it says so (R6). -/

namespace Sys2Proof.Machine

/-! ## Conversions (R7) -/

/-- `sext_16(v)`: the two's complement value of a 16-bit field. -/
def sext16 (v : Half) : Int := v.toInt

/-- `zext_16(v)`: the unsigned value of a 16-bit field. -/
def zext16 (v : Half) : Int := v.toNat

/-- The `Word32` of an `Int`: `wrap32` as a 32-bit value, read back by `sext32`. -/
def wrap32 (v : Int) : Word := BitVec.ofInt 32 v

/-- `sext_32(v)`: the signed value of a `Word32`. -/
def sext32 (w : Word) : Int := w.toInt

/-- `int16(v)`: the wrapping 16-bit cast, never a clamp (R7, 90_conflicts.md C3). -/
def int16 (v : Int) : Int := (BitVec.ofInt 16 v).toInt

/-! ## Arithmetic (R8) -/

/-- `tdiv(a, b)`: division rounding toward zero. -/
def tdiv (a b : Int) : Int := a.tdiv b

/-- `asr(v, n) = floor(v / 2^n)`. -/
def asr (v : Int) (n : Nat) : Int := v / 2 ^ n

/-- `shl(v, n) = v · 2^n`. -/
def shl (v : Int) (n : Nat) : Int := v * 2 ^ n

/-- `v & 0xFFFF` on a two's complement `Int`: the remainder in `[0, 65535]`. -/
def low16 (v : Int) : Int := v % 65536

/-- `abs(v)`. -/
def absInt (v : Int) : Int := v.natAbs

/-! ## Operand values (30_encoding.md R92) -/

/-- A pixel in clip coordinates `(x, y)` (00_scope.md R10). -/
abbrev Point := Int × Int

/-- The point an XY word names. -/
def pointOf (p : XY) : Point := (sext16 p.x, sext16 p.y)

/-- A span of clip row `y`, from `l` to `r`, both ends included (00_scope.md R11). -/
structure Span where
  y : Int
  l : Int
  r : Int
  deriving DecidableEq, Repr

/-- The span of SPAN's operand words X2 and YW (40_pixel_span.md R128). -/
def spanOf (xs : X2) (row : YW) : Span := ⟨sext16 row.y, sext16 xs.x1, sext16 xs.x2⟩

/-- The clipping rectangle of SETCLIP's operand words (44_control.md R212). -/
def clipOf (org : XY) (size : WH) : Clip := ⟨org.x, org.y, size.w, size.h⟩

/-- `clip.crw` as an `Int`. -/
def Clip.width (c : Clip) : Int := zext16 c.crw

/-- `clip.crh` as an `Int`. -/
def Clip.height (c : Clip) : Int := zext16 c.crh

/-- `clip.crx` as an `Int`. -/
def Clip.left (c : Clip) : Int := sext16 c.crx

/-- `clip.cry` as an `Int`. -/
def Clip.top (c : Clip) : Int := sext16 c.cry

/-- The vertex buffer: the words of the latch from the third on, as XY (10_state.md R34). -/
def State.vertexBuffer (s : State) : List XY := (s.latch.drop 2).map xyOf

end Sys2Proof.Machine
end

