-- ==== Sys2Proof/Machine/Ops.lean ====
section
/-! DEFINITION. The named operations over the framebuffer memory and the registers: reading and writing one
byte, finishing a command, entering the error state (the machine's one exception), and the resets, which
are the only way out of it. -/

namespace Sys2Proof.Machine

/-! ## Framebuffer bytes -/

/-- The canonical form: offsets strictly rising. -/
def Memory.wf : Memory → Bool
  | [] => true
  | [_] => true
  | (a, _) :: (b, v) :: m => decide (a < b) && Memory.wf ((b, v) :: m)

/-- The byte written at offset `a`; none where nothing has written. -/
def Memory.read : Memory → Nat → Option Byte
  | [], _ => none
  | (k, v) :: m, a => if k = a then some v else Memory.read m a

/-- Write one byte, keeping the offsets rising. -/
def Memory.write : Memory → Nat → Byte → Memory
  | [], a, b => [(a, b)]
  | (k, v) :: m, a, b =>
    if a < k then (a, b) :: (k, v) :: m
    else if a = k then (a, b) :: m
    else (k, v) :: Memory.write m a b

/-- `Memory.write` with the cells already passed in reverse: what compiled code runs, so that a long list
does not exhaust the stack. -/
def Memory.writeLoop : Memory → Memory → Nat → Byte → Memory
  | done, [], a, b => done.reverseAux [(a, b)]
  | done, (k, v) :: m, a, b =>
    if a < k then done.reverseAux ((a, b) :: (k, v) :: m)
    else if a = k then done.reverseAux ((a, b) :: m)
    else Memory.writeLoop ((k, v) :: done) m a b

/-- `Memory.write` by a loop. -/
def Memory.writeByLoop (m : Memory) (a : Nat) (b : Byte) : Memory := Memory.writeLoop [] m a b

theorem Memory.writeLoop_eq (done m : Memory) (a : Nat) (b : Byte) :
    Memory.writeLoop done m a b = done.reverseAux (m.write a b) := by
  induction m generalizing done with
  | nil => rfl
  | cons c m ih =>
    obtain ⟨k, v⟩ := c
    simp only [Memory.writeLoop, Memory.write]
    split
    · rfl
    · split
      · rfl
      · rw [ih]; rfl

@[csimp] theorem Memory.write_eq_writeByLoop : @Memory.write = @Memory.writeByLoop := by
  funext m a b
  exact (Memory.writeLoop_eq [] m a b).symm

/-- The byte at offset `a`: the one written there, or where nothing has written the free value of the
current draw (10_state.md R39, 70_reset_and_hazards.md R263, R265). Log entry 1. -/
def byteAt (draw : Nat) (m : Memory) (a : Nat) : Byte :=
  (m.read a).getD (Config.freeByte draw a)

/-- The window offset of byte `r` of the pixel at screen `(sx, sy)` (20_memory.md R63). -/
def pixelAddr (sx sy : Int) : Nat :=
  Config.fbBase + (sy.toNat * Config.screenW + sx.toNat) * Config.pixelBytes

/-! ## The end of a command -/

/-- A command is done: the latch is emptied and the command position advances by its length
(30_encoding.md R100 step 5, 10_state.md R22). -/
def State.retire (s : State) (words : Nat) : State :=
  { s with latch := [], cmdPos := s.cmdPos + words }

/-! ## Command errors -/

/-- `ERR_CODE` of a cause (60_exceptions.md R230). -/
def CmdError.code : CmdError → BitVec 4
  | .illegalOpcode => 1#4
  | .badVertexCount => 2#4

/-- `raise CmdError(code, H)`: halt, record code and header, empty FIFO and latch, change nothing else
(60_exceptions.md R232). -/
def raiseCmdError (e : CmdError) (h : Word) (s : State) : State :=
  { s with mode := .halted, errCode := e.code, errInfo := h, fifo := [], latch := [] }

/-! ## Resets -/

/-- Every framebuffer byte becomes unspecified: nothing is written any more, and a fresh draw gives the
bytes (10_state.md R39, 70_reset_and_hazards.md R263). Log entry 4. -/
def State.freeFramebuffer (s : State) : State := { s with fb := [], fbDraw := s.fbDraw + 1 }

/-- The registers, the engine and the command stream at their reset values; the framebuffer and the
outside world as they are (10_state.md R39). -/
def State.resetEngine (s : State) : State :=
  { s with
    errIE := false
    idleIE := false
    clip := Clip.reset
    mode := .run
    errCode := 0#4
    errInfo := 0#32
    fifo := []
    latch := []
    cmdPos := 0 }

/-- Soft reset, by a write of 1 to CTRL.SRST: the only way for the host to leave HALTED. The framebuffer
is unchanged if STATUS.BUSY was 0, else every byte is unspecified (70_reset_and_hazards.md R262, R263,
60_exceptions.md R235). It leaves `waiting` as it is, so that a held CMD write goes on being held: R262 says so
where the FIFO is full; where an error has emptied it since, DESIGN CHOICE (log entry 19). -/
def softReset (s : State) : State :=
  if s.busy then s.resetEngine.freeFramebuffer else s.resetEngine

/-- Power-on reset: every piece of state takes its power-on value, the framebuffer unspecified
(70_reset_and_hazards.md R260). The accesses the masters have still to make, a held one among them, are
not FBRAST's state. -/
def powerOnReset (s : State) : State := s.resetEngine.freeFramebuffer

/-! ## Framebuffer reads while busy -/

/-- A fresh draw for the framebuffer reads issued while busy: taken by every engine step, every CTRL write
and every CMD write that is accepted or becomes held, so that reads between which none of these falls
return the same bytes (20_memory.md R67, R72). Log entry 3. -/
def State.renewReads (s : State) : State := { s with readDraw := s.readDraw + 1 }

/-! ## The engine's move -/

/-- Move the head word `w` of the FIFO to the tail of the latch (30_encoding.md R100 step 2). A latch that
already holds its capacity faults (10_state.md R33, log entry 9). -/
def moveWord (w : Word) (rest : List Word) (s : State) : Host.Outcome State Fault Refusal :=
  if s.latch.length < Config.latchCapacity then
    .next { s with fifo := rest, latch := s.latch ++ [w] }
  else .fault .latchOverflow

end Sys2Proof.Machine
end

