-- ==== Sys2Proof/Machine/Bus.lean ====
section
/-! DEFINITION. The host's side: which accesses the window supports, what each read returns and each write
does, and a bus master's turn (10_state.md R24 to R30, 20_memory.md R60 to R69, R72). -/

namespace Sys2Proof.Machine

/-! ## The window -/

/-- The offset of a host address in FBRAST's window; none outside it, where no access reaches FBRAST
(20_memory.md R60, R74). Log entry 10. -/
def windowOffset (addr : Nat) : Option Offset :=
  if Config.rasBase ≤ addr ∧ addr < Config.rasBase + Config.windowBytes then
    some (BitVec.ofNat 19 (addr - Config.rasBase))
  else none

/-- `MemRead(addr, n)` as an access of the window (00_scope.md R9). -/
def memRead (addr : Nat) (w : Width) : Option BusReq := (windowOffset addr).map fun off => .read off w

/-- `MemWrite(addr, n, v)` as an access of the window (00_scope.md R9). -/
def memWrite (addr : Nat) (w : Width) (v : Word) : Option BusReq :=
  (windowOffset addr).map fun off => .write off w v

/-- The number of bytes an access moves (20_memory.md R62). -/
def Width.bytes : Width → Nat
  | .w8 => 1
  | .w16 => 2
  | .w32 => 4

/-- Below the framebuffer window only aligned 32-bit accesses are supported; from there on any width that
is aligned to its size (20_memory.md R65, R66, 92_eei_decisions.md D17). Log entry 11. -/
def supported (off : Offset) (w : Width) : Bool :=
  if off.toNat < Config.fbBase then w == .w32 && off.toNat % 4 == 0
  else off.toNat % w.bytes == 0

/-! ## Reads -/

/-- What a 32-bit read of an offset below the framebuffer window returns (10_state.md R24 to R30,
20_memory.md R61). -/
def registerWord (s : State) (off : Offset) : Word :=
  match off.toNat with
  | 0x00 => Config.idWord
  | 0x04 => s.ctrlWord
  | 0x08 => s.statusWord
  | 0x0C => 0#32
  | 0x10 => s.clipOrgWord
  | 0x14 => s.clipSizeWord
  | 0x18 => s.errInfoWord
  | _ => 0#32

/-- The byte a framebuffer-window read sees: while BUSY = 1 a free value, else the framebuffer's byte
(20_memory.md R63, R71, R72). Log entry 3. -/
def windowByte (s : State) (a : Nat) : Byte :=
  if s.busy then Config.busyByte s.readDraw a else byteAt s.fbDraw s.fb a

/-- A framebuffer-window read, little-endian, zero-extended to 32 bits (20_memory.md R62, R66). -/
def fbRead (s : State) (off : Offset) (w : Width) : Word :=
  let b := fun k => windowByte s (off.toNat + k)
  match w with
  | .w8 => 0#24 ++ b 0
  | .w16 => 0#16 ++ b 1 ++ b 0
  | .w32 => b 3 ++ b 2 ++ b 1 ++ b 0

/-- What a supported read returns (R61). -/
def readValue (s : State) (off : Offset) (w : Width) : Word :=
  if off.toNat < Config.fbBase then registerWord s off
  else if off.toNat < Config.fbEnd then fbRead s off w
  else 0#32

/-! ## Writes -/

/-- A write of `v` to CTRL: a soft reset when bit 0 is 1, else bits [2:1] are stored (10_state.md R25). -/
def writeCtrl (v : Word) (s : State) : State :=
  if v.getLsbD 0 then softReset s.renewReads
  else { s.renewReads with errIE := v.getLsbD 1, idleIE := v.getLsbD 2 }

/-- Access number one of master `k` is complete, with its answer. -/
def State.complete (s : State) (k : Nat) (resp : BusResp) : State :=
  { s with masters := s.masters.modify k fun m =>
      { requests := m.requests.tail, responses := resp :: m.responses } }

/-- Whether a CMD write of master `k` is accepted now: the FIFO has room, and no other master's write has
been held for longer (10_state.md R27, 70_reset_and_hazards.md R262). Log entry 8. -/
def cmdAccepts (s : State) (k : Nat) : Bool :=
  decide (s.fifo.length < Config.fifoDepth) && (s.waiting.isEmpty || s.waiting.head? == some k)

/-- A write of `v` to CMD by master `k`: discarded when halted, appended to the FIFO when it is accepted,
else held, which leaves the access to be completed at a later turn (10_state.md R27; log entry 8). DESIGN
CHOICE: a write that was held when a command error halted the engine is discarded at its master's next turn
while halted, and not in the error's step; where a reset comes before that turn, it is accepted after it, as a
word of the new stream (log entry 19). -/
def writeCmd (k : Nat) (v : Word) (s : State) : State :=
  if s.mode = .halted then { s with waiting := s.waiting.erase k }.complete k .written
  else if cmdAccepts s k then
    { s.renewReads with fifo := s.fifo ++ [v], waiting := s.waiting.erase k }.complete k .written
  else if s.waiting.contains k then s
  else { s.renewReads with waiting := s.waiting ++ [k] }

/-- A supported write: CTRL and CMD act, every other write is ignored and completes (20_memory.md R61,
R64, R67). -/
def busWrite (k : Nat) (off : Offset) (v : Word) (s : State) : State :=
  match off.toNat with
  | 0x04 => (writeCtrl v s).complete k .written
  | 0x0C => writeCmd k v s
  | _ => s.complete k .written

/-! ## A master's turn -/

/-- One access of master `k`; an unsupported one is refused (20_memory.md R65, R66). A read has no effect
but its answer (R67). -/
def busAccess (k : Nat) (req : BusReq) (s : State) : Host.Outcome State Fault Refusal :=
  match req with
  | .read off w =>
    if supported off w then .next (s.complete k (.data (readValue s off w)))
    else .refused .unsupportedAccess
  | .write off w v =>
    if supported off w then .next (busWrite k off v s) else .refused .unsupportedAccess

/-- The turn of master `k`: its next access, if it has one. While reset is asserted an access is refused; a
CMD write that was already held then is no access issued during reset, and goes on being held
(70_reset_and_hazards.md R260). Log entry 12. -/
def hostTurn (k : Nat) (s : State) : Host.Outcome State Fault Refusal :=
  match s.masters[k]? with
  | none => .next s
  | some m =>
    match m.requests with
    | [] => .next s
    | req :: _ =>
      if s.resetIn then
        if s.waiting.contains k then .next s else .refused .accessDuringReset
      else busAccess k req s

end Sys2Proof.Machine
end

