-- ==== Sys2Proof/Machine/Pixel.lean ====
section
/-! DEFINITION. The pixel write, the blend, span fill, and the commands SPAN and SPAN.A
(40_pixel_span.md R120 to R128). -/

namespace Sys2Proof.Machine

/-- What PlotPixel reads beside the framebuffer: the clipping registers, and the draw that gives bytes
nothing has written. -/
structure Canvas where
  clip : Clip
  draw : Nat
  deriving DecidableEq, Repr

/-- The canvas of a state. -/
def State.canvas (s : State) : Canvas := ⟨s.clip, s.fbDraw⟩

/-- A state after a drawing command of `words` words: its framebuffer painted, then the command retired. -/
def State.paint (s : State) (words : Nat) (draw : Canvas → Memory → Memory) : State :=
  { s with fb := draw s.canvas s.fb }.retire words

/-- `InClip(x, y)` (R120). -/
def inClip (c : Clip) (x y : Int) : Bool :=
  decide (0 ≤ x ∧ x < c.width) && decide (0 ≤ y ∧ y < c.height)

/-- `OnScreen(sx, sy)` (R121). -/
def onScreen (sx sy : Int) : Bool :=
  decide (0 ≤ sx ∧ sx < (Config.screenW : Int)) && decide (0 ≤ sy ∧ sy < (Config.screenH : Int))

/-- `Avg(p, q)`: the mean of two channels, rounded down (R123). -/
def avg (p q : Byte) : Byte := BitVec.ofNat 8 ((p.toNat + q.toNat) / 2)

/-- The new value of the channel at offset `a`: the colour `q`, or its mean with the current byte (R122,
R123). -/
def channel (draw : Nat) (blend : Bool) (m : Memory) (a : Nat) (q : Byte) : Byte :=
  if blend then avg (byteAt draw m a) q else q

/-- Write the pixel whose byte `r` is at offset `a`: the three channels, then `0xFF` to byte `a`
(R122 to R124). -/
def writePixel (draw : Nat) (rgb : Rgb) (blend : Bool) (a : Nat) (m : Memory) : Memory :=
  let m1 := m.write a (channel draw blend m a rgb.r)
  let m2 := m1.write (a + 1) (channel draw blend m1 (a + 1) rgb.g)
  let m3 := m2.write (a + 2) (channel draw blend m2 (a + 2) rgb.b)
  m3.write (a + 3) 0xFF#8

/-- `PlotPixel(x, y, rgb, blend)`, the only way any command writes the framebuffer (R122). -/
def plotPixel (c : Canvas) (rgb : Rgb) (blend : Bool) (p : Point) (m : Memory) : Memory :=
  if inClip c.clip p.1 p.2 then
    if onScreen (c.clip.left + p.1) (c.clip.top + p.2) then
      writePixel c.draw rgb blend (pixelAddr (c.clip.left + p.1) (c.clip.top + p.2)) m
    else m
  else m

/-- PlotPixel of each point of a list, in list order. -/
def plotAll (c : Canvas) (rgb : Rgb) (blend : Bool) (ps : List Point) (m : Memory) : Memory :=
  ps.foldl (fun m p => plotPixel c rgb blend p m) m

/-- The pixels of a span in increasing `x`; none when `l > r` (R125). -/
def Span.points (s : Span) : List Point :=
  (List.range (s.r - s.l + 1).toNat).map fun (k : Nat) => (s.l + (k : Int), s.y)

/-- `FillSpan(y, x1, x2, rgb, blend)` (R125). -/
def fillSpan (c : Canvas) (rgb : Rgb) (blend : Bool) (s : Span) (m : Memory) : Memory :=
  plotAll c rgb blend s.points m

end Sys2Proof.Machine
end

