-- ==== Sys2Proof/Machine/Fill.lean ====
section
/-! DEFINITION. Filling a span in one pass over the framebuffer. `fillSpan` of Machine/Pixel.lean is the
meaning (40_pixel_span.md R125); `fillSpanOnce` is the same function, proved equal here, and is what
compiled code runs. The lemmas on the way say what each memory operation reads as, and that each keeps the
canonical form. -/

namespace Sys2Proof.Machine

/-! ## Memory as a finite map -/

@[simp] theorem Memory.read_nil (x : Nat) : Memory.read [] x = none := rfl

theorem Memory.read_cons (k : Nat) (v : Byte) (m : Memory) (x : Nat) :
    Memory.read ((k, v) :: m) x = if k = x then some v else m.read x := rfl

theorem Memory.read_write (m : Memory) (a : Nat) (b : Byte) (x : Nat) :
    (m.write a b).read x = if x = a then some b else m.read x := by
  induction m with
  | nil => simp [Memory.write, Memory.read, eq_comm]
  | cons c m ih =>
    obtain ⟨k, v⟩ := c
    simp only [Memory.write]
    split_ifs with h1 h2 h3 <;> grind [Memory.read]

theorem Memory.read_append (m m' : Memory) (x : Nat) :
    Memory.read (m ++ m') x = (m.read x).or (m'.read x) := by
  induction m with
  | nil => rfl
  | cons c m ih =>
    obtain ⟨k, v⟩ := c
    simp only [List.cons_append, Memory.read_cons, ih]
    split <;> rfl

theorem Memory.wf_cons (a : Nat) (v : Byte) (m : Memory) :
    Memory.wf ((a, v) :: m) = true ↔ (∀ c ∈ m, a < c.1) ∧ Memory.wf m = true := by
  induction m generalizing a v with
  | nil => simp [Memory.wf]
  | cons c m ih =>
    obtain ⟨k, w⟩ := c
    simp only [Memory.wf, Bool.and_eq_true, decide_eq_true_eq, List.mem_cons, forall_eq_or_imp]
    constructor
    · rintro ⟨h1, h2⟩
      exact ⟨⟨h1, fun c hc => h1.trans (((ih k w).1 h2).1 c hc)⟩, h2⟩
    · rintro ⟨⟨h1, -⟩, h2⟩
      exact ⟨h1, h2⟩

theorem Memory.wf_iff_pairwise (m : Memory) :
    Memory.wf m = true ↔ m.Pairwise fun c d => c.1 < d.1 := by
  induction m with
  | nil => simp [Memory.wf]
  | cons c m ih => rw [Memory.wf_cons, List.pairwise_cons, ih]

theorem Memory.read_eq_none {m : Memory} {x : Nat} (h : ∀ c ∈ m, c.1 ≠ x) : m.read x = none := by
  induction m with
  | nil => rfl
  | cons c m ih =>
    obtain ⟨k, v⟩ := c
    simp only [List.mem_cons, forall_eq_or_imp] at h
    rw [Memory.read_cons, if_neg h.1, ih h.2]

theorem Memory.wf_write {m : Memory} (h : m.wf = true) (a : Nat) (b : Byte) : (m.write a b).wf = true := by
  rw [Memory.wf_iff_pairwise] at h ⊢
  induction m with
  | nil => simp [Memory.write]
  | cons c m ih =>
    obtain ⟨k, v⟩ := c
    obtain ⟨hk, hm⟩ := List.pairwise_cons.1 h
    simp only [Memory.write]
    split_ifs with h1 h2
    · refine List.pairwise_cons.2 ⟨fun c hc => ?_, h⟩
      rcases List.mem_cons.1 hc with rfl | hc
      · exact h1
      · exact h1.trans (hk c hc)
    · subst h2
      exact List.pairwise_cons.2 ⟨hk, hm⟩
    · refine List.pairwise_cons.2 ⟨fun c hc => ?_, ih hm⟩
      have hmem : ∀ (m : Memory), c ∈ m.write a b → c = (a, b) ∨ c ∈ m := by
        intro m
        induction m with
        | nil => simp [Memory.write]
        | cons d m ih =>
          obtain ⟨j, w⟩ := d
          simp only [Memory.write]
          split_ifs <;> simp only [List.mem_cons] <;> tauto
      rcases hmem m hc with rfl | hc
      · show k < a; omega
      · exact hk c hc

/-- Canonical memories that read the same are the same data. -/
theorem Memory.ext {m m' : Memory} (h : m.wf = true) (h' : m'.wf = true)
    (hr : ∀ x, m.read x = m'.read x) : m = m' := by
  induction m generalizing m' with
  | nil =>
    cases m' with
    | nil => rfl
    | cons c m' => obtain ⟨k, v⟩ := c; simpa [Memory.read_cons] using hr k
  | cons c m ih =>
    obtain ⟨k, v⟩ := c
    cases m' with
    | nil => simpa [Memory.read_cons] using hr k
    | cons d m' =>
      obtain ⟨j, w⟩ := d
      rw [Memory.wf_cons] at h h'
      have below : ∀ {n : Memory} {b : Nat}, (∀ c ∈ n, b < c.1) → ∀ x ≤ b, n.read x = none :=
        fun hn x hx => Memory.read_eq_none fun c hc => by have := hn c hc; omega
      have hkj : k = j := by
        rcases lt_trichotomy k j with hlt | heq | hgt
        · have := hr k
          rw [Memory.read_cons, if_pos rfl, Memory.read_cons, if_neg (by omega),
            below h'.1 k (by omega)] at this
          cases this
        · exact heq
        · have := hr j
          rw [Memory.read_cons, if_neg (by omega), Memory.read_cons, if_pos rfl,
            below h.1 j (by omega)] at this
          cases this
      subst hkj
      have hvw : v = w := by simpa [Memory.read_cons] using hr k
      subst hvw
      rw [ih h.2 h'.2 fun x => ?_]
      by_cases hx : k = x
      · subst hx; rw [below h.1 k le_rfl, below h'.1 k le_rfl]
      · simpa [Memory.read_cons, hx] using hr x

/-! ## What plotting reads as -/

/-- The clip point whose pixel holds byte `x` of the framebuffer window, where that point is inside the
clipping rectangle: the only point through which a command can write byte `x` (R122, 20_memory.md R63). -/
def targetOf (clip : Clip) (x : Nat) : Option Point :=
  let q := (x - Config.fbBase) / Config.pixelBytes
  let p : Point := ((q % Config.screenW : Nat) - clip.left, (q / Config.screenW : Nat) - clip.top)
  if Config.fbBase ≤ x ∧ x < Config.fbEnd ∧ inClip clip p.1 p.2 then some p else none

/-- The new value of a byte of a pixel that is written: byte 3 is `0xFF`, the others are channels (R122 to
R124). -/
def pixelByte (rgb : Rgb) (blend : Bool) (x : Nat) (old : Byte) : Byte :=
  if x % 4 = 3 then 0xFF#8
  else
    let q := if x % 4 = 0 then rgb.r else if x % 4 = 1 then rgb.g else rgb.b
    if blend then avg old q else q

theorem read_writePixel (d : Nat) (rgb : Rgb) (bl : Bool) (a : Nat) (m : Memory) (x : Nat)
    (ha : a % 4 = 0) :
    (writePixel d rgb bl a m).read x =
      if a ≤ x ∧ x < a + 4 then some (pixelByte rgb bl x (byteAt d m x)) else m.read x := by
  simp only [writePixel, Memory.read_write]
  have hx : x = a + 3 ∨ x = a + 2 ∨ x = a + 1 ∨ x = a ∨ ¬(a ≤ x ∧ x < a + 4) := by omega
  rcases hx with rfl | rfl | rfl | rfl | hx
  · simp [pixelByte, show (a + 3) % 4 = 3 by omega]
  · simp [pixelByte, channel, byteAt, Memory.read_write, show (a + 2) % 4 = 2 by omega]
  · simp [pixelByte, channel, byteAt, Memory.read_write, show (a + 1) % 4 = 1 by omega]
  · simp [pixelByte, channel, ha]
  · rw [if_neg hx, if_neg (by omega), if_neg (by omega), if_neg (by omega), if_neg (by omega)]

theorem pixelAddr_mod (sx sy : Int) : pixelAddr sx sy % 4 = 0 := by
  simp only [pixelAddr, Config.fbBase, Config.pixelBytes]; omega

theorem inClip_iff (c : Clip) (x y : Int) :
    inClip c x y = true ↔ (0 ≤ x ∧ x < c.width) ∧ 0 ≤ y ∧ y < c.height := by simp [inClip]

theorem onScreen_iff (sx sy : Int) :
    onScreen sx sy = true ↔ (0 ≤ sx ∧ sx < 256) ∧ 0 ≤ sy ∧ sy < 224 := by
  simp only [onScreen, Bool.and_eq_true, decide_eq_true_eq]
  rfl

theorem pixelAddr_eq (sx sy : Int) : pixelAddr sx sy = 262144 + (sy.toNat * 256 + sx.toNat) * 4 := rfl

theorem targetOf_eq (clip : Clip) (x : Nat) :
    targetOf clip x =
      if 262144 ≤ x ∧ x < 491520 ∧
          inClip clip (((x - 262144) / 4 % 256 : Nat) - clip.left)
            (((x - 262144) / 4 / 256 : Nat) - clip.top) = true then
        some ((((x - 262144) / 4 % 256 : Nat) - clip.left),
          (((x - 262144) / 4 / 256 : Nat) - clip.top))
      else none := rfl

theorem targetOf_eq_some (clip : Clip) (x : Nat) (p : Point) :
    targetOf clip x = some p ↔
      inClip clip p.1 p.2 = true ∧ onScreen (clip.left + p.1) (clip.top + p.2) = true ∧
        pixelAddr (clip.left + p.1) (clip.top + p.2) ≤ x ∧
        x < pixelAddr (clip.left + p.1) (clip.top + p.2) + 4 := by
  obtain ⟨px, py⟩ := p
  rw [targetOf_eq, onScreen_iff, pixelAddr_eq]
  constructor
  · intro h
    split_ifs at h with h1
    simp only [Option.some.injEq, Prod.mk.injEq] at h
    obtain ⟨rfl, rfl⟩ := h
    refine ⟨h1.2.2, ?_, ?_, ?_⟩ <;> simp only <;> omega
  · simp only
    rintro ⟨h1, h2, h3, h4⟩
    have e1 : (((x - 262144) / 4 % 256 : Nat) : Int) - clip.left = px := by omega
    have e2 : (((x - 262144) / 4 / 256 : Nat) : Int) - clip.top = py := by omega
    rw [e1, e2, if_pos ⟨by omega, by omega, h1⟩]

theorem read_plotPixel (c : Canvas) (rgb : Rgb) (bl : Bool) (p : Point) (m : Memory) (x : Nat) :
    (plotPixel c rgb bl p m).read x =
      if targetOf c.clip x = some p then some (pixelByte rgb bl x (byteAt c.draw m x))
      else m.read x := by
  simp only [plotPixel, targetOf_eq_some]
  split
  · split
    · simp_all [read_writePixel _ _ _ _ _ _ (pixelAddr_mod _ _)]
    · simp_all
  · simp_all

theorem byteAt_eq_of_read {d : Nat} {m m' : Memory} {x : Nat} (h : m.read x = m'.read x) :
    byteAt d m x = byteAt d m' x := by simp [byteAt, h]

/-- Plotting distinct points writes each byte it reaches once, from its old value. -/
theorem read_plotAll (c : Canvas) (rgb : Rgb) (bl : Bool) (ps : List Point) (hps : ps.Nodup)
    (m : Memory) (x : Nat) :
    (plotAll c rgb bl ps m).read x =
      if ∃ p ∈ ps, targetOf c.clip x = some p then
        some (pixelByte rgb bl x (byteAt c.draw m x))
      else m.read x := by
  induction ps generalizing m with
  | nil => simp [plotAll]
  | cons p ps ih =>
    obtain ⟨hp, hps⟩ := List.nodup_cons.1 hps
    have hstep : plotAll c rgb bl (p :: ps) m = plotAll c rgb bl ps (plotPixel c rgb bl p m) := rfl
    rw [hstep, ih hps, byteAt, read_plotPixel]
    by_cases h : targetOf c.clip x = some p
    · have hnot : ¬∃ q ∈ ps, targetOf c.clip x = some q := by
        rintro ⟨q, hq, hxq⟩
        rw [h] at hxq
        cases hxq
        exact hp hq
      rw [if_neg hnot, if_pos h, if_pos ⟨p, List.mem_cons_self, h⟩]
    · simp only [List.mem_cons, exists_eq_or_imp, h, false_or, if_false]
      rfl

/-- Opaque plotting writes each byte it reaches with the colour, however often it reaches it. -/
theorem read_plotAll_opaque (c : Canvas) (rgb : Rgb) (ps : List Point) (m : Memory) (x : Nat) :
    (plotAll c rgb false ps m).read x =
      if ∃ p ∈ ps, targetOf c.clip x = some p then some (pixelByte rgb false x 0#8)
      else m.read x := by
  have hb : ∀ old, pixelByte rgb false x old = pixelByte rgb false x 0#8 := fun old => by
    simp [pixelByte]
  induction ps generalizing m with
  | nil => simp [plotAll]
  | cons p ps ih =>
    have hstep : plotAll c rgb false (p :: ps) m = plotAll c rgb false ps (plotPixel c rgb false p m) :=
      rfl
    rw [hstep, ih, read_plotPixel, hb]
    by_cases h : targetOf c.clip x = some p
    · simp only [h, if_true, hb, List.mem_cons, exists_eq_or_imp, true_or, ite_self]
    · simp only [h, if_false, List.mem_cons, exists_eq_or_imp, false_or]

theorem wf_writePixel {m : Memory} (h : m.wf = true) (d : Nat) (rgb : Rgb) (bl : Bool) (a : Nat) :
    (writePixel d rgb bl a m).wf = true :=
  Memory.wf_write (Memory.wf_write (Memory.wf_write (Memory.wf_write h _ _) _ _) _ _) _ _

theorem wf_plotPixel {m : Memory} (h : m.wf = true) (c : Canvas) (rgb : Rgb) (bl : Bool) (p : Point) :
    (plotPixel c rgb bl p m).wf = true := by
  unfold plotPixel
  split
  · split
    · exact wf_writePixel h _ _ _ _
    · exact h
  · exact h

theorem wf_plotAll {m : Memory} (h : m.wf = true) (c : Canvas) (rgb : Rgb) (bl : Bool) (ps : List Point) :
    (plotAll c rgb bl ps m).wf = true := by
  induction ps generalizing m with
  | nil => exact h
  | cons p ps ih => exact ih (wf_plotPixel h c rgb bl p)

theorem mem_points (s : Span) (p : Point) : p ∈ s.points ↔ p.2 = s.y ∧ s.l ≤ p.1 ∧ p.1 ≤ s.r := by
  obtain ⟨px, py⟩ := p
  simp only [Span.points, List.mem_map, List.mem_range, Prod.mk.injEq]
  constructor
  · rintro ⟨k, hk, rfl, rfl⟩; omega
  · rintro ⟨rfl, h1, h2⟩; exact ⟨(px - s.l).toNat, by omega, by omega, rfl⟩

theorem nodup_points (s : Span) : s.points.Nodup := by
  refine (List.nodup_range).map fun a b h => ?_
  simp only [Prod.mk.injEq] at h
  omega

/-! ## One pass -/

theorem Memory.read_takeWhile {m : Memory} (h : m.wf = true) (a x : Nat) :
    Memory.read (m.takeWhile fun c => decide (c.1 < a)) x = if x < a then m.read x else none := by
  induction m with
  | nil => simp
  | cons c m ih =>
    obtain ⟨k, v⟩ := c
    rw [Memory.wf_cons] at h
    by_cases hk : k < a
    · rw [List.takeWhile_cons, if_pos (by simpa using hk), Memory.read_cons, Memory.read_cons, ih h.2]
      split_ifs <;> first | rfl | omega
    · rw [List.takeWhile_cons, if_neg (by simpa using hk), Memory.read_nil]
      split_ifs with hx
      · exact (Memory.read_eq_none fun c hc => by
          rcases List.mem_cons.1 hc with rfl | hc
          · show k ≠ x; omega
          · have := h.1 c hc; omega).symm
      · rfl

theorem Memory.read_dropWhile {m : Memory} (h : m.wf = true) (a x : Nat) :
    Memory.read (m.dropWhile fun c => decide (c.1 < a)) x = if x < a then none else m.read x := by
  induction m with
  | nil => simp
  | cons c m ih =>
    obtain ⟨k, v⟩ := c
    have hcons := h
    rw [Memory.wf_cons] at h
    by_cases hk : k < a
    · rw [List.dropWhile_cons, if_pos (by simpa using hk), Memory.read_cons, ih h.2]
      split_ifs <;> first | rfl | omega
    · rw [List.dropWhile_cons, if_neg (by simpa using hk)]
      split_ifs with hx
      · exact Memory.read_eq_none fun c hc => by
          rcases List.mem_cons.1 hc with rfl | hc
          · show k ≠ x; omega
          · have := h.1 c hc; omega
      · rfl

theorem Memory.read_run (a n : Nat) (f : Nat → Byte) (x : Nat) :
    Memory.read ((List.range n).map fun k => (a + k, f (a + k))) x =
      if a ≤ x ∧ x < a + n then some (f x) else none := by
  induction n with
  | zero => simp
  | succ n ih =>
    rw [List.range_succ, List.map_append, Memory.read_append, ih]
    simp only [List.map_cons, List.map_nil, Memory.read_cons, Memory.read_nil]
    grind

/-- The columns of a span that land in the rectangle and on screen. -/
def visibleSpan (clip : Clip) (s : Span) : Span :=
  ⟨s.y, max s.l (max 0 (-clip.left)), min s.r (min (clip.width - 1) (Config.screenW - 1 - clip.left))⟩

/-- The visible part of a span is not empty. -/
def spanVisible (clip : Clip) (s : Span) : Bool :=
  decide (0 ≤ s.y ∧ s.y < clip.height ∧ 0 ≤ clip.top + s.y ∧ clip.top + s.y < (Config.screenH : Int) ∧
    (visibleSpan clip s).l ≤ (visibleSpan clip s).r)

theorem visibleSpan_l (clip : Clip) (s : Span) :
    (visibleSpan clip s).l = max s.l (max 0 (-clip.left)) := rfl

theorem visibleSpan_r (clip : Clip) (s : Span) :
    (visibleSpan clip s).r = min s.r (min (clip.width - 1) (255 - clip.left)) := rfl

theorem spanVisible_iff (clip : Clip) (s : Span) :
    spanVisible clip s = true ↔
      0 ≤ s.y ∧ s.y < clip.height ∧ 0 ≤ clip.top + s.y ∧ clip.top + s.y < 224 ∧
        (visibleSpan clip s).l ≤ (visibleSpan clip s).r := by
  simp only [spanVisible, decide_eq_true_eq]
  rfl

/-- A run of `n` new bytes from offset `a` on, between the cells before and after it. -/
def spliceRun (c : Canvas) (rgb : Rgb) (blend : Bool) (a n : Nat) (m : Memory) : Memory :=
  let rest := m.dropWhile fun d => decide (d.1 < a)
  let mid := rest.takeWhile fun d => decide (d.1 < a + n)
  (m.takeWhile fun d => decide (d.1 < a)) ++
    ((List.range n).map fun k => (a + k, pixelByte rgb blend (a + k) (byteAt c.draw mid (a + k)))) ++
    rest.dropWhile fun d => decide (d.1 < a + n)

/-- `fillSpan` in one pass over a canonical memory. -/
def fillSpanOnce (c : Canvas) (rgb : Rgb) (blend : Bool) (s : Span) (m : Memory) : Memory :=
  if spanVisible c.clip s then
    if m.wf then
      spliceRun c rgb blend (pixelAddr (c.clip.left + (visibleSpan c.clip s).l) (c.clip.top + s.y))
        (4 * ((visibleSpan c.clip s).r - (visibleSpan c.clip s).l + 1).toNat) m
    else plotAll c rgb blend s.points m
  else m

theorem Memory.wf_dropWhile {m : Memory} (h : m.wf = true) (f : Nat × Byte → Bool) :
    Memory.wf (m.dropWhile f) = true := by
  rw [Memory.wf_iff_pairwise] at h ⊢
  exact h.sublist (List.dropWhile_sublist _)

theorem read_spliceRun (c : Canvas) (rgb : Rgb) (bl : Bool) (a n : Nat) {m : Memory}
    (h : m.wf = true) (x : Nat) :
    (spliceRun c rgb bl a n m).read x =
      if a ≤ x ∧ x < a + n then some (pixelByte rgb bl x (byteAt c.draw m x)) else m.read x := by
  have hd := Memory.wf_dropWhile h fun d => decide (d.1 < a)
  simp only [spliceRun, Memory.read_append, Memory.read_takeWhile h, Memory.read_dropWhile hd,
    Memory.read_dropWhile h]
  rw [Memory.read_run a n fun x => pixelByte rgb bl x
    (byteAt c.draw ((m.dropWhile fun d => decide (d.1 < a)).takeWhile fun d => decide (d.1 < a + n)) x)]
  by_cases h1 : x < a
  · rw [if_pos h1, if_neg (by omega), if_pos (by omega), if_neg (by omega)]
    simp
  · by_cases h2 : x < a + n
    · rw [if_neg h1, if_pos ⟨by omega, h2⟩, if_pos h2, if_pos ⟨by omega, h2⟩]
      simp only [Option.none_or, Option.or_none]
      rw [byteAt_eq_of_read (m' := m)]
      rw [Memory.read_takeWhile hd, if_pos h2, Memory.read_dropWhile h, if_neg h1]
    · rw [if_neg h1, if_neg (by omega), if_neg h2, if_neg h1, if_neg (by omega)]
      simp

theorem wf_spliceRun (c : Canvas) (rgb : Rgb) (bl : Bool) (a n : Nat) {m : Memory}
    (h : m.wf = true) : (spliceRun c rgb bl a n m).wf = true := by
  have hbelow : ∀ d ∈ m.takeWhile fun d => decide (d.1 < a), d.1 < a := fun d hd => by
    simpa using List.mem_takeWhile_imp hd
  have habove : ∀ d ∈ (m.dropWhile fun d => decide (d.1 < a)).dropWhile fun d => decide (d.1 < a + n),
      a + n ≤ d.1 := by
    have hd := Memory.wf_dropWhile (Memory.wf_dropWhile h fun d => decide (d.1 < a))
      fun d => decide (d.1 < a + n)
    intro d hmem
    by_contra hlt
    have hne : ∀ {l : Memory}, (∀ e ∈ l.head?, ¬ e.1 < a + n) → l.wf = true → d ∈ l → False := by
      intro l hhead hl hdl
      cases l with
      | nil => cases hdl
      | cons e l =>
        obtain ⟨k, v⟩ := e
        have hk : ¬ k < a + n := hhead (k, v) rfl
        rcases List.mem_cons.1 hdl with rfl | hdl
        · exact hk (by omega)
        · have := ((Memory.wf_cons _ _ _).1 hl).1 d hdl
          omega
    refine hne (fun e he => ?_) hd hmem
    have := List.head?_dropWhile_not (fun d : Nat × Byte => decide (d.1 < a + n))
      (m.dropWhile fun d => decide (d.1 < a))
    rw [Option.mem_def.1 he] at this
    simpa using this
  rw [Memory.wf_iff_pairwise] at h ⊢
  simp only [spliceRun, List.pairwise_append, List.pairwise_map]
  refine ⟨⟨h.sublist (List.takeWhile_sublist _), ?_, ?_⟩,
    (h.sublist (List.dropWhile_sublist _)).sublist (List.dropWhile_sublist _), ?_⟩
  · exact List.pairwise_lt_range.imp fun hlt => by omega
  · intro d hd e he
    obtain ⟨k, -, rfl⟩ := List.mem_map.1 he
    have := hbelow d hd
    show d.1 < a + k
    omega
  · intro d hd e he
    have he' := habove e he
    rcases List.mem_append.1 hd with hd | hd
    · have := hbelow d hd; omega
    · obtain ⟨k, hk, rfl⟩ := List.mem_map.1 hd
      have := List.mem_range.1 hk
      show a + k < e.1
      omega

/-- A span reaches byte `x` exactly when `x` lies in the run of its visible columns. -/
theorem span_target_iff (clip : Clip) (s : Span) (x : Nat) :
    (∃ p ∈ s.points, targetOf clip x = some p) ↔
      spanVisible clip s = true ∧
        pixelAddr (clip.left + (visibleSpan clip s).l) (clip.top + s.y) ≤ x ∧
        x < pixelAddr (clip.left + (visibleSpan clip s).l) (clip.top + s.y) +
          4 * ((visibleSpan clip s).r - (visibleSpan clip s).l + 1).toNat := by
  simp only [mem_points, targetOf_eq_some]
  simp only [spanVisible_iff, visibleSpan_l, visibleSpan_r, inClip_iff, onScreen_iff, pixelAddr_eq]
  constructor
  · rintro ⟨⟨px, py⟩, h1, h2, h3, h4, h5⟩
    simp only at h1 h2 h3 h4 h5
    obtain ⟨rfl, h1, h1'⟩ := h1
    refine ⟨⟨?_, ?_, ?_, ?_, ?_⟩, ?_, ?_⟩ <;> omega
  · rintro ⟨h1, h2, h3⟩
    refine ⟨((((x - 262144) / 4 % 256 : Nat) : Int) - clip.left, s.y), ⟨rfl, ?_, ?_⟩, ?_, ?_, ?_, ?_⟩ <;>
      simp only <;> omega

theorem fillSpan_eq_fillSpanOnce' (c : Canvas) (rgb : Rgb) (bl : Bool) (s : Span) (m : Memory) :
    fillSpan c rgb bl s m = fillSpanOnce c rgb bl s m := by
  unfold fillSpan fillSpanOnce
  split
  · rename_i hv
    split
    · rename_i hm
      refine Memory.ext (wf_plotAll hm _ _ _ _) (wf_spliceRun _ _ _ _ _ hm) fun x => ?_
      rw [read_plotAll _ _ _ _ (nodup_points s), read_spliceRun _ _ _ _ _ hm]
      simp only [span_target_iff, hv, true_and]
    · rfl
  · rename_i hv
    have hnone : ∀ p ∈ s.points, plotPixel c rgb bl p m = m := by
      intro p hp
      unfold plotPixel
      split
      · split
        · rename_i h1 h2
          exact absurd ((span_target_iff c.clip s (pixelAddr (c.clip.left + p.1) (c.clip.top + p.2))).1
            ⟨p, hp, (targetOf_eq_some _ _ _).2 ⟨h1, h2, le_rfl, by omega⟩⟩).1 hv
        · rfl
      · rfl
    have : ∀ ps : List Point, (∀ p ∈ ps, plotPixel c rgb bl p m = m) → plotAll c rgb bl ps m = m := by
      intro ps hps
      induction ps with
      | nil => rfl
      | cons p ps ih =>
        simp only [List.mem_cons, forall_eq_or_imp] at hps
        have hstep : plotAll c rgb bl (p :: ps) m = plotAll c rgb bl ps (plotPixel c rgb bl p m) := rfl
        rw [hstep, hps.1, ih hps.2]
    exact this _ hnone

@[csimp] theorem fillSpan_eq_fillSpanOnce : @fillSpan = @fillSpanOnce := by
  funext c rgb bl s m
  exact fillSpan_eq_fillSpanOnce' c rgb bl s m

end Sys2Proof.Machine
end

