-- ==== Sys2Proof/Machine/Control.lean ====
section
/-! DEFINITION. NOP, CLEAR, SETCLIP (44_control.md R210 to R212) and the three ILLEGAL rows
(30_encoding.md R96, 60_exceptions.md R231, R232). -/

namespace Sys2Proof.Machine

/-- The rows of the clipping rectangle as spans from column 0 to `crw - 1` (R211). -/
def clipRows (clip : Clip) : List Span :=
  (List.range clip.height.toNat).map fun (y : Nat) => ⟨(y : Int), 0, clip.width - 1⟩

/-- FillSpan of every row of the clipping rectangle, opaque (R211). -/
def drawClear (c : Canvas) (rgb : Rgb) (m : Memory) : Memory :=
  (clipRows c.clip).foldl (fun m s => fillSpan c rgb false s m) m

/-- NOP: only the command position advances (R210). -/
def execNop (_a : Bool) (_rsv : BitVec 3) (_rgb : Rgb) (s : State) : Host.Outcome State Fault Refusal :=
  .next (s.retire 1)

/-- CLEAR: fill the whole clipping rectangle, opaque (R211). -/
def execClear (_a : Bool) (_rsv : BitVec 3) (rgb : Rgb) (s : State) :
    Host.Outcome State Fault Refusal :=
  .next (s.paint 1 fun c m => drawClear c rgb m)

/-- SETCLIP: set the four clipping registers (R212). -/
def execSetclip (_a : Bool) (_rsv : BitVec 3) (_rgb : Rgb) (org : XY) (size : WH) (s : State) :
    Host.Outcome State Fault Refusal :=
  .next ({ s with clip := clipOf org size }.retire 3)

/-- ILLEGAL, OP 0x9: raise ILLEGAL_OPCODE (R96). -/
def execIllegal9 (low : BitVec 28) (s : State) : Host.Outcome State Fault Refusal :=
  .next (raiseCmdError .illegalOpcode (Instr.header (.illegal9 low)) s)

/-- ILLEGAL, OP 0xA and 0xB: raise ILLEGAL_OPCODE (R96). -/
def execIllegalAB (low : BitVec 29) (s : State) : Host.Outcome State Fault Refusal :=
  .next (raiseCmdError .illegalOpcode (Instr.header (.illegalAB low)) s)

/-- ILLEGAL, OP 0xC to 0xF: raise ILLEGAL_OPCODE (R96). -/
def execIllegalCF (low : BitVec 30) (s : State) : Host.Outcome State Fault Refusal :=
  .next (raiseCmdError .illegalOpcode (Instr.header (.illegalCF low)) s)

end Sys2Proof.Machine
end

