-- ==== Sys2Proof/Machine/Span.lean ====
section
/-! DEFINITION. The clamped fill and the commands SPAN and SPAN.A (40_pixel_span.md R126, R128). -/

namespace Sys2Proof.Machine

/-- The span ClampSpan fills: `l` clamped from below at 0 and `r` from above at `crw - 1`, so it can come
out empty (40_pixel_span.md R126). -/
def Span.clamp (clip : Clip) (s : Span) : Span := ⟨s.y, max s.l 0, min s.r (clip.width - 1)⟩

/-- `ClampSpan(y, l, r, rgb, blend)` (R126). -/
def clampSpan (c : Canvas) (rgb : Rgb) (blend : Bool) (s : Span) (m : Memory) : Memory :=
  if (s.clamp c.clip).l ≤ (s.clamp c.clip).r then fillSpan c rgb blend (s.clamp c.clip) m else m

/-- ClampSpan of each span of a list, in list order. -/
def clampSpans (c : Canvas) (rgb : Rgb) (blend : Bool) (ss : List Span) (m : Memory) : Memory :=
  ss.foldl (fun m s => clampSpan c rgb blend s m) m

/-- SPAN: fill one horizontal span, opaque (R128 with A = 0). -/
def execSpan (_rsv : BitVec 3) (rgb : Rgb) (xs : X2) (row : YW) (s : State) :
    Host.Outcome State Fault Refusal :=
  .next (s.paint 3 fun c m => fillSpan c rgb false (spanOf xs row) m)

/-- SPAN.A: fill one horizontal span, blended (R128 with A = 1). -/
def execSpanA (_rsv : BitVec 3) (rgb : Rgb) (xs : X2) (row : YW) (s : State) :
    Host.Outcome State Fault Refusal :=
  .next (s.paint 3 fun c m => fillSpan c rgb true (spanOf xs row) m)

end Sys2Proof.Machine
end

