-- ==== Sys2Proof/Machine/Ellipse.lean ====
section
/-! DEFINITION. ELLIPSE and ELLIPSE.A: the two-region midpoint walk, the span table and its fill
(43_ellipse.md R190 to R198). -/

namespace Sys2Proof.Machine

/-! ## The midpoint walk -/

/-- The state of the walk, all of it exact (R192, R194). -/
structure EllipseWalk where
  x : Int
  y : Int
  px : Int
  py : Int
  p : Int
  deriving DecidableEq, Repr

/-- One round of region 1 after its point is recorded (R192). -/
def EllipseWalk.step1 (a2 b2 : Int) (w : EllipseWalk) : EllipseWalk :=
  let px := w.px + 2 * b2
  if w.p < 0 then { w with x := w.x + 1, px := px, p := w.p + 4 * (b2 + px) }
  else
    let py := w.py - 2 * a2
    { x := w.x + 1, y := w.y - 1, px := px, py := py, p := w.p + 4 * (b2 + px - py) }

/-- The decision value on entering region 2 (R193). -/
def EllipseWalk.enter2 (a2 b2 : Int) (w : EllipseWalk) : EllipseWalk :=
  { w with p := b2 * (2 * w.x + 1) ^ 2 + 4 * a2 * (w.y - 1) ^ 2 - 4 * a2 * b2 }

/-- One round of region 2 after its point is recorded (R193). -/
def EllipseWalk.step2 (a2 b2 : Int) (w : EllipseWalk) : EllipseWalk :=
  let py := w.py - 2 * a2
  if w.p > 0 then { w with y := w.y - 1, py := py, p := w.p + 4 * (a2 - py) }
  else
    let px := w.px + 2 * b2
    { x := w.x + 1, y := w.y - 1, px := px, py := py, p := w.p + 4 * (a2 - py + px) }

/-- The points of region 2, while `y ≥ 0` (R193, 90_conflicts.md C4). Each round lowers `y` by one, so
`y + 1` rounds are enough (log entry 15). -/
def region2 (a2 b2 : Int) : Nat → EllipseWalk → List Point
  | 0, _ => []
  | n + 1, w => if w.y ≥ 0 then (w.x, w.y) :: region2 a2 b2 n (w.step2 a2 b2) else []

/-- The points of region 1, while `px < py`, and then those of region 2 (R192, R193). Each round raises
`px` by `2·b²` and never raises `py`, so `a²·b` rounds are enough (log entry 15). -/
def region1 (a2 b2 : Int) : Nat → EllipseWalk → List Point
  | 0, w => region2 a2 b2 (w.y + 1).toNat (w.enter2 a2 b2)
  | n + 1, w =>
    if w.px < w.py then (w.x, w.y) :: region1 a2 b2 n (w.step1 a2 b2)
    else region2 a2 b2 (w.y + 1).toNat (w.enter2 a2 b2)

/-- The walk's first state (R192). -/
def ellipseStart (a b : Nat) : EllipseWalk :=
  let a2 : Int := a * a
  let b2 : Int := b * b
  { x := 0, y := b, px := 0, py := 2 * a2 * b, p := 4 * b2 - 4 * a2 * b + a2 }

/-- `EllipsePoints(a, b)`: the first-quadrant points in order (R192, R193). -/
def ellipsePoints (a b : Nat) : List Point :=
  region1 (a * a) (b * b) (a * a * b) (ellipseStart a b)

/-! ## The span table -/

/-- The span table: for each screen row its span, or none while the row is invalid (R195). -/
abbrev SpanTable := List (Option (Int × Int))

/-- The union of a row's span with `[l, r]` (R195). -/
def mergeRow (l r : Int) : Option (Int × Int) → Option (Int × Int)
  | some (l0, r0) => some (min l0 l, max r0 r)
  | none => some (l, r)

/-- The table row of clip row `yy`, where it is inside the rectangle and on screen (R195). -/
def recordRow (clip : Clip) (l r yy : Int) (t : SpanTable) : SpanTable :=
  if 0 ≤ yy ∧ yy < clip.height ∧ 0 ≤ clip.top + yy ∧ clip.top + yy < (Config.screenH : Int) then
    t.modify (clip.top + yy).toNat (mergeRow l r)
  else t

/-- Record one point: its two rows, which are one row when `y = 0` (R195). -/
def recordPoint (clip : Clip) (cx cy : Int) (t : SpanTable) (p : Point) : SpanTable :=
  let t1 := recordRow clip (cx - p.1) (cx + p.1) (cy + p.2) t
  if p.2 = 0 then t1 else recordRow clip (cx - p.1) (cx + p.1) (cy - p.2) t1

/-- `RecordSpans(cx, cy, pts)` (R195). -/
def recordSpans (clip : Clip) (cx cy : Int) (pts : List Point) : SpanTable :=
  pts.foldl (recordPoint clip cx cy) (List.replicate Config.screenH none)

/-- The spans FillTable fills, in increasing screen row, as clip rows (R196). -/
def tableSpans (clip : Clip) (t : SpanTable) : List Span :=
  (List.range Config.screenH).filterMap fun (sy : Nat) =>
    (t.getD sy none).map fun lr => ⟨(sy : Int) - clip.top, lr.1, lr.2⟩

/-- The spans of an ellipse before the clamp; a negative radius counts as its absolute value (R190,
R191). -/
def ellipseSpans (clip : Clip) (c r : Point) : List Span :=
  tableSpans clip (recordSpans clip c.1 c.2 (ellipsePoints r.1.natAbs r.2.natAbs))

/-- The drawing of an ellipse (R190, R196). -/
def drawEllipse (cv : Canvas) (rgb : Rgb) (a : Bool) (c r : Point) (m : Memory) : Memory :=
  clampSpans cv rgb a (ellipseSpans cv.clip c r) m

/-! ## The commands -/

/-- ELLIPSE: fill an axis-aligned ellipse, opaque (R190 with A = 0). -/
def execEllipse (_rsv : BitVec 3) (rgb : Rgb) (c r : XY) (s : State) :
    Host.Outcome State Fault Refusal :=
  .next (s.paint 3 fun cv m => drawEllipse cv rgb false (pointOf c) (pointOf r) m)

/-- ELLIPSE.A: fill an axis-aligned ellipse, blended (R190 with A = 1). -/
def execEllipseA (_rsv : BitVec 3) (rgb : Rgb) (c r : XY) (s : State) :
    Host.Outcome State Fault Refusal :=
  .next (s.paint 3 fun cv m => drawEllipse cv rgb true (pointOf c) (pointOf r) m)

end Sys2Proof.Machine
end

