-- ==== Sys2Proof/Machine/Line.lean ====
section
/-! DEFINITION. POINT, the Bresenham walk and LINE (41_point_line.md R140 to R144). -/

namespace Sys2Proof.Machine

/-! ## The Bresenham walk -/

/-- What the set-up of a line fixes: the direction of each axis, the major axis and the larger and smaller
of the sign-stripped deltas (R141). -/
structure LineSetup where
  sx : Int
  sy : Int
  xmajor : Bool
  deltaMax : Int
  deltaMin : Int
  deriving DecidableEq, Repr

/-- The set-up of `LinePixels(x1, y1, x2, y2)`; on a tie x is the major axis (R141). -/
def lineSetup (p1 p2 : Point) : LineSetup :=
  let dx := p2.1 - p1.1
  let dy := p2.2 - p1.2
  { sx := if dx < 0 then -1 else 1
    sy := if dy < 0 then -1 else 1
    xmajor := decide (absInt dx ≥ absInt dy)
    deltaMax := if absInt dx ≥ absInt dy then absInt dx else absInt dy
    deltaMin := if absInt dx ≥ absInt dy then absInt dy else absInt dx }

/-- The next pixel of the walk: diagonal when `oct ≥ 0`, else along the major axis (R142). -/
def lineStep (c : LineSetup) (oct : Int) (p : Point) : Point :=
  if oct ≥ 0 then (p.1 + c.sx, p.2 + c.sy)
  else if c.xmajor then (p.1 + c.sx, p.2) else (p.1, p.2 + c.sy)

/-- The next error term (R142). -/
def octStep (c : LineSetup) (oct : Int) : Int :=
  if oct ≥ 0 then oct + 2 * (c.deltaMin - c.deltaMax) else oct + 2 * c.deltaMin

/-- The pixels of the next `i` rounds of the loop (R142). -/
def lineWalk (c : LineSetup) : Nat → Int → Point → List Point
  | 0, _, _ => []
  | i + 1, oct, p => lineStep c oct p :: lineWalk c i (octStep c oct) (lineStep c oct p)

/-- `LinePixels(x1, y1, x2, y2)`: the first endpoint, then `delta_max` rounds (R142). -/
def linePixels (p1 p2 : Point) : List Point :=
  let c := lineSetup p1 p2
  p1 :: lineWalk c c.deltaMax.toNat (2 * c.deltaMin - c.deltaMax) p1

/-- A line, opaque (R143). -/
def drawLine (c : Canvas) (rgb : Rgb) (p1 p2 : Point) (m : Memory) : Memory :=
  plotAll c rgb false (linePixels p1 p2) m

/-! ## The commands -/

/-- POINT: write one pixel, opaque (R140). -/
def execPoint (_a : Bool) (_rsv : BitVec 3) (rgb : Rgb) (p : XY) (s : State) :
    Host.Outcome State Fault Refusal :=
  .next (s.paint 2 fun c m => plotPixel c rgb false (pointOf p) m)

/-- LINE: draw a Bresenham line, both ends included, opaque (R143). -/
def execLine (_a : Bool) (_rsv : BitVec 3) (rgb : Rgb) (p1 p2 : XY) (s : State) :
    Host.Outcome State Fault Refusal :=
  .next (s.paint 3 fun c m => drawLine c rgb (pointOf p1) (pointOf p2) m)

end Sys2Proof.Machine
end

