-- ==== Sys2Proof/Machine/Polygon.lean ====
section
/-! DEFINITION. POLY, POLY.A and OUTLINE (42_polygon.md R160 to R174). A polygon's result is the list of
spans its rows give before the clamp, and ClampSpan of each. -/

namespace Sys2Proof.Machine

/-! ## Vertices -/

/-- `X[k]` (R160). -/
def vertexX (vs : List XY) (k : Nat) : Int := sext16 (vs.getD k ⟨0, 0⟩).x

/-- `Y[k]` (R160). -/
def vertexY (vs : List XY) (k : Nat) : Int := sext16 (vs.getD k ⟨0, 0⟩).y

/-- The least of `f 0 … f (n - 1)`, for `n ≥ 1` (R162). -/
def minOver (n : Nat) (f : Nat → Int) : Int := (List.range n).foldl (fun m k => min m (f k)) (f 0)

/-- The greatest of `f 0 … f (n - 1)`, for `n ≥ 1` (R162). -/
def maxOver (n : Nat) (f : Nat → Int) : Int := (List.range n).foldl (fun m k => max m (f k)) (f 0)

/-- `ymin` (R162). -/
def polyYmin (vs : List XY) : Int := minOver vs.length (vertexY vs)

/-- `ymax` (R162). -/
def polyYmax (vs : List XY) : Int := maxOver vs.length (vertexY vs)

/-- `xmin` (R162). -/
def polyXmin (vs : List XY) : Int := minOver vs.length (vertexX vs)

/-- `xmax` (R162). -/
def polyXmax (vs : List XY) : Int := maxOver vs.length (vertexX vs)

/-- The bounding box has no overlap with `[0, crw - 1] × [0, crh - 1]` (R162). -/
def polyRejected (clip : Clip) (vs : List XY) : Bool :=
  decide (polyXmax vs < 0 ∨ polyXmin vs > clip.width - 1 ∨ polyYmax vs < 0 ∨
    polyYmin vs > clip.height - 1)

/-- The topmost vertex: the smallest index with `Y[k] = ymin` (R164). -/
def topVertex (vs : List XY) : Nat :=
  ((List.range vs.length).find? fun k => vertexY vs k == polyYmin vs).getD 0

/-! ## Edges -/

/-- The two walkers: left goes backward, right goes forward from the topmost vertex (R164). -/
inductive Side where
  | left
  | right
  deriving DecidableEq, Repr

/-- `prev(k)` for the left walker, `next(k)` for the right, modulo `n` (R164). -/
def Side.move (n : Nat) (k : Nat) : Side → Nat
  | .left => (k + n - 1) % n
  | .right => (k + 1) % n

/-- `CalcStep(dx, dy, side)`: an edge's step per row, 16.16 (R165). Both forms of the last branch stand as
FB writes them (90_conflicts.md C2). -/
def calcStep (dx dy : Int) (side : Side) : Word :=
  if dy ≤ 0 then 0#32
  else
    let a := dx * 256
    if absInt (asr a 16) < dy then wrap32 (int16 (tdiv a dy) * 256)
    else
      let q := tdiv (tdiv a 256) dy
      match side with
      | .left => wrap32 (shl (low16 q) 16)
      | .right => wrap32 (shl q 16)

/-- The registers of one walker: the vertex its edge heads to, the edge's x on the current row and its
step (16.16), and the row of the vertex headed to (R166). -/
structure Edge where
  tip : Nat
  x : Word
  step : Word
  ey : Int
  deriving DecidableEq, Repr

/-- The edge from vertex `k` to the next vertex on its side (R166, R169). -/
def edgeFrom (side : Side) (vs : List XY) (k : Nat) : Edge :=
  let t := side.move vs.length k
  { tip := t
    x := wrap32 (shl (vertexX vs k) 16)
    step := calcStep (vertexX vs t - vertexX vs k) (vertexY vs t - vertexY vs k) side
    ey := vertexY vs t }

/-- The pre-advance of an initial edge of a polygon that starts above the clip (R167). -/
def Edge.preAdvance (ymin : Int) (e : Edge) : Edge :=
  if ymin < 0 then { e with x := wrap32 (sext32 e.x + (-ymin) * sext32 e.step) } else e

/-- The advance loop of one side on row `y`: while the row has reached the end of the edge and the other
walker heads elsewhere, take the next edge (R169). At most `n - 2` rounds happen in a whole polygon
(R172), so `n` rounds never cut the loop short (log entry 15). -/
def advanceEdge (side : Side) (vs : List XY) (y : Int) (other : Nat) : Nat → Edge → Edge
  | 0, e => e
  | n + 1, e =>
    if y ≥ e.ey ∧ e.tip ≠ other then advanceEdge side vs y other n (edgeFrom side vs e.tip) else e

/-- The integer pixel of a 16.16 x, rounding half up (R170). -/
def Edge.pixel (e : Edge) : Int := asr (sext32 (wrap32 (sext32 e.x + 0x8000))) 16

/-- The step of an edge to the next row (R171). -/
def Edge.next (e : Edge) : Edge := { e with x := wrap32 (sext32 e.x + sext32 e.step) }

/-- The span between two edges on row `y`, its ends in order (R170). -/
def rowSpan (y : Int) (eL eR : Edge) : Span :=
  if eL.pixel > eR.pixel then ⟨y, eR.pixel, eL.pixel⟩ else ⟨y, eL.pixel, eR.pixel⟩

/-- The spans of the next `rows` rows from row `y` on: advance the left edge, then the right, give the
row's span, step both (R168 to R171). -/
def walkRows (vs : List XY) : Nat → Int → Edge → Edge → List Span
  | 0, _, _, _ => []
  | rows + 1, y, eL, eR =>
    let eL' := advanceEdge .left vs y eR.tip vs.length eL
    let eR' := advanceEdge .right vs y eL'.tip vs.length eR
    rowSpan y eL' eR' :: walkRows vs rows (y + 1) eL'.next eR'.next

/-- The spans of ScanFill, before the clamp: none when rejected (R162), one when flat (R163), else one a
row from `max(0, ymin)` to `min(crh - 1, ymax)` (R164 to R171). -/
def scanSpans (clip : Clip) (vs : List XY) : List Span :=
  let ymin := polyYmin vs
  let ymax := polyYmax vs
  if polyRejected clip vs then []
  else if ymin = ymax then [⟨ymin, polyXmin vs, polyXmax vs⟩]
  else
    let t := topVertex vs
    walkRows vs (min (clip.height - 1) ymax - max 0 ymin + 1).toNat (max 0 ymin)
      ((edgeFrom .left vs t).preAdvance ymin) ((edgeFrom .right vs t).preAdvance ymin)

/-! ## The commands -/

/-- The drawing of POLY for a legal vertex list: a point, a line, or ScanFill; only ScanFill honours A
(R160, R161). -/
def drawPoly (c : Canvas) (rgb : Rgb) (a : Bool) (vs : List XY) (m : Memory) : Memory :=
  if vs.length = 1 then plotPixel c rgb false (vertexX vs 0, vertexY vs 0) m
  else if vs.length = 2 then
    drawLine c rgb (vertexX vs 0, vertexY vs 0) (vertexX vs 1, vertexY vs 1) m
  else clampSpans c rgb a (scanSpans c.clip vs) m

/-- The pixels OUTLINE visits: the line from each vertex to the next, the last one to the first (R174). -/
def outlinePixels (vs : List XY) : List Point :=
  (List.range vs.length).flatMap fun (k : Nat) =>
    linePixels (vertexX vs k, vertexY vs k)
      (vertexX vs ((k + 1) % vs.length), vertexY vs ((k + 1) % vs.length))

/-- A command with a CNT word: draw when the count is legal, else raise BAD_VERTEX_COUNT with the header
before any pixel is written (R160, R174, 60_exceptions.md R231). -/
def execCounted (cnt : Cnt) (h : Word) (draw : Canvas → Memory → Memory) (s : State) :
    Host.Outcome State Fault Refusal :=
  if cnt.legal then .next (s.paint (2 + cnt.n.toNat) draw)
  else .next (raiseCmdError .badVertexCount h s)

/-- POLY: fill a polygon, opaque (R160 with A = 0). -/
def execPoly (rsv : BitVec 3) (rgb : Rgb) (cnt : Cnt) (vs : List XY) (s : State) :
    Host.Outcome State Fault Refusal :=
  execCounted cnt (Instr.header (.poly rsv rgb cnt vs)) (fun c m => drawPoly c rgb false vs m) s

/-- POLY.A: fill a polygon, blended when it has three vertices or more (R160 with A = 1). -/
def execPolyA (rsv : BitVec 3) (rgb : Rgb) (cnt : Cnt) (vs : List XY) (s : State) :
    Host.Outcome State Fault Refusal :=
  execCounted cnt (Instr.header (.polyA rsv rgb cnt vs)) (fun c m => drawPoly c rgb true vs m) s

/-- OUTLINE: draw the closed outline of a polygon, opaque (R174). -/
def execOutline (a : Bool) (rsv : BitVec 3) (rgb : Rgb) (cnt : Cnt) (vs : List XY) (s : State) :
    Host.Outcome State Fault Refusal :=
  execCounted cnt (Instr.header (.outline a rsv rgb cnt vs))
    (fun c m => plotAll c rgb false (outlinePixels vs) m) s

end Sys2Proof.Machine
end

