-- ==== Sys2Proof/Machine/Dispatch.lean ====
section
/-! DEFINITION. One arm per command: which meaning each constructor of `Instr` has (30_encoding.md R95). -/

namespace Sys2Proof.Machine

/-- The execution of one command as one atomic step (30_encoding.md R100 step 5, 10_state.md R20). -/
def exec (i : Instr) (s : State) : Host.Outcome State Fault Refusal :=
  match i with
  | .nop a rsv rgb => Sys2Proof.Machine.execNop a rsv rgb s
  | .point a rsv rgb p => Sys2Proof.Machine.execPoint a rsv rgb p s
  | .line a rsv rgb p1 p2 => Sys2Proof.Machine.execLine a rsv rgb p1 p2 s
  | .poly rsv rgb cnt vs => Sys2Proof.Machine.execPoly rsv rgb cnt vs s
  | .polyA rsv rgb cnt vs => Sys2Proof.Machine.execPolyA rsv rgb cnt vs s
  | .outline a rsv rgb cnt vs => Sys2Proof.Machine.execOutline a rsv rgb cnt vs s
  | .ellipse rsv rgb c r => Sys2Proof.Machine.execEllipse rsv rgb c r s
  | .ellipseA rsv rgb c r => Sys2Proof.Machine.execEllipseA rsv rgb c r s
  | .span rsv rgb xs row => Sys2Proof.Machine.execSpan rsv rgb xs row s
  | .spanA rsv rgb xs row => Sys2Proof.Machine.execSpanA rsv rgb xs row s
  | .clear a rsv rgb => Sys2Proof.Machine.execClear a rsv rgb s
  | .setclip a rsv rgb org size => Sys2Proof.Machine.execSetclip a rsv rgb org size s
  | .illegal9 low => Sys2Proof.Machine.execIllegal9 low s
  | .illegalAB low => Sys2Proof.Machine.execIllegalAB low s
  | .illegalCF low => Sys2Proof.Machine.execIllegalCF low s

end Sys2Proof.Machine
end

