-- ==== Sys2Proof/Machine/Engine.lean ====
section
/-! DEFINITION. The engine's cycle (30_encoding.md R100), the reset input's edges, the choice of a turn, and
the placing of an opcode-table word where the engine takes its next command from. -/

namespace Sys2Proof.Machine

/-- The complete command the latch holds, if it holds exactly one (R100 steps 3 to 5). -/
def latchCommand (s : State) : Option Instr :=
  match decode s.latch with
  | .ok (i, []) => some i
  | _ => none

/-- The engine's turn: nothing while halted or in reset; execute the command in the latch when it is
complete; else move one word from the FIFO; else idle (R100, 60_exceptions.md R234). Either step takes a new
draw for the framebuffer reads while busy. Log entries 3 and 7. -/
def engineTurn (s : State) : Host.Outcome State Fault Refusal :=
  if s.resetIn || s.err then .next s
  else
    match latchCommand s with
    | some i => exec i s.renewReads
    | none =>
      match s.fifo with
      | [] => .next s
      | w :: rest => moveWord w rest s.renewReads

/-- An engine step is enabled (70_reset_and_hazards.md R270). -/
def engineEnabled (s : State) : Bool :=
  !s.resetIn && !s.err && ((latchCommand s).isSome || !s.fifo.isEmpty)

/-- The reset input is asserted: a power-on reset; a CMD write being held stays held
(70_reset_and_hazards.md R260). Log entry 12. -/
def assertReset (s : State) : State := { powerOnReset s with resetIn := true }

/-- One turn. -/
def runTurn (t : Turn) (s : State) : Host.Outcome State Fault Refusal :=
  match t with
  | .engine => engineTurn s
  | .host k => hostTurn k s
  | .resetAssert => .next (assertReset s)
  | .resetRelease => .next { s with resetIn := false }

/-- The turn taken when the schedule gives none: the engine while it can step, then a held master, then
the first master with an access to make (R270: the engine is never starved). DESIGN CHOICE: while reset is
asserted it is the engine's turn, which is then idle, so that no master gets a turn and only the schedule
releases reset. Log entry 6. -/
def defaultTurn (s : State) : Turn :=
  if s.resetIn || engineEnabled s then .engine
  else
    match s.waiting with
    | k :: _ => .host k
    | [] =>
      match s.masters.findIdx? fun m => !m.requests.isEmpty with
      | some k => .host k
      | none => .engine

/-- The first command of an opcode-table word placed whole in the latch, where the engine executes it from,
with the engine running and next to move. Log entry 16. -/
def State.loadCommand (s : State) (nbits w : Nat) : State :=
  let ws := tableWords nbits w
  match decode ws with
  | .ok (_, rest) =>
    { s with
      latch := ws.take (ws.length - rest.length)
      mode := .run
      errCode := 0#4
      errInfo := 0#32
      resetIn := false
      schedule := .engine :: s.schedule }
  | .error _ => s

end Sys2Proof.Machine
end

