-- ==== Sys2Proof/Machine/Step.lean ====
section
/-! DEFINITION. One step of the whole: the turn the schedule gives, or the default turn
(10_state.md R20, 60_exceptions.md R237). -/

namespace Sys2Proof.Machine

/-- One step. -/
def step (s : State) : Host.Outcome State Fault Refusal :=
  match s.schedule with
  | t :: ts => runTurn t { s with schedule := ts }
  | [] => runTurn (defaultTurn s) s

/-- `s` with an opcode-table word's command where the next step executes it. -/
def State.withFetchWord (s : State) (nbits w : Nat) : State := s.loadCommand nbits w

end Sys2Proof.Machine
end

