-- ==== Sys2Proof/WellFormed.lean ====
section
/-! DEFINITION. Which terms of `Instr` stand for a sequence of command words: the vertex list of POLY and
OUTLINE has the length the CNT word gives, and is empty where the count is illegal (30_encoding.md R96,
R98). Every other field is exact by its type. -/

namespace Sys2Proof

/-- The well-formed commands. -/
def Instr.wf : Instr → Bool
  | .nop _ _ _ => true
  | .point _ _ _ _ => true
  | .line _ _ _ _ _ => true
  | .poly _ _ cnt vs => vs.length == cnt.vertexWords
  | .polyA _ _ cnt vs => vs.length == cnt.vertexWords
  | .outline _ _ _ cnt vs => vs.length == cnt.vertexWords
  | .ellipse _ _ _ _ => true
  | .ellipseA _ _ _ _ => true
  | .span _ _ _ _ => true
  | .spanA _ _ _ _ => true
  | .clear _ _ _ => true
  | .setclip _ _ _ _ _ => true
  | .illegal9 _ => true
  | .illegalAB _ => true
  | .illegalCF _ => true

end Sys2Proof
end

