-- ==== Sys2Proof/Safety.lean ====
section
/-! DEFINITION. What counts as a safe run and the terms statements use: the end of a run
(70_reset_and_hazards.md R271), the invariants of the machine, the in-order execution of a list of commands
(20_memory.md R71), and what it is for a command to paint a set of pixels. -/

namespace Sys2Proof

/-! ## Kinds of commands -/

/-- The ILLEGAL rows of the opcode table (30_encoding.md R96). -/
def Instr.isIllegal : Instr → Bool
  | .illegal9 _ => true
  | .illegalAB _ => true
  | .illegalCF _ => true
  | .nop _ _ _ => false
  | .point _ _ _ _ => false
  | .line _ _ _ _ _ => false
  | .poly _ _ _ _ => false
  | .polyA _ _ _ _ => false
  | .outline _ _ _ _ _ => false
  | .ellipse _ _ _ _ => false
  | .ellipseA _ _ _ _ => false
  | .span _ _ _ _ => false
  | .spanA _ _ _ _ => false
  | .clear _ _ _ => false
  | .setclip _ _ _ _ _ => false

/-- The CNT word of POLY and OUTLINE (30_encoding.md R92). -/
def Instr.cnt? : Instr → Option Cnt
  | .poly _ _ cnt _ => some cnt
  | .polyA _ _ cnt _ => some cnt
  | .outline _ _ _ cnt _ => some cnt
  | .nop _ _ _ => none
  | .point _ _ _ _ => none
  | .line _ _ _ _ _ => none
  | .ellipse _ _ _ _ => none
  | .ellipseA _ _ _ _ => none
  | .span _ _ _ _ => none
  | .spanA _ _ _ _ => none
  | .clear _ _ _ => none
  | .setclip _ _ _ _ _ => none
  | .illegal9 _ => none
  | .illegalAB _ => none
  | .illegalCF _ => none

/-- The command raises a command error: an ILLEGAL row, or a vertex count of 0 or above 128
(60_exceptions.md R231). -/
def Instr.raises (i : Instr) : Prop :=
  i.isIllegal = true ∨ ∃ cnt, i.cnt? = some cnt ∧ (cnt.n.toNat = 0 ∨ 128 < cnt.n.toNat)

/-- The same command with every field the hardware ignores at zero: reserved bits, A where it is ignored for
every operand, and the colour of NOP and SETCLIP (30_encoding.md R94, R97). -/
def Instr.clearIgnored : Instr → Instr
  | .nop _ _ _ => .nop false 0#3 ⟨0#8, 0#8, 0#8⟩
  | .point _ _ rgb p => .point false 0#3 rgb p
  | .line _ _ rgb p1 p2 => .line false 0#3 rgb p1 p2
  | .poly _ rgb cnt vs => .poly 0#3 rgb ⟨0#16, cnt.n⟩ vs
  | .polyA _ rgb cnt vs => .polyA 0#3 rgb ⟨0#16, cnt.n⟩ vs
  | .outline _ _ rgb cnt vs => .outline false 0#3 rgb ⟨0#16, cnt.n⟩ vs
  | .ellipse _ rgb c r => .ellipse 0#3 rgb c r
  | .ellipseA _ rgb c r => .ellipseA 0#3 rgb c r
  | .span _ rgb xs row => .span 0#3 rgb xs ⟨0#16, row.y⟩
  | .spanA _ rgb xs row => .spanA 0#3 rgb xs ⟨0#16, row.y⟩
  | .clear _ _ rgb => .clear false 0#3 rgb
  | .setclip _ _ _ org size => .setclip false 0#3 ⟨0#8, 0#8, 0#8⟩ org size
  | .illegal9 low => .illegal9 low
  | .illegalAB low => .illegalAB low
  | .illegalCF low => .illegalCF low

end Sys2Proof

namespace Sys2Proof.Machine

/-! ## The end of a run (R271) -/

/-- Mode RUN, FIFO and latch empty. -/
def State.completed (s : State) : Bool := !s.err && !s.busy

/-- Mode HALTED. -/
def State.faulted (s : State) : Bool := s.err

/-- The engine is quiescent: completed or faulted. -/
def State.quiescent (s : State) : Bool := s.completed || s.faulted

/-- The host has made its last access: no master has one to make, a held one included. -/
def State.hostDone (s : State) : Bool := s.masters.all fun m => m.requests.isEmpty

/-- After the host's last access, with the engine quiescent. -/
def State.ended (s : State) : Bool := s.hostDone && s.quiescent

/-- The run from `s` ends in `t`: `t` is the first state after the host's last access in which the engine is
quiescent. A run that meets a refused access has no end behind it, and a run whose last command stays
incomplete has none. -/
def RunEnds (s t : State) : Prop :=
  ∃ k, Sys2Proof.core.run k s = .next t ∧ t.ended = true ∧
    ∀ j u, j < k → Sys2Proof.core.run j s = .next u → u.ended = false

/-! ## The turn a step takes -/

/-- The turn of the next step: the one the schedule gives, or the default turn (log entry 6). -/
def turnTaken (s : State) : Turn := s.schedule.headD (defaultTurn s)

/-- The next step is a reset: an edge of the reset input, or a master's write of CTRL with SRST
(70_reset_and_hazards.md R260, R262). -/
def TakesReset (s : State) : Prop :=
  turnTaken s = .resetAssert ∨
    ∃ k m v rest, turnTaken s = .host k ∧ s.masters[k]? = some m ∧
      m.requests = .write 0x04#19 .w32 v :: rest ∧ v.toNat % 2 = 1

/-- The next step executes the command in the latch (30_encoding.md R100 step 5). -/
def TakesCommand (s : State) (i : Instr) : Prop :=
  turnTaken s = .engine ∧ s.resetIn = false ∧ s.mode = .run ∧ decode s.latch = .ok (i, [])

/-! ## Invariants -/

/-- The latch is empty, waits for more words, or holds exactly one whole command (10_state.md R33). -/
def latchOk (ws : List Word) : Prop :=
  ws = [] ∨ decode ws = .error .incomplete ∨ ∃ i, decode ws = .ok (i, [])

/-- What every step keeps: the framebuffer is canonical, lies in its window and gives every written pixel
the byte `a` 0xFF (20_memory.md R63, 40_pixel_span.md R124); FIFO and latch are within their capacity
(10_state.md R32, R33); a halted engine holds no word and a code of R230, a running one no error (R26,
R30, 60_exceptions.md R232); reset leaves the engine idle (70_reset_and_hazards.md R260). -/
structure State.Inv (s : State) : Prop where
  fbCanonical : s.fb.wf = true
  fbInWindow : ∀ c ∈ s.fb, Config.fbBase ≤ c.1 ∧ c.1 < Config.fbEnd
  alphaOpaque : ∀ x, (s.fb.read x).isSome = true → s.fb.read (x / 4 * 4 + 3) = some 0xFF#8
  fifoFits : s.fifo.length ≤ Config.fifoDepth
  latchWhole : latchOk s.latch
  latchFits : s.latch.length ≤ Config.latchCapacity
  haltedEmpty : s.mode = .halted → s.fifo = [] ∧ s.latch = [] ∧ (s.errCode = 1#4 ∨ s.errCode = 2#4)
  runNoError : s.mode = .run → s.errCode = 0#4 ∧ s.errInfo = 0#32
  resetQuiet : s.resetIn = true → s.mode = .run ∧ s.fifo = [] ∧ s.latch = []

/-- A CMD write. -/
def BusReq.isCmdWrite : BusReq → Bool
  | .write off .w32 _ => off.toNat == 0x0C
  | _ => false

/-- The list of held CMD writes is in order: each waiting master waits once, and its next access is a CMD
write (10_state.md R27; log entry 8). -/
structure State.HeldInv (s : State) : Prop where
  once : s.waiting.Nodup
  pending : ∀ k ∈ s.waiting, ∃ m req rest,
    s.masters[k]? = some m ∧ m.requests = req :: rest ∧ req.isCmdWrite = true

/-- Master `k` makes access `req` in this step: it is its turn, reset is not asserted, and `req` is its next
access. -/
def HostMakes (s : State) (k : Nat) (req : BusReq) (ts : List Turn) : Prop :=
  s.schedule = .host k :: ts ∧ s.resetIn = false ∧
    ∃ m rest, s.masters[k]? = some m ∧ m.requests = req :: rest

/-- It is the engine's turn, and the engine is running. -/
def EngineRuns (s : State) (ts : List Turn) : Prop :=
  s.schedule = .engine :: ts ∧ s.resetIn = false ∧ s.mode = .run

/-! ## In-order execution (20_memory.md R70, R71) -/

/-- The commands of a list executed in order, one at a time, until one of them halts the engine. -/
def execAll : List Instr → State → Host.Outcome State Fault Refusal
  | [], s => .next s
  | i :: is, s =>
    match exec i s with
    | .next t => if t.err then .next t else execAll is t
    | .fault f => .fault f
    | .refused r => .refused r

/-! ## Pixels and the observation of a run -/

/-- A pixel of the framebuffer (10_state.md R37). -/
structure Pixel where
  r : Byte
  g : Byte
  b : Byte
  a : Byte
  deriving DecidableEq, Repr

/-- `fb_off(sx, sy, c)`, the window offset of byte `c` of a pixel (20_memory.md R63). -/
def fbOff (sx sy c : Nat) : Nat := 0x40000 + (sy * 256 + sx) * 4 + c

/-- `FB[sx, sy]` (00_scope.md R9). -/
def State.pixel (s : State) (sx sy : Nat) : Pixel :=
  { r := byteAt s.fbDraw s.fb (fbOff sx sy 0)
    g := byteAt s.fbDraw s.fb (fbOff sx sy 1)
    b := byteAt s.fbDraw s.fb (fbOff sx sy 2)
    a := byteAt s.fbDraw s.fb (fbOff sx sy 3) }

/-- What is observed of a completed run: the framebuffer row by row, the clipping registers and STATUS
(70_reset_and_hazards.md R271). -/
structure Observation where
  pixels : List Pixel
  clip : Clip
  status : Word
  deriving DecidableEq, Repr

/-- The observation at the end of a run; none where the run has not ended, or has faulted (R271). -/
def State.observe (s : State) : Option Observation :=
  if s.ended && s.completed then
    some {
      pixels := (List.range Config.screenH).flatMap fun sy =>
        (List.range Config.screenW).map fun sx => s.pixel sx sy
      clip := s.clip
      status := s.statusWord }
  else none

/-- The clip point that names screen pixel `(sx, sy)` (00_scope.md R10). -/
def State.clipPoint (s : State) (sx sy : Nat) : Point :=
  ((sx : Int) - s.clip.crx.toInt, (sy : Int) - s.clip.cry.toInt)

/-- A clip point is in the clipping rectangle (40_pixel_span.md R120). -/
abbrev State.insideClip (s : State) (p : Point) : Prop :=
  0 ≤ p.1 ∧ p.1 < s.clip.crw.toNat ∧ 0 ≤ p.2 ∧ p.2 < s.clip.crh.toNat

/-- The pixel of an opaque write (40_pixel_span.md R122, R124). -/
def opaquePixel (rgb : Rgb) (_old : Pixel) : Pixel := ⟨rgb.r, rgb.g, rgb.b, 0xFF#8⟩

/-- The pixel of a blended write: each channel the floor of the mean (40_pixel_span.md R122 to R124). -/
def blendedPixel (rgb : Rgb) (old : Pixel) : Pixel :=
  ⟨BitVec.ofNat 8 ((old.r.toNat + rgb.r.toNat) / 2), BitVec.ofNat 8 ((old.g.toNat + rgb.g.toNat) / 2),
    BitVec.ofNat 8 ((old.b.toNat + rgb.b.toNat) / 2), 0xFF#8⟩

/-- Everything but the framebuffer's pixels after a drawing command of `words` words: the latch is empty,
the command position has advanced, every other field and every byte outside the framebuffer window is as
before. -/
def DrawFrame (words : Nat) (s t : State) : Prop :=
  t = { s with fb := t.fb, latch := [], cmdPos := s.cmdPos + words } ∧
    ∀ x, x < Config.fbBase ∨ Config.fbEnd ≤ x → t.fb.read x = s.fb.read x

/-- Command `i` of `words` words completes in `s`, and changes exactly the pixels whose clip point is in
the clipping rectangle and in `covered`, each from its old value by `new`. -/
def Paints (i : Instr) (words : Nat) (s : State) (covered : Point → Prop) (new : Pixel → Pixel) : Prop :=
  ∃ t, exec i s = .next t ∧ DrawFrame words s t ∧
    ∀ sx sy, sx < 256 → sy < 224 →
      ((s.insideClip (s.clipPoint sx sy) ∧ covered (s.clipPoint sx sy)) →
        t.pixel sx sy = new (s.pixel sx sy)) ∧
      (¬(s.insideClip (s.clipPoint sx sy) ∧ covered (s.clipPoint sx sy)) →
        t.pixel sx sy = s.pixel sx sy)

/-- A clip point lies on a span (00_scope.md R11). -/
def Span.covers (sp : Span) (p : Point) : Prop := p.2 = sp.y ∧ sp.l ≤ p.1 ∧ p.1 ≤ sp.r

/-- Vertex `k` as a clip point (42_polygon.md R160). -/
def vertexPoint (vs : List XY) (k : Nat) : Point :=
  ((vs.getD k ⟨0, 0⟩).x.toInt, (vs.getD k ⟨0, 0⟩).y.toInt)

end Sys2Proof.Machine
end

