-- ==== Sys2Proof/Certificates/Slice0/Obligations.lean ====
section
/-! DEFINITION. The statements about FBRAST, from the numbered rules of its spec. A statement about every
state holds in states no run reaches too; where only unreachable states would break it, the invariant
`State.Inv` (or `State.HeldInv`) is its premise, and that every step keeps the invariant is a statement of
its own. No statement rests on a value of a free value (log entries 1 to 4). -/

open Sys2Proof Sys2Proof.Machine

/-! ## Encoding (30_encoding.md) -/

/-- Decoding the words of a well-formed command, whatever words follow, gives the command back with every
operand, and the words that follow (R90 to R98). -/
def Obligations.DecodeOfEncode : Prop :=
  ∀ (i : Instr) (rest : List Word), i.wf = true → decode (encode i ++ rest) = .ok (i, rest)

/-- Whatever the decoder reads is well formed, and its encoding is the very words read: no bit of a word is
dropped and no two commands share words (R90 to R99). -/
def Obligations.EncodeOfDecode : Prop :=
  ∀ (ws rest : List Word) (i : Instr), decode ws = .ok (i, rest) → i.wf = true ∧ encode i ++ rest = ws

/-- Decoding is total: with 129 words behind it every header decodes, to an ILLEGAL row exactly when its
opcode is 9 or more; and every CNT word gives a count from 1 to 128, whose vertices are read, or makes the
command one that raises an error (R99, R96). -/
def Obligations.EveryHeaderDecodes : Prop :=
  ∀ (h : Word) (ws : List Word), 129 ≤ ws.length →
    ∃ i rest, decode (h :: ws) = .ok (i, rest) ∧ i.header = h ∧
      (i.isIllegal = true ↔ 9 ≤ h.toNat / 2 ^ 28) ∧
      ((∃ cnt, i.cnt? = some cnt) ↔ h.toNat / 2 ^ 28 = 3 ∨ h.toNat / 2 ^ 28 = 4) ∧
      ∀ cnt w1 tail, i.cnt? = some cnt → ws = w1 :: tail →
        cnt.n.toNat = w1.toNat % 65536 ∧
          ((1 ≤ cnt.n.toNat ∧ cnt.n.toNat ≤ 128 ∧ i.words = 2 + cnt.n.toNat) ∨
            ((cnt.n.toNat = 0 ∨ 128 < cnt.n.toNat) ∧ i.raises))

/-- The length of a command, by its opcode and, for POLY and OUTLINE with a legal count, its CNT word; an
illegal count consumes the CNT word and no vertex (R98, 60_exceptions.md R231). -/
def Obligations.CommandLengths : Prop :=
  ∀ (h : Word) (ws rest : List Word) (i : Instr), decode (h :: ws) = .ok (i, rest) →
    (h :: ws).length - rest.length =
        (match h.toNat / 2 ^ 28 with
          | 0 => 1
          | 7 => 1
          | 1 => 2
          | 2 => 3
          | 5 => 3
          | 6 => 3
          | 8 => 3
          | 3 => 2 + (if 1 ≤ ws.head!.toNat % 65536 ∧ ws.head!.toNat % 65536 ≤ 128 then
                ws.head!.toNat % 65536 else 0)
          | 4 => 2 + (if 1 ≤ ws.head!.toNat % 65536 ∧ ws.head!.toNat % 65536 ≤ 128 then
                ws.head!.toNat % 65536 else 0)
          | _ => 1) ∧
      rest = (h :: ws).drop i.words

/-- Where the header's fields and the operand words' halves stand, read off the numbers the words are: the
alpha bit 27, the reserved bits, the three channels, the high and the low half (R91, R92). -/
def Obligations.FieldsStandWhereTheSpecPutsThem : Prop :=
  ∀ (h w1 w2 : Word),
    (h.toNat / 2 ^ 28 = 2 → ∃ a rsv rgb p1 p2, decode [h, w1, w2] = .ok (.line a rsv rgb p1 p2, []) ∧
      (a = true ↔ h.toNat / 2 ^ 27 % 2 = 1) ∧ rsv.toNat = h.toNat / 2 ^ 24 % 8 ∧
      rgb.r.toNat = h.toNat / 2 ^ 16 % 256 ∧ rgb.g.toNat = h.toNat / 2 ^ 8 % 256 ∧
      rgb.b.toNat = h.toNat % 256 ∧ p1.x.toNat = w1.toNat / 65536 ∧ p1.y.toNat = w1.toNat % 65536 ∧
      p2.x.toNat = w2.toNat / 65536 ∧ p2.y.toNat = w2.toNat % 65536) ∧
    (h.toNat / 2 ^ 27 = 13 → ∃ rsv rgb xs row, decode [h, w1, w2] = .ok (.spanA rsv rgb xs row, []) ∧
      xs.x1.toNat = w1.toNat / 65536 ∧ xs.x2.toNat = w1.toNat % 65536 ∧
      row.rsv.toNat = w2.toNat / 65536 ∧ row.y.toNat = w2.toNat % 65536) ∧
    (h.toNat / 2 ^ 28 = 8 → ∃ a rsv rgb org size,
      decode [h, w1, w2] = .ok (.setclip a rsv rgb org size, []) ∧
      org.x.toNat = w1.toNat / 65536 ∧ org.y.toNat = w1.toNat % 65536 ∧
      size.w.toNat = w2.toNat / 65536 ∧ size.h.toNat = w2.toNat % 65536)

/-- Words written out from the spec's programs decode to their commands (95_test_vectors.md L3). -/
def Obligations.ProgramWordsOfTheSpecDecode : Prop :=
  decode [0x70204060#32] = .ok (.clear false 0#3 ⟨0x20#8, 0x40#8, 0x60#8⟩, []) ∧
  decode [0x80000000#32, 0x000A0014#32, 0x00100008#32] =
    .ok (.setclip false 0#3 ⟨0#8, 0#8, 0#8⟩ ⟨10#16, 20#16⟩ ⟨16#16, 8#16⟩, []) ∧
  decode [0x30FF0000#32, 3#32, 0x00020001#32, 0x00090005#32, 0x00040008#32] =
    .ok (.poly 0#3 ⟨0xFF#8, 0#8, 0#8⟩ ⟨0#16, 3#16⟩ [⟨2#16, 1#16⟩, ⟨9#16, 5#16⟩, ⟨4#16, 8#16⟩], []) ∧
  decode [0x58FF0000#32, 0x000A000A#32, 0x00030002#32] =
    .ok (.ellipseA 0#3 ⟨0xFF#8, 0#8, 0#8⟩ ⟨10#16, 10#16⟩ ⟨3#16, 2#16⟩, []) ∧
  decode [0x9ABCDEF0#32] = .ok (.illegal9 0xABCDEF0#28, [])

/-- Fields the hardware ignores do not matter: a command executes exactly as the same command with them
zero; one that raises an error differs only in the header ERR_INFO records (R97, R94). -/
def Obligations.IgnoredFieldsDoNotMatter : Prop :=
  (∀ (i : Instr) (s : State), ¬i.raises → exec i s = exec i.clearIgnored s) ∧
  (∀ (i : Instr) (s : State), i.raises → ∃ t, exec i.clearIgnored s = .next t ∧
    exec i s = .next { t with errInfo := i.header }) ∧
  ∀ (rsv : BitVec 3) (rgb : Rgb) (cnt : Cnt) (vs : List XY) (s : State),
    (vs.length = 1 ∨ vs.length = 2) → cnt.n.toNat = vs.length →
      exec (.polyA rsv rgb cnt vs) s = exec (.poly rsv rgb cnt vs) s

/-! ## The engine's cycle (30_encoding.md R100) -/

/-- A step runs the decoded command: on the engine's turn, given by the schedule or by default (the default
turn is the model's choice, log entry 6), a complete command in the latch is executed, and nothing is added
around it but a new draw for the framebuffer reads while busy (log entry 3). -/
def Obligations.StepRunsTheLatchedCommand : Prop :=
  ∀ (s : State) (i : Instr), decode s.latch = .ok (i, []) → s.resetIn = false → s.mode = .run →
    (∀ ts, s.schedule = .engine :: ts →
      step s = exec i { s with schedule := ts, readDraw := s.readDraw + 1 }) ∧
    (s.schedule = [] → step s = exec i { s with readDraw := s.readDraw + 1 })

/-- On the engine's turn, while the latch holds no complete command, the head word of the FIFO moves to the
tail of the latch and nothing else of the machine changes; with an empty FIFO there is no step (R100 steps 1
and 2 as log entry 7 reads them; the draw for reads while busy is the model's, log entry 3). -/
def Obligations.EngineMovesOneWord : Prop :=
  ∀ (s : State) (ts : List Turn), EngineRuns s ts → (∀ i, decode s.latch ≠ .ok (i, [])) →
    (∀ w rest, s.fifo = w :: rest → s.latch.length < 130 →
      step s = .next { s with
        schedule := ts, fifo := rest, latch := s.latch ++ [w], readDraw := s.readDraw + 1 }) ∧
    (s.fifo = [] → step s = .next { s with schedule := ts })

/-- The engine is never starved: when the schedule gives no turn, an engine step that is enabled is the one
taken, and it makes the FIFO shorter or empties the latch (70_reset_and_hazards.md R270). The default turn is the model's choice (log entry 6). -/
def Obligations.EngineGoesFirstByDefault : Prop :=
  ∀ (s : State), s.Inv → s.schedule = [] → s.resetIn = false → s.mode = .run →
    (s.fifo ≠ [] ∨ ∃ i, decode s.latch = .ok (i, [])) →
    turnTaken s = .engine ∧
      ∃ t, step s = .next t ∧ (t.fifo.length < s.fifo.length ∨ t.latch = [] ∧ s.latch ≠ [])

/-- The in-order result: from an idle engine with the words of a list of well-formed commands in the FIFO
and no turn in the schedule, the engine reaches a quiescent state, and it is the one the commands executed
one at a time, in order, give, up to the first that raises an error (20_memory.md R70, R71,
60_exceptions.md R233). Where no master has an access left to make, it is the end of the run
(70_reset_and_hazards.md R271). That the engine is the one to move is the model's choice of a default turn
(log entry 6). -/
def Obligations.EngineRefinesInOrderExecution : Prop :=
  ∀ (is : List Instr) (s : State), (∀ i ∈ is, i.wf = true) → s.mode = .run → s.resetIn = false →
    s.schedule = [] → s.latch = [] → s.fifo = is.flatMap encode →
    ∃ k t, Sys2Proof.core.run k s = .next t ∧ t.quiescent = true ∧
      execAll is { s with fifo := [] } = .next { t with readDraw := s.readDraw } ∧
      ((∀ m ∈ s.masters, m.requests = []) → RunEnds s t)

/-! ## Invariants -/

/-- Every step keeps the invariant of the machine. -/
def Obligations.StepKeepsInvariant : Prop :=
  ∀ (s t : State), s.Inv → step s = .next t → t.Inv

/-- The machine after reset meets the invariant. -/
def Obligations.ResetMeetsInvariant : Prop := State.reset.Inv ∧ State.reset.HeldInv

/-- A held CMD write is not lost: in every step each master whose write is held goes on waiting with its
accesses as they are, or that write completes, appended to the FIFO in RUN and discarded when halted
(10_state.md R27). How a write is held is the model's reading (log entry 8), and that it stays held in a step
that asserts the reset input, halts the engine, or resets a halted one, is the model's choice (log entries 12
and 19). That each waits once, with a CMD write as its next access, is an invariant. -/
def Obligations.StepKeepsHeldWrites : Prop :=
  ∀ (s t : State), s.HeldInv → step s = .next t →
    t.HeldInv ∧
    ∀ k m req rest, k ∈ s.waiting → s.masters[k]? = some m → m.requests = req :: rest →
      (k ∈ t.waiting ∧ t.masters[k]? = some m) ∨
      (k ∉ t.waiting ∧ t.masters[k]? = some ⟨rest, .written :: m.responses⟩ ∧
        ((s.mode = .run ∧ ∃ v, req = .write 0x0C#19 .w32 v ∧ t.fifo = s.fifo ++ [v]) ∨
          (s.mode = .halted ∧ t.fifo = s.fifo)))

/-- The latch can always take the next word, so no step faults (70_reset_and_hazards.md R268). -/
def Obligations.NoStepFaults : Prop :=
  ∀ (s : State) (f : Fault), s.Inv → step s ≠ .fault f

/-- Only SETCLIP and a reset write the clipping registers: a step leaves them as they are, or is a reset
that gives them their reset values, or executes a SETCLIP that gives them its operands (10_state.md R31). -/
def Obligations.OnlySetclipAndResetWriteTheClip : Prop :=
  ∀ (s t : State), step s = .next t →
    t.clip = s.clip ∨ (TakesReset s ∧ t.clip = Clip.reset) ∨
      ∃ a rsv rgb org size, TakesCommand s (.setclip a rsv rgb org size) ∧
        t.clip = ⟨org.x, org.y, size.w, size.h⟩

/-- Only an executed command writes the framebuffer: any other step leaves it as it is, or is a reset that
makes all of it unspecified by a fresh draw; no host access writes it (10_state.md R37, 20_memory.md R64;
the draw numbers are the model's, log entries 2 and 4). -/
def Obligations.OnlyCommandsWriteTheFramebuffer : Prop :=
  ∀ (s t : State), step s = .next t →
    (t.fb = s.fb ∧ t.fbDraw = s.fbDraw) ∨
    (TakesReset s ∧ t.fb = [] ∧ t.fbDraw = s.fbDraw + 1) ∨
    (t.fbDraw = s.fbDraw ∧ ∃ i, TakesCommand s i)

/-! ## Command errors (60_exceptions.md) -/

/-- Taking the error: an ILLEGAL command, and POLY, POLY.A and OUTLINE with a count of 0 or above 128, halt
the engine with the code and the header, empty FIFO and latch, and change nothing else; BUSY is then 0, and
the irq output is the enable of the error interrupt (R232). -/
def Obligations.CommandErrorsHaltTheEngine : Prop :=
  ∀ (s : State),
    let halts := fun (i : Instr) (code : BitVec 4) =>
      ∃ t, exec i s = .next t ∧
        t = { s with mode := .halted, errCode := code, errInfo := i.header, fifo := [], latch := [] } ∧
        t.busy = false ∧ t.irq = s.errIE
    (∀ low, halts (.illegal9 low) 1#4) ∧ (∀ low, halts (.illegalAB low) 1#4) ∧
    (∀ low, halts (.illegalCF low) 1#4) ∧
    ∀ (a : Bool) (rsv : BitVec 3) (rgb : Rgb) (cnt : Cnt) (vs : List XY),
      (cnt.n.toNat = 0 ∨ 128 < cnt.n.toNat) →
        halts (.poly rsv rgb cnt vs) 2#4 ∧ halts (.polyA rsv rgb cnt vs) 2#4 ∧
        halts (.outline a rsv rgb cnt vs) 2#4

/-- Where errors are detected: an opcode of 9 or more when the header is alone in the latch, a bad vertex
count when header and CNT word are, each recording the header; nothing else raises an error, no command
and no host access (R231; the draw for reads while busy is the model's, log entry 3). -/
def Obligations.ErrorsAreDetectedThereAndNowhereElse : Prop :=
  (∀ (s : State) (ts : List Turn) (h : Word), EngineRuns s ts → s.latch = [h] →
    9 ≤ h.toNat / 2 ^ 28 →
    step s = .next { s with
      schedule := ts, mode := .halted, errCode := 1#4, errInfo := h, fifo := [], latch := [],
      readDraw := s.readDraw + 1 }) ∧
  (∀ (s : State) (ts : List Turn) (h w1 : Word), EngineRuns s ts → s.latch = [h, w1] →
    (h.toNat / 2 ^ 28 = 3 ∨ h.toNat / 2 ^ 28 = 4) →
    (w1.toNat % 65536 = 0 ∨ 128 < w1.toNat % 65536) →
    step s = .next { s with
      schedule := ts, mode := .halted, errCode := 2#4, errInfo := h, fifo := [], latch := [],
      readDraw := s.readDraw + 1 }) ∧
  (∀ (i : Instr) (s t : State), exec i s = .next t → s.mode = .run → t.mode = .halted → i.raises) ∧
  (∀ (k : Nat) (s t : State), hostTurn k s = .next t → t.mode = .halted → s.mode = .halted)

/-- While halted, with nothing in FIFO and latch: the engine takes no step; a CMD write is discarded and
completes; STATUS reads 2, the code and the irq level, and ERR_INFO the header; a framebuffer read returns
the framebuffer; a CTRL write without SRST stores the enables (R234; the draw for reads while busy is the
model's, log entry 3). -/
def Obligations.WhileHalted : Prop :=
  ∀ (s : State) (ts : List Turn), s.mode = .halted → s.fifo = [] → s.latch = [] →
    (s.schedule = .engine :: ts → step s = .next { s with schedule := ts }) ∧
    (∀ k v, HostMakes s k (.write 0x0C#19 .w32 v) ts → ∃ t, step s = .next t ∧
      t = { ({ s with schedule := ts }.complete k .written) with waiting := t.waiting }) ∧
    (readValue s 0x08#19 .w32).toNat =
      2 + 16 * s.errCode.toNat + (if s.errIE = true then 4 else 0) ∧
    readValue s 0x18#19 .w32 = s.errInfo ∧
    (∀ off : Offset, Config.fbBase ≤ off.toNat → off.toNat < Config.fbEnd →
      readValue s off .w8 = 0#24 ++ byteAt s.fbDraw s.fb off.toNat) ∧
    (∀ k v, HostMakes s k (.write 0x04#19 .w32 v) ts → v.getLsbD 0 = false →
      step s = .next ({ s with
        schedule := ts, errIE := v.getLsbD 1, idleIE := v.getLsbD 2,
        readDraw := s.readDraw + 1 }.complete k .written))

/-- The only way out of HALTED is a reset: a step from a halted state leaves mode, code, header, clip and
framebuffer as they are, or is a reset that gives every one of them its reset value, and the framebuffer
survives a soft reset taken while halted (R235). -/
def Obligations.OnlyAResetLeavesHalted : Prop :=
  ∀ (s t : State), s.Inv → s.mode = .halted → step s = .next t →
    (t.mode = .halted ∧ t.errCode = s.errCode ∧ t.errInfo = s.errInfo ∧ t.clip = s.clip ∧
      t.fb = s.fb ∧ t.fbDraw = s.fbDraw ∧ t.fifo = [] ∧ t.latch = []) ∨
    (TakesReset s ∧ t.mode = .run ∧ t.errCode = 0#4 ∧ t.errInfo = 0#32 ∧ t.clip = Clip.reset ∧
      t.errIE = false ∧ t.idleIE = false ∧ t.fifo = [] ∧ t.latch = [] ∧
      (t.resetIn = false → t.fb = s.fb ∧ t.fbDraw = s.fbDraw))

/-! ## Status, interrupt and registers (10_state.md) -/

/-- The bits of STATUS (R26); the level of `irq` (R36); and that the two sources of `irq` never hold together
(60_exceptions.md R237). -/
def Obligations.StatusBitsAndIrqLevel : Prop :=
  ∀ (s : State),
    (readValue s 0x08#19 .w32).toNat =
      (if s.fifo = [] ∧ s.latch = [] then 0 else 1) + (if s.mode = .halted then 2 else 0) +
        (if s.irq = true then 4 else 0) + (if s.mode = .halted then 16 * s.errCode.toNat else 0) ∧
    (s.irq = true ↔ (s.mode = .halted ∧ s.errIE = true) ∨
      (s.mode = .run ∧ s.fifo = [] ∧ s.latch = [] ∧ s.idleIE = true)) ∧
    ¬((s.err && s.errIE) = true ∧ (!s.err && !s.busy && s.idleIE) = true)

/-- What each register offset reads: ID, CTRL, STATUS, CMD, CLIP_ORG, CLIP_SIZE, ERR_INFO, and 0 at every
reserved offset (20_memory.md R61). -/
def Obligations.RegisterMapReads : Prop :=
  ∀ (s : State),
    readValue s 0x00#19 .w32 = 0x52415331#32 ∧
    (readValue s 0x04#19 .w32).toNat =
      (if s.errIE = true then 2 else 0) + (if s.idleIE = true then 4 else 0) ∧
    readValue s 0x08#19 .w32 = s.statusWord ∧
    readValue s 0x0C#19 .w32 = 0#32 ∧
    (readValue s 0x10#19 .w32).toNat = s.clip.crx.toNat * 65536 + s.clip.cry.toNat ∧
    (readValue s 0x14#19 .w32).toNat = s.clip.crw.toNat * 65536 + s.clip.crh.toNat ∧
    readValue s 0x18#19 .w32 = (if s.mode = .halted then s.errInfo else 0#32) ∧
    (∀ off : Offset, 0x1C ≤ off.toNat → off.toNat < 0x40000 → readValue s off .w32 = 0#32) ∧
    (∀ (off : Offset) (w : Width), 0x78000 ≤ off.toNat → readValue s off w = 0#32)

/-- A write of CTRL without SRST stores bits [2:1] and no other, and takes effect on `irq` at once; CTRL
then reads back those two bits (R25; the draw for reads while busy is the model's, log entry 3). -/
def Obligations.CtrlWriteStoresTheEnables : Prop :=
  ∀ (s : State) (k : Nat) (v : Word) (ts : List Turn), HostMakes s k (.write 0x04#19 .w32 v) ts →
    v.toNat % 2 = 0 →
    ∃ t, step s = .next t ∧
      t = { ({ s with schedule := ts }.complete k .written) with
        errIE := v.getLsbD 1, idleIE := v.getLsbD 2, readDraw := s.readDraw + 1 } ∧
      (readValue t 0x04#19 .w32).toNat = v.toNat % 8

/-! ## The host window (20_memory.md) -/

/-- A supported read completes: its master gets the value as its newest answer and goes on to its next
access, and nothing else changes; so every read gives after it what it would have given before it (R67). -/
def Obligations.ReadsAnswerAndChangeNothingElse : Prop :=
  ∀ (s : State) (k : Nat) (off : Offset) (w : Width) (ts : List Turn), HostMakes s k (.read off w) ts →
    supported off w = true →
    ∃ t m, step s = .next t ∧ s.masters[k]? = some m ∧
      t.masters[k]? = some ⟨m.requests.tail, .data (readValue s off w) :: m.responses⟩ ∧
      (∀ j, j ≠ k → t.masters[j]? = s.masters[j]?) ∧
      t = { s with schedule := ts, masters := t.masters } ∧
      ∀ off' w', readValue t off' w' = readValue s off' w'

/-- When BUSY is 0, an aligned 32-bit read at `fb_off(sx, sy, 0)` returns `a ++ b ++ g ++ r` (R63), and
narrower reads see the same bytes (R66). -/
def Obligations.FramebufferReadsAreLittleEndian : Prop :=
  ∀ (s : State) (sx sy : Nat), s.busy = false → sx < 256 → sy < 224 →
    let off := fun c : Nat => BitVec.ofNat 19 (0x40000 + (sy * 256 + sx) * 4 + c)
    let p := s.pixel sx sy
    (readValue s (off 0) .w32).toNat =
      p.a.toNat * 2 ^ 24 + p.b.toNat * 2 ^ 16 + p.g.toNat * 2 ^ 8 + p.r.toNat ∧
    (readValue s (off 0) .w16).toNat = p.g.toNat * 2 ^ 8 + p.r.toNat ∧
    (readValue s (off 2) .w16).toNat = p.a.toNat * 2 ^ 8 + p.b.toNat ∧
    (readValue s (off 0) .w8).toNat = p.r.toNat ∧ (readValue s (off 1) .w8).toNat = p.g.toNat ∧
    (readValue s (off 2) .w8).toNat = p.b.toNat ∧ (readValue s (off 3) .w8).toNat = p.a.toNat

/-- A framebuffer read while BUSY is 1 returns the free bytes of the current draw, whatever the framebuffer
holds, written or not; and the draw is a new one after every turn of the engine that moves a word or executes
a command (R72; which steps take a new draw is the model's, log entry 3). -/
def Obligations.BusyFramebufferReadsAreFree : Prop :=
  ∀ (s : State) (off : Offset), s.busy = true →
    Config.fbBase ≤ off.toNat → off.toNat < Config.fbEnd →
    let b := fun k => (Config.busyByte s.readDraw (off.toNat + k)).toNat
    (readValue s off .w8).toNat = b 0 ∧
    (readValue s off .w16).toNat = b 1 * 2 ^ 8 + b 0 ∧
    (readValue s off .w32).toNat = b 3 * 2 ^ 24 + b 2 * 2 ^ 16 + b 1 * 2 ^ 8 + b 0 ∧
    (∀ m d w, readValue { s with fb := m, fbDraw := d } off w = readValue s off w) ∧
    ∀ t, turnTaken s = .engine → step s = .next t → t.fifo ≠ s.fifo ∨ t.latch ≠ s.latch →
      t.readDraw = s.readDraw + 1

/-- The accesses the block does not support are refused, and no other access is: below 0x40000 all but
aligned 32-bit ones, above it all that are not aligned to their size (R65, R66; writes of the framebuffer
window follow 92_eei_decisions.md D17, log entry 11). -/
def Obligations.UnsupportedAccessesAreRefused : Prop :=
  ∀ (s : State) (k : Nat) (ts : List Turn) (off : Offset) (w : Width) (v : Word),
    (HostMakes s k (.read off w) ts ∨ HostMakes s k (.write off w v) ts) →
    ((step s = .refused .unsupportedAccess ↔
      (off.toNat < 0x40000 ∧ (w ≠ .w32 ∨ off.toNat % 4 ≠ 0)) ∨
      (0x40000 ≤ off.toNat ∧ off.toNat % w.bytes ≠ 0)) ∧
    (step s = .refused .unsupportedAccess ∨ ∃ t, step s = .next t))

/-- A supported write to any offset but CTRL and CMD is ignored: it completes and changes nothing else, and
no read tells it (R61, R64, R67). -/
def Obligations.OtherWritesAreIgnored : Prop :=
  ∀ (s : State) (k : Nat) (off : Offset) (w : Width) (v : Word) (ts : List Turn),
    HostMakes s k (.write off w v) ts → supported off w = true → off ≠ 0x04#19 → off ≠ 0x0C#19 →
    step s = .next ({ s with schedule := ts }.complete k .written) ∧
    ∀ off' w', readValue ({ s with schedule := ts }.complete k .written) off' w' = readValue s off' w'

/-- A CMD write: when the engine runs and the FIFO has room, appended to its tail and completed, if no write
is held or this one has been held longest; when the FIFO is full, or another write has been held longer,
held, with no word moved and no access completed; when halted, discarded (10_state.md R27; the list of held
writes and its order are the model's reading, log entry 8, and the draw for reads while busy is the model's,
log entry 3). -/
def Obligations.CmdWriteCases : Prop :=
  ∀ (s : State) (k : Nat) (v : Word) (ts : List Turn), HostMakes s k (.write 0x0C#19 .w32 v) ts →
    (s.mode = .run → s.fifo.length < Config.fifoDepth → ∀ tl, (s.waiting = [] ∧ tl = []) ∨
        s.waiting = k :: tl →
      ∃ t, step s = .next t ∧ t.busy = true ∧
        t = { ({ s with schedule := ts }.complete k .written) with
          fifo := s.fifo ++ [v], waiting := tl, readDraw := s.readDraw + 1 }) ∧
    (s.mode = .run → (Config.fifoDepth ≤ s.fifo.length ∨ ∃ j tl, s.waiting = j :: tl ∧ j ≠ k) →
      (k ∈ s.waiting → step s = .next { s with schedule := ts }) ∧
      (k ∉ s.waiting → step s = .next { s with
        schedule := ts, waiting := s.waiting ++ [k], readDraw := s.readDraw + 1 })) ∧
    (s.mode = .halted → ∃ t, step s = .next t ∧
      t = { ({ s with schedule := ts }.complete k .written) with waiting := s.waiting.erase k })

/-! ## Reset (10_state.md R39, 70_reset_and_hazards.md) -/

/-- The reset values: after power-on reset, after the reset input is asserted, and after a soft reset,
every register, the engine and the command stream hold them (R39). -/
def Obligations.ResetValues : Prop :=
  let atReset := fun (s : State) =>
    s.errIE = false ∧ s.idleIE = false ∧ s.mode = .run ∧ s.errCode = 0#4 ∧ s.errInfo = 0#32 ∧
    s.clip.crx = 0#16 ∧ s.clip.cry = 0#16 ∧ s.clip.crw.toNat = 256 ∧ s.clip.crh.toNat = 224 ∧
    s.fifo = [] ∧ s.latch = [] ∧ s.irq = false ∧ readValue s 0x04#19 .w32 = 0#32 ∧
    readValue s 0x08#19 .w32 = 0#32 ∧ readValue s 0x10#19 .w32 = 0#32 ∧
    readValue s 0x14#19 .w32 = 0x010000E0#32 ∧ readValue s 0x18#19 .w32 = 0#32 ∧
    readValue s 0x00#19 .w32 = 0x52415331#32
  atReset State.reset ∧ State.reset.fb = [] ∧
  ∀ s, atReset (softReset s) ∧ atReset (powerOnReset s) ∧ (powerOnReset s).fb = []

/-- Asserting the reset input, whatever is in progress: every piece of the block's state takes its power-on
value, the framebuffer unspecified by a fresh draw, and the masters' accesses stay to be made, a held one
held; while it is asserted the engine takes no step, an access that is issued is refused, and a held one goes
on being held; releasing it changes nothing else (R260; the events and the draw numbers are the model's, log
entries 2, 4 and 12, and so is the number of the command position, log entry 13). -/
def Obligations.ResetInput : Prop :=
  ∀ (s : State) (ts : List Turn),
    (s.schedule = .resetAssert :: ts →
      step s = .next { State.reset with
        resetIn := true, masters := s.masters, waiting := s.waiting, schedule := ts,
        fbDraw := s.fbDraw + 1, readDraw := s.readDraw }) ∧
    (s.schedule = .engine :: ts → s.resetIn = true → step s = .next { s with schedule := ts }) ∧
    (∀ k m req rest, s.schedule = .host k :: ts → s.resetIn = true → s.masters[k]? = some m →
      m.requests = req :: rest →
      (k ∉ s.waiting → step s = .refused .accessDuringReset) ∧
      (k ∈ s.waiting → step s = .next { s with schedule := ts })) ∧
    (s.schedule = .resetRelease :: ts → step s = .next { s with schedule := ts, resetIn := false })

/-- A soft reset by a write of CTRL with bit 0 set: FIFO and latch empty, RUN with no error, the reset clip,
CTRL 0 whatever bits [2:1] were written; the framebuffer is unchanged if BUSY was 0, else every byte is
unspecified by a fresh draw (R262, R263; the draw numbers and the number of the command position are the
model's, log entries 2, 3, 4 and 13). -/
def Obligations.SoftResetByCtrl : Prop :=
  ∀ (s : State) (k : Nat) (v : Word) (ts : List Turn), HostMakes s k (.write 0x04#19 .w32 v) ts →
    v.toNat % 2 = 1 →
    step s = .next { ({ s with schedule := ts }.complete k .written) with
      errIE := false, idleIE := false, clip := ⟨0#16, 0#16, 256#16, 224#16⟩, mode := .run,
      errCode := 0#4, errInfo := 0#32, fifo := [], latch := [], cmdPos := 0,
      fb := if s.busy = true then [] else s.fb,
      fbDraw := if s.busy = true then s.fbDraw + 1 else s.fbDraw,
      readDraw := s.readDraw + 1 }

/-- A CMD write held on a full FIFO when another master writes SRST completes after the reset, into the
now empty FIFO, as the first word of the new stream (R262; when it completes is the model's reading, log
entry 8, and that it does so where an error had emptied the FIFO before is the model's choice, log
entry 19). -/
def Obligations.HeldWriteStartsTheNewStream : Prop :=
  ∀ (s : State) (j k : Nat) (v w : Word) (mk : Master) (reqs : List BusReq) (ts : List Turn) (tl : List Nat),
    HostMakes s j (.write 0x04#19 .w32 v) (.host k :: ts) → v.toNat % 2 = 1 → j ≠ k →
    s.waiting = k :: tl → s.masters[k]? = some mk → mk.requests = .write 0x0C#19 .w32 w :: reqs →
    ∃ t u, step s = .next t ∧ step t = .next u ∧ t.fifo = [] ∧ u.fifo = [w] ∧ u.latch = [] ∧
      u.masters[k]? = some ⟨reqs, .written :: mk.responses⟩ ∧ u.waiting = tl

/-! ## Pixels and spans (40_pixel_span.md) -/

/-- The blend is the floor of the mean of the two channels; the mean of a channel with itself is itself,
and the order does not matter (R123). -/
def Obligations.BlendIsFloorOfMean : Prop :=
  ∀ p q : Byte, (avg p q).toNat = (p.toNat + q.toNat) / 2 ∧ avg p p = p ∧ avg p q = avg q p

/-- SPAN and SPAN.A paint exactly the pixels of row `y` from `x1` to `x2`, both ends included, that are in
the rectangle: opaque, or each blended once; nothing when `x1 > x2` (R128). -/
def Obligations.SpanPaintsItsRow : Prop :=
  ∀ (rsv : BitVec 3) (rgb : Rgb) (xs : X2) (row : YW) (s : State),
    let on := fun p : Point => p.2 = row.y.toInt ∧ xs.x1.toInt ≤ p.1 ∧ p.1 ≤ xs.x2.toInt
    Paints (.span rsv rgb xs row) 3 s on (opaquePixel rgb) ∧
    Paints (.spanA rsv rgb xs row) 3 s on (blendedPixel rgb)

/-- No command changes a pixel outside the clipping rectangle, whatever its operands (R120, R122); and a
pixel a command changes has the byte `a` 0xFF afterwards (R124). -/
def Obligations.PixelsChangeOnlyInsideTheClip : Prop :=
  ∀ (i : Instr) (s t : State), exec i s = .next t →
    ∀ sx sy, sx < 256 → sy < 224 →
      (¬s.insideClip (s.clipPoint sx sy) → t.pixel sx sy = s.pixel sx sy) ∧
      (t.pixel sx sy ≠ s.pixel sx sy → (t.pixel sx sy).a = 0xFF#8)

/-- Plotting distinct points in any order gives the same framebuffer, blended or not (20_memory.md R76). -/
def Obligations.WriteOrderDoesNotMatter : Prop :=
  ∀ (c : Canvas) (rgb : Rgb) (blend : Bool) (ps qs : List Point) (m : Memory), m.wf = true →
    ps.Nodup → ps.Perm qs → plotAll c rgb blend ps m = plotAll c rgb blend qs m

/-- A blended command over pixels already equal to its colour changes nothing: POLY.A, ELLIPSE.A, SPAN.A
(R123, 42_polygon.md R173, 43_ellipse.md R198). -/
def Obligations.BlendOverOwnColourChangesNothing : Prop :=
  ∀ (rgb : Rgb) (s : State),
    (∀ sx sy, sx < 256 → sy < 224 → s.insideClip (s.clipPoint sx sy) →
      s.pixel sx sy = ⟨rgb.r, rgb.g, rgb.b, 0xFF#8⟩) →
    let same := fun (i : Instr) => ∃ t, exec i s = .next t ∧
      ∀ sx sy, sx < 256 → sy < 224 → t.pixel sx sy = s.pixel sx sy
    (∀ rsv cnt vs, 1 ≤ cnt.n.toNat → cnt.n.toNat ≤ 128 → same (.polyA rsv rgb cnt vs)) ∧
    (∀ rsv c r, same (.ellipseA rsv rgb c r)) ∧ ∀ rsv xs row, same (.spanA rsv rgb xs row)

/-! ## POINT and LINE (41_point_line.md) -/

/-- POINT paints its one pixel, opaque, whatever its A bit (R140). -/
def Obligations.PointPaintsOnePixel : Prop :=
  ∀ (a : Bool) (rsv : BitVec 3) (rgb : Rgb) (p : XY) (s : State),
    Paints (.point a rsv rgb p) 2 s (fun q => q = (p.x.toInt, p.y.toInt)) (opaquePixel rgb)

/-- LINE paints exactly the pixels of its Bresenham walk, opaque (R143). -/
def Obligations.LinePaintsItsWalk : Prop :=
  ∀ (a : Bool) (rsv : BitVec 3) (rgb : Rgb) (p1 p2 : XY) (s : State),
    Paints (.line a rsv rgb p1 p2) 3 s
      (fun q => q ∈ linePixels (p1.x.toInt, p1.y.toInt) (p2.x.toInt, p2.y.toInt)) (opaquePixel rgb)

/-- The shape of a walk: `delta_max + 1` distinct pixels from the first endpoint to the second, each one
step along the major axis and at most one along the minor axis from the one before (R144). -/
def Obligations.LineWalkShape : Prop :=
  ∀ (p1 p2 : Point),
    let dx := (p2.1 - p1.1).natAbs
    let dy := (p2.2 - p1.2).natAbs
    let ps := linePixels p1 p2
    ps.length = max dx dy + 1 ∧ ps.head? = some p1 ∧ ps.getLast? = some p2 ∧ ps.Nodup ∧
    ∀ k, k < max dx dy →
      let q := ps.getD k (0, 0)
      let r := ps.getD (k + 1) (0, 0)
      (dy ≤ dx → (r.1 - q.1).natAbs = 1 ∧ (r.2 - q.2).natAbs ≤ 1) ∧
      (dx < dy → (r.2 - q.2).natAbs = 1 ∧ (r.1 - q.1).natAbs ≤ 1)

/-- Which pixels a walk visits: pixel `k` is `k` steps along the major axis and, along the minor axis,
`k · delta_min / delta_max` steps rounded to the nearest, a half up; so exactly `delta_min` of the steps are
diagonal, and a tie steps diagonally, from whichever end the walk starts (R142, R144). -/
def Obligations.LineWalkDiagonalSteps : Prop :=
  ∀ (p1 p2 : Point),
    let dx := (p2.1 - p1.1).natAbs
    let dy := (p2.2 - p1.2).natAbs
    let sx : Int := if p2.1 < p1.1 then -1 else 1
    let sy : Int := if p2.2 < p1.2 then -1 else 1
    let ps := linePixels p1 p2
    (∀ k : Nat, k ≤ max dx dy →
      let minor : Nat := (2 * min dx dy * k + max dx dy) / (2 * max dx dy)
      (dy ≤ dx → ps.getD k (0, 0) = (p1.1 + sx * k, p1.2 + sy * minor)) ∧
      (dx < dy → ps.getD k (0, 0) = (p1.1 + sx * minor, p1.2 + sy * k))) ∧
    ((List.range (max dx dy)).filter fun k =>
      (ps.getD k (0, 0)).1 ≠ (ps.getD (k + 1) (0, 0)).1 ∧
        (ps.getD k (0, 0)).2 ≠ (ps.getD (k + 1) (0, 0)).2).length = min dx dy

/-! ## POLY and OUTLINE (42_polygon.md) -/

/-- POLY with one vertex paints it and with two draws the line between them, opaque with A set too; a
horizontal pair paints every pixel from the one to the other (R161). -/
def Obligations.SmallPolygons : Prop :=
  ∀ (rsv : BitVec 3) (rgb : Rgb) (cnt : Cnt) (v0 v1 : XY) (s : State),
    let point := fun q : Point => q = (v0.x.toInt, v0.y.toInt)
    let line := fun q : Point =>
      q ∈ linePixels (v0.x.toInt, v0.y.toInt) (v1.x.toInt, v1.y.toInt)
    (cnt.n.toNat = 1 →
      Paints (.poly rsv rgb cnt [v0]) 3 s point (opaquePixel rgb) ∧
      Paints (.polyA rsv rgb cnt [v0]) 3 s point (opaquePixel rgb)) ∧
    (cnt.n.toNat = 2 →
      Paints (.poly rsv rgb cnt [v0, v1]) 4 s line (opaquePixel rgb) ∧
      Paints (.polyA rsv rgb cnt [v0, v1]) 4 s line (opaquePixel rgb)) ∧
    (cnt.n.toNat = 2 → v0.y = v1.y → v0.x.toInt ≤ v1.x.toInt →
      Paints (.poly rsv rgb cnt [v0, v1]) 4 s
        (fun q => q.2 = v0.y.toInt ∧ v0.x.toInt ≤ q.1 ∧ q.1 ≤ v1.x.toInt) (opaquePixel rgb))

/-- POLY and POLY.A with three vertices or more paint exactly the pixels of ScanFill's spans: opaque, or
each blended once (R160 to R171, R173). -/
def Obligations.PolygonPaintsItsSpans : Prop :=
  ∀ (rsv : BitVec 3) (rgb : Rgb) (cnt : Cnt) (vs : List XY) (s : State), vs.length = cnt.n.toNat →
    3 ≤ cnt.n.toNat → cnt.n.toNat ≤ 128 →
    let on := fun p : Point => ∃ sp ∈ scanSpans s.clip vs, sp.covers p
    Paints (.poly rsv rgb cnt vs) (2 + cnt.n.toNat) s on (opaquePixel rgb) ∧
    Paints (.polyA rsv rgb cnt vs) (2 + cnt.n.toNat) s on (blendedPixel rgb)

/-- A polygon whose vertices all lie left of the rectangle, or all right, above or below it, paints nothing
(R162). -/
def Obligations.PolygonOutsideTheClipPaintsNothing : Prop :=
  ∀ (rsv : BitVec 3) (rgb : Rgb) (cnt : Cnt) (vs : List XY) (s : State), vs.length = cnt.n.toNat →
    3 ≤ cnt.n.toNat → cnt.n.toNat ≤ 128 →
    ((∀ v ∈ vs, v.x.toInt < 0) ∨ (∀ v ∈ vs, v.x.toInt > (s.clip.crw.toNat : Int) - 1) ∨
      (∀ v ∈ vs, v.y.toInt < 0) ∨ ∀ v ∈ vs, v.y.toInt > (s.clip.crh.toNat : Int) - 1) →
    exec (.poly rsv rgb cnt vs) s =
      .next { s with latch := [], cmdPos := s.cmdPos + (2 + cnt.n.toNat) } ∧
    exec (.polyA rsv rgb cnt vs) s =
      .next { s with latch := [], cmdPos := s.cmdPos + (2 + cnt.n.toNat) }

/-- A flat polygon fills its row from its leftmost to its rightmost vertex, honouring A (R163). -/
def Obligations.FlatPolygonFillsItsRow : Prop :=
  ∀ (rsv : BitVec 3) (rgb : Rgb) (cnt : Cnt) (vs : List XY) (y : Half) (s : State),
    vs.length = cnt.n.toNat → 3 ≤ cnt.n.toNat → cnt.n.toNat ≤ 128 → (∀ v ∈ vs, v.y = y) →
    let on := fun p : Point => p.2 = y.toInt ∧ (∃ v ∈ vs, v.x.toInt ≤ p.1) ∧ ∃ v ∈ vs, p.1 ≤ v.x.toInt
    Paints (.poly rsv rgb cnt vs) (2 + cnt.n.toNat) s on (opaquePixel rgb) ∧
    Paints (.polyA rsv rgb cnt vs) (2 + cnt.n.toNat) s on (blendedPixel rgb)

/-- An upright rectangle, named clockwise from its top left corner, is filled exactly, by POLY opaque and by
POLY.A with each pixel blended once (R164 to R171). -/
def Obligations.RectangleIsFilledExactly : Prop :=
  ∀ (rsv : BitVec 3) (rgb : Rgb) (cnt : Cnt) (x0 y0 x1 y1 : Half) (s : State), cnt.n.toNat = 4 →
    x0.toInt ≤ x1.toInt → y0.toInt < y1.toInt →
    let vs : List XY := [⟨x0, y0⟩, ⟨x1, y0⟩, ⟨x1, y1⟩, ⟨x0, y1⟩]
    let on := fun p : Point => x0.toInt ≤ p.1 ∧ p.1 ≤ x1.toInt ∧ y0.toInt ≤ p.2 ∧ p.2 ≤ y1.toInt
    Paints (.poly rsv rgb cnt vs) 6 s on (opaquePixel rgb) ∧
    Paints (.polyA rsv rgb cnt vs) 6 s on (blendedPixel rgb)

/-- A polygon that is neither rejected nor flat is walked row by row, one span a row, from `max(0, ymin)`
to `min(crh - 1, ymax)` (R168), from the first of its topmost vertices (R164). On a row above the ends of both
initial edges the span's ends, in order, are the vertex's x with one step for every row below it, in 16.16
wrapped to 32 bits and rounded half up (R166, R167, R170, R171). On every row the two edges in use are those
of the row before after their step, or the pre-advanced initial ones, advanced, the left one first, past the
ends they have reached (R169). -/
def Obligations.PolygonRowsAreWalkedInOrder : Prop :=
  ∀ (clip : Clip) (vs : List XY), vs ≠ [] → polyRejected clip vs = false → polyYmin vs ≠ polyYmax vs →
    (scanSpans clip vs).map Span.y =
        (List.range (scanSpans clip vs).length).map (fun k : Nat => max 0 (polyYmin vs) + (k : Int)) ∧
    (scanSpans clip vs).length =
      min ((clip.crh.toNat : Int) - 1) (polyYmax vs) - max 0 (polyYmin vs) + 1 ∧
    (∀ k, k < vs.length → polyYmin vs ≤ vertexY vs k ∧ vertexY vs k ≤ polyYmax vs) ∧
    (∃ k, k < vs.length ∧ polyYmax vs = vertexY vs k) ∧
    ∃ t, t < vs.length ∧ polyYmin vs = vertexY vs t ∧ (∀ k, k < t → polyYmin vs < vertexY vs k) ∧
      let eL := edgeFrom .left vs t
      let eR := edgeFrom .right vs t
      let y := fun j : Nat => max 0 (polyYmin vs) + (j : Int)
      let x := fun (e : Edge) (j : Nat) => (BitVec.ofInt 32
        (vertexX vs t * 65536 + (y j - polyYmin vs) * e.step.toInt + 32768)).toInt / 65536
      (∀ j, j < (scanSpans clip vs).length → y j < eL.ey → y j < eR.ey →
        (scanSpans clip vs).getD j ⟨0, 0, 0⟩ = ⟨y j, min (x eL j) (x eR j), max (x eL j) (x eR j)⟩) ∧
      ∃ l r : Nat → Edge,
        l 0 = advanceEdge .left vs (y 0) eR.tip vs.length (eL.preAdvance (polyYmin vs)) ∧
        r 0 = advanceEdge .right vs (y 0) (l 0).tip vs.length (eR.preAdvance (polyYmin vs)) ∧
        ∀ j,
          l (j + 1) = advanceEdge .left vs (y (j + 1)) (r j).tip vs.length (l j).next ∧
          r (j + 1) = advanceEdge .right vs (y (j + 1)) (l (j + 1)).tip vs.length (r j).next ∧
          (j < (scanSpans clip vs).length → (scanSpans clip vs).getD j ⟨0, 0, 0⟩ =
            ⟨y j, min (l j).pixel (r j).pixel, max (l j).pixel (r j).pixel⟩)

/-- CalcStep, for every input: an edge that does not descend has step 0; the left and the right form agree
(90_conflicts.md C2); below 256 pixels a row the step is the 8.8 quotient rounded toward zero, wrapped to 16
bits and not saturated (C3), which under 128 pixels a row is that quotient itself; from there on it is the
whole quotient, wrapped to 16 bits of pixels. A negative `dx` leaves the first form at `256·(dy - 1)`, because
the test shifts `256·dx` arithmetically (R165). -/
def Obligations.CalcStepValues : Prop :=
  ∀ (dx dy : Int),
    calcStep dx dy .left = calcStep dx dy .right ∧
    ∀ side : Side,
      (dy ≤ 0 → calcStep dx dy side = 0#32) ∧
      (0 < dy → -(256 * (dy - 1)) ≤ dx → dx < 256 * dy →
        (calcStep dx dy side).toInt =
          (((dx * 256).tdiv dy + 32768) % 65536 - 32768) * 256) ∧
      (0 < dy → (dx < -(256 * (dy - 1)) ∨ 256 * dy ≤ dx) →
        (calcStep dx dy side).toInt = ((dx.tdiv dy + 32768) % 65536 - 32768) * 65536) ∧
      (0 < dy → dx.natAbs < 128 * dy →
        (calcStep dx dy side).toInt = (dx * 256).tdiv dy * 256) ∧
      (0 < dy → 256 * dy ≤ dx.natAbs → (dx.tdiv dy).natAbs < 32768 →
        (calcStep dx dy side).toInt = dx.tdiv dy * 65536)

/-- The advance loops, as the loops they are: from an edge between vertices, where the row has reached the
edge's end and the other walker heads elsewhere the edge from that end is taken, and else the edge stays.
They are never cut short: more rounds than the vertex count change nothing, and afterwards the loop's test is
false (R169, R172). -/
def Obligations.AdvanceLoopsRunToTheirEnd : Prop :=
  ∀ (side : Side) (vs : List XY) (y : Int) (other n : Nat) (e : Edge), e.tip < vs.length →
    other < vs.length → vs.length ≤ n →
    (advanceEdge side vs y other vs.length e =
      if y ≥ e.ey ∧ e.tip ≠ other then
        advanceEdge side vs y other vs.length (edgeFrom side vs e.tip)
      else e) ∧
    advanceEdge side vs y other n e = advanceEdge side vs y other vs.length e ∧
    ¬(y ≥ (advanceEdge side vs y other vs.length e).ey ∧
      (advanceEdge side vs y other vs.length e).tip ≠ other)

/-- An edge's x on every row: it heads to the vertex before or after its own and starts at its vertex's x;
`j` rows later, with the rows of a start above row 0 counted in for a pre-advanced edge, its pixel is its x
in 16.16 with one step a row added, rounded half up to a whole pixel, all of it wrapped to 32 bits, and
exact where nothing overflows (R164, R166, R167, R170, R171). -/
def Obligations.EdgesStartAtTheirVertex : Prop :=
  ∀ (side : Side) (vs : List XY) (k : Nat), k < vs.length →
    let e := edgeFrom side vs k
    let at_ := fun j => vs.getD j ⟨0, 0⟩
    let t := if side = .left then (if k = 0 then vs.length - 1 else k - 1)
      else if k + 1 = vs.length then 0 else k + 1
    (e.tip = t ∧ e.ey = (at_ t).y.toInt ∧ e.pixel = (at_ k).x.toInt ∧
      e.step = calcStep ((at_ t).x.toInt - (at_ k).x.toInt) ((at_ t).y.toInt - (at_ k).y.toInt) side) ∧
    ∀ (ymin : Int) (j : Nat),
      let rows : Int := j + (if ymin < 0 then -ymin else 0)
      let v := (at_ k).x.toInt * 65536 + rows * e.step.toInt + 32768
      let f := Edge.next^[j] (e.preAdvance ymin)
      f.tip = e.tip ∧ f.ey = e.ey ∧ f.step = e.step ∧
      f.pixel = (BitVec.ofInt 32 v).toInt / 65536 ∧
      (-(2 ^ 31) ≤ v → v < 2 ^ 31 → f.pixel = v / 65536)

/-- OUTLINE paints exactly the lines from each vertex to the next and from the last to the first, opaque,
for every count from 1 to 128 (R174). -/
def Obligations.OutlinePaintsItsEdges : Prop :=
  ∀ (a : Bool) (rsv : BitVec 3) (rgb : Rgb) (cnt : Cnt) (vs : List XY) (s : State),
    vs.length = cnt.n.toNat → 1 ≤ cnt.n.toNat → cnt.n.toNat ≤ 128 →
    Paints (.outline a rsv rgb cnt vs) (2 + cnt.n.toNat) s
      (fun q => ∃ k, k < cnt.n.toNat ∧
        q ∈ linePixels (vertexPoint vs k) (vertexPoint vs ((k + 1) % cnt.n.toNat)))
      (opaquePixel rgb)

/-! ## ELLIPSE (43_ellipse.md) -/

/-- ELLIPSE and ELLIPSE.A paint exactly the pixels within `x` columns of the centre on the rows `cy ± y` of
some point `(x, y)` of the midpoint walk: opaque, or each blended once (R190 to R196, R198). -/
def Obligations.EllipsePaintsItsPoints : Prop :=
  ∀ (rsv : BitVec 3) (rgb : Rgb) (c r : XY) (s : State),
    let on := fun p : Point => ∃ q ∈ ellipsePoints r.x.toInt.natAbs r.y.toInt.natAbs,
      ((p.2 - c.y.toInt).natAbs : Int) = q.2 ∧ ((p.1 - c.x.toInt).natAbs : Int) ≤ q.1
    Paints (.ellipse rsv rgb c r) 3 s on (opaquePixel rgb) ∧
    Paints (.ellipseA rsv rgb c r) 3 s on (blendedPixel rgb)

/-- The ellipse walk, point by point: it starts at the top and ends on the centre row; where `b²x < a²y` the
next point is one column on, on the same row while the midpoint between the two rows lies inside the
ellipse; elsewhere it is one row down, in the same column while the midpoint between the two columns lies
outside (the decision values taken four times, exactly); and its loops are never cut short: more rounds than
the model gives change nothing (R192, R193). -/
def Obligations.EllipseWalkRunsToItsEnd : Prop :=
  ∀ (a b : Nat),
    let pts := ellipsePoints a b
    let a2 : Int := a * a
    let b2 : Int := b * b
    pts.head? = some (0, (b : Int)) ∧ (∃ x, pts.getLast? = some (x, 0)) ∧
    (∀ p ∈ pts, 0 ≤ p.1 ∧ 0 ≤ p.2 ∧ p.2 ≤ b) ∧
    (∀ k, k + 1 < pts.length →
      let p := pts.getD k (0, 0)
      pts.getD (k + 1) (0, 0) =
        if b2 * p.1 < a2 * p.2 then
          (p.1 + 1, if 4 * b2 * (p.1 + 1) ^ 2 + a2 * (2 * p.2 - 1) ^ 2 < 4 * a2 * b2 then p.2 else p.2 - 1)
        else
          (if b2 * (2 * p.1 + 1) ^ 2 + 4 * a2 * (p.2 - 1) ^ 2 > 4 * a2 * b2 then p.1 else p.1 + 1,
            p.2 - 1)) ∧
    ∀ n, (a * a * b ≤ n → region1 a2 b2 n (ellipseStart a b) = pts) ∧
      ∀ (c2 d2 : Int) (w : EllipseWalk), (w.y + 1).toNat ≤ n →
        region2 c2 d2 n w = region2 c2 d2 (w.y + 1).toNat w

/-- A negative radius draws what its absolute value draws, and both radii lie in `[0, 32768]` (R191). -/
def Obligations.RadiusSignDoesNotMatter : Prop :=
  ∀ (rsv : BitVec 3) (rgb : Rgb) (c r : XY) (s : State),
    r.x.toInt.natAbs ≤ 32768 ∧ r.y.toInt.natAbs ≤ 32768 ∧
    exec (.ellipse rsv rgb c ⟨-r.x, r.y⟩) s = exec (.ellipse rsv rgb c r) s ∧
    exec (.ellipse rsv rgb c ⟨r.x, -r.y⟩) s = exec (.ellipse rsv rgb c r) s ∧
    exec (.ellipseA rsv rgb c ⟨-r.x, r.y⟩) s = exec (.ellipseA rsv rgb c r) s ∧
    exec (.ellipseA rsv rgb c ⟨r.x, -r.y⟩) s = exec (.ellipseA rsv rgb c r) s

/-- Degenerate ellipses: with `ry = 0` one pixel, at the centre, whatever `rx`; with `rx = 0` the vertical
run of `2·|ry| + 1` pixels through the centre; opaque by ELLIPSE, each pixel blended once by ELLIPSE.A
(R197). -/
def Obligations.DegenerateEllipses : Prop :=
  ∀ (rsv : BitVec 3) (rgb : Rgb) (c r : XY) (s : State),
    let centre := fun p : Point => p = (c.x.toInt, c.y.toInt)
    let run := fun p : Point => p.1 = c.x.toInt ∧ (p.2 - c.y.toInt).natAbs ≤ r.y.toInt.natAbs
    (r.y = 0#16 → Paints (.ellipse rsv rgb c r) 3 s centre (opaquePixel rgb) ∧
      Paints (.ellipseA rsv rgb c r) 3 s centre (blendedPixel rgb)) ∧
    (r.x = 0#16 → Paints (.ellipse rsv rgb c r) 3 s run (opaquePixel rgb) ∧
      Paints (.ellipseA rsv rgb c r) 3 s run (blendedPixel rgb))

/-! ## NOP, CLEAR and SETCLIP (44_control.md) -/

/-- NOP: any header with opcode 0 only advances the command position by 1 (R210; the draw for reads while
busy is the model's, log entry 3). -/
def Obligations.NopOnlyAdvances : Prop :=
  (∀ (a : Bool) (rsv : BitVec 3) (rgb : Rgb) (s : State),
    exec (.nop a rsv rgb) s = .next { s with latch := [], cmdPos := s.cmdPos + 1 }) ∧
  ∀ (s : State) (ts : List Turn) (h : Word), EngineRuns s ts → s.latch = [h] → h.toNat / 2 ^ 28 = 0 →
    step s = .next { s with
      schedule := ts, latch := [], cmdPos := s.cmdPos + 1, readDraw := s.readDraw + 1 }

/-- CLEAR paints every pixel of the clipping rectangle, opaque, whatever its A bit (R211). -/
def Obligations.ClearPaintsTheRectangle : Prop :=
  ∀ (a : Bool) (rsv : BitVec 3) (rgb : Rgb) (s : State),
    Paints (.clear a rsv rgb) 1 s (fun _ => True) (opaquePixel rgb)

/-- SETCLIP sets the four clipping registers from its two operand words and changes nothing else; CLIP_ORG
and CLIP_SIZE then read those very words (R212, 10_state.md R28, R29; the draw for reads while busy is the
model's, log entry 3). -/
def Obligations.SetclipSetsTheRectangle : Prop :=
  (∀ (a : Bool) (rsv : BitVec 3) (rgb : Rgb) (org : XY) (size : WH) (s : State),
    exec (.setclip a rsv rgb org size) s = .next { s with
      clip := ⟨org.x, org.y, size.w, size.h⟩, latch := [], cmdPos := s.cmdPos + 3 }) ∧
  ∀ (s : State) (ts : List Turn) (h w1 w2 : Word), EngineRuns s ts → s.latch = [h, w1, w2] →
    h.toNat / 2 ^ 28 = 8 →
    ∃ t, step s = .next t ∧
      t = { s with
        schedule := ts, clip := t.clip, latch := [], cmdPos := s.cmdPos + 3,
        readDraw := s.readDraw + 1 } ∧
      t.clip.crx.toNat = w1.toNat / 65536 ∧ t.clip.cry.toNat = w1.toNat % 65536 ∧
      t.clip.crw.toNat = w2.toNat / 65536 ∧ t.clip.crh.toNat = w2.toNat % 65536 ∧
      readValue t 0x10#19 .w32 = w1 ∧ readValue t 0x14#19 .w32 = w2
end

