-- ==== Sys2Proof/Laws/Decode.lean ====
section
/-! SUPPORT. The fields of an encoded word are the fields it was made of, and a word is made of its fields
(30_encoding.md R91, R92). -/

namespace Sys2Proof

/-! ## Operand words -/

@[simp] theorem hiOf_append (a b : Half) : hiOf (a ++ b) = a := by
  simp only [hiOf]
  ext i hi
  simp only [BitVec.getElem_extractLsb', BitVec.getLsbD_append]
  grind

@[simp] theorem loOf_append (a b : Half) : loOf (a ++ b) = b := by
  simp only [loOf]
  ext i hi
  simp only [BitVec.getElem_extractLsb', BitVec.getLsbD_append]
  grind

@[simp] theorem hiOf_loOf (w : Word) : hiOf w ++ loOf w = w := by
  simp only [hiOf, loOf]
  ext i hi
  simp only [BitVec.getElem_append, BitVec.getElem_extractLsb']
  grind

@[simp] theorem xyOf_word (p : XY) : xyOf p.word = p := by simp [xyOf, XY.word]
@[simp] theorem cntOf_word (c : Cnt) : cntOf c.word = c := by simp [cntOf, Cnt.word]
@[simp] theorem whOf_word (s : WH) : whOf s.word = s := by simp [whOf, WH.word]
@[simp] theorem x2Of_word (s : X2) : x2Of s.word = s := by simp [x2Of, X2.word]
@[simp] theorem ywOf_word (s : YW) : ywOf s.word = s := by simp [ywOf, YW.word]

@[simp] theorem word_xyOf (w : Word) : (xyOf w).word = w := by simp [xyOf, XY.word]
@[simp] theorem word_cntOf (w : Word) : (cntOf w).word = w := by simp [cntOf, Cnt.word]
@[simp] theorem word_whOf (w : Word) : (whOf w).word = w := by simp [whOf, WH.word]
@[simp] theorem word_x2Of (w : Word) : (x2Of w).word = w := by simp [x2Of, X2.word]
@[simp] theorem word_ywOf (w : Word) : (ywOf w).word = w := by simp [ywOf, YW.word]

theorem map_xyOf_word (vs : List XY) : (vs.map XY.word).map xyOf = vs := by
  rw [List.map_map]; simp [Function.comp_def]

theorem map_word_xyOf (ws : List Word) : (ws.map xyOf).map XY.word = ws := by
  rw [List.map_map]; simp [Function.comp_def]

/-! ## Header words -/

@[simp] theorem opOf_headerWord (op : BitVec 4) (a : Bool) (rsv : BitVec 3) (rgb : Rgb) :
    opOf (headerWord op a rsv rgb) = op.toNat := by
  unfold opOf headerWord
  congr 1
  ext i hi
  simp only [BitVec.getElem_extractLsb', BitVec.getLsbD_append]
  grind

@[simp] theorem aOf_headerWord (op : BitVec 4) (a : Bool) (rsv : BitVec 3) (rgb : Rgb) :
    aOf (headerWord op a rsv rgb) = a := by
  simp only [aOf, headerWord, BitVec.getLsbD_append]
  simp

@[simp] theorem rsvOf_headerWord (op : BitVec 4) (a : Bool) (rsv : BitVec 3) (rgb : Rgb) :
    rsvOf (headerWord op a rsv rgb) = rsv := by
  simp only [rsvOf, headerWord]
  ext i hi
  simp only [BitVec.getElem_extractLsb', BitVec.getLsbD_append]
  grind

@[simp] theorem rgbOf_headerWord (op : BitVec 4) (a : Bool) (rsv : BitVec 3) (rgb : Rgb) :
    rgbOf (headerWord op a rsv rgb) = rgb := by
  obtain ⟨r, g, b⟩ := rgb
  simp only [rgbOf, headerWord, Rgb.mk.injEq]
  refine ⟨?_, ?_, ?_⟩ <;> ext i hi <;>
    simp only [BitVec.getElem_extractLsb', BitVec.getLsbD_append] <;> grind

/-- A header is made of its fields. -/
theorem headerWord_fields (h : Word) (op : BitVec 4) (hop : h.extractLsb' 28 4 = op) :
    headerWord op (aOf h) (rsvOf h) (rgbOf h) = h := by
  subst hop
  simp only [headerWord, aOf, rsvOf, rgbOf]
  ext i hi
  simp only [BitVec.getElem_append, BitVec.getElem_extractLsb', BitVec.getElem_ofBool]
  grind

end Sys2Proof
end

