-- ==== Sys2Proof/Laws/Edge.lean ====
section
/-! SUPPORT. The 16.16 arithmetic of the edge walker where nothing overflows, and the distance between the
two walkers' vertices (00_scope.md R7, 42_polygon.md R164 to R172). -/

namespace Sys2Proof.Machine

/-! ## Narrowing -/

theorem toInt_wrap32 {v : Int} (h1 : -2147483648 ≤ v) (h2 : v < 2147483648) : (wrap32 v).toInt = v := by
  simp only [wrap32, BitVec.toInt_ofInt]
  rw [Int.bmod_eq_of_le] <;> norm_num <;> omega

theorem int16_of_fits {v : Int} (h1 : -32768 ≤ v) (h2 : v < 32768) : int16 v = v := by
  simp only [int16, BitVec.toInt_ofInt]
  rw [Int.bmod_eq_of_le] <;> norm_num <;> omega

@[simp] theorem wrap32_sext32 (w : Word) : wrap32 (sext32 w) = w := by simp [wrap32, sext32]

/-- A quotient rounded toward zero is small where the dividend is. -/
theorem natAbs_tdiv_lt {a d m : Int} (hd : 0 < d) (h : a.natAbs < m * d) : (a.tdiv d).natAbs < m := by
  have e : ((a.natAbs / d.natAbs : Nat) : Int) = (a.natAbs : Int) / d := by
    rw [Int.natCast_ediv, Int.natAbs_of_nonneg hd.le]
  rw [show (a.tdiv d).natAbs = a.natAbs / d.natAbs from Int.natAbs_tdiv _ _, e]
  exact (Int.ediv_lt_iff_lt_mul hd).2 h

/-! ## The two walkers (R164) -/

theorem Side.move_lt {n k : Nat} (side : Side) (h : k < n) : side.move n k < n := by
  cases side <;> exact Nat.mod_lt _ (by omega)

/-- How many moves of a walker lead from vertex `k` to vertex `other`. -/
def Side.distance (n k other : Nat) : Side → Nat
  | .left => (k + n - other) % n
  | .right => (other + n - k) % n

theorem Side.distance_lt {n k : Nat} (side : Side) (other : Nat) (h : k < n) :
    side.distance n k other < n := by
  cases side <;> exact Nat.mod_lt _ (by omega)

/-- A move toward another vertex brings the walker one nearer. -/
theorem Side.distance_move {n k other : Nat} (side : Side) (hk : k < n) (ho : other < n)
    (hne : k ≠ other) : side.distance n (side.move n k) other + 1 = side.distance n k other := by
  cases side
  · simp only [Side.distance, Side.move]
    by_cases h0 : k = 0
    · subst h0
      rw [show (0 + n - 1) % n = n - 1 from by rw [Nat.zero_add]; exact Nat.mod_eq_of_lt (by omega),
        show n - 1 + n - other = (n - 1 - other) + n by omega, Nat.add_mod_right,
        Nat.mod_eq_of_lt (by omega), Nat.mod_eq_of_lt (by omega)]
      omega
    · rw [show k + n - 1 = (k - 1) + n by omega, Nat.add_mod_right,
        Nat.mod_eq_of_lt (a := k - 1) (by omega)]
      by_cases hlt : k < other
      · rw [Nat.mod_eq_of_lt (by omega), Nat.mod_eq_of_lt (by omega)]; omega
      · rw [show k - 1 + n - other = (k - 1 - other) + n by omega,
          show k + n - other = (k - other) + n by omega, Nat.add_mod_right, Nat.add_mod_right,
          Nat.mod_eq_of_lt (by omega), Nat.mod_eq_of_lt (by omega)]
        omega
  · simp only [Side.distance, Side.move]
    by_cases h0 : k + 1 = n
    · rw [h0, Nat.mod_self, Nat.sub_zero, Nat.add_mod_right, Nat.mod_eq_of_lt ho,
        Nat.mod_eq_of_lt (by omega)]
      omega
    · rw [Nat.mod_eq_of_lt (a := k + 1) (by omega)]
      by_cases hlt : other < k
      · rw [Nat.mod_eq_of_lt (by omega), Nat.mod_eq_of_lt (by omega)]; omega
      · rw [show other + n - (k + 1) = (other - (k + 1)) + n by omega,
          show other + n - k = (other - k) + n by omega, Nat.add_mod_right, Nat.add_mod_right,
          Nat.mod_eq_of_lt (by omega), Nat.mod_eq_of_lt (by omega)]
        omega

/-! ## Upright edges -/

/-- An edge that stands upright at column `x`. -/
def Edge.UprightAt (e : Edge) (x : Int) : Prop := e.x = wrap32 (x * 65536) ∧ e.step = 0#32

theorem Edge.UprightAt.pixel {e : Edge} {x : Int} (h : e.UprightAt x) (h1 : -32768 ≤ x)
    (h2 : x < 32768) : e.pixel = x := by
  simp only [Edge.pixel, h.1, sext32]
  rw [toInt_wrap32 (v := x * 65536) (by omega) (by omega), toInt_wrap32 (by omega) (by omega)]
  simp only [asr]
  omega

theorem Edge.UprightAt.next {e : Edge} {x : Int} (h : e.UprightAt x) : e.next.UprightAt x := by
  refine ⟨?_, h.2⟩
  simp only [Edge.next, h.2, show sext32 0#32 = 0 from rfl, add_zero, wrap32_sext32, h.1]

theorem Edge.UprightAt.preAdvance {e : Edge} {x : Int} (h : e.UprightAt x) (ymin : Int) :
    (e.preAdvance ymin).UprightAt x := by
  unfold Edge.preAdvance
  split
  · refine ⟨?_, h.2⟩
    simp only [h.2, show sext32 0#32 = 0 from rfl, mul_zero, add_zero, wrap32_sext32, h.1]
  · exact h

theorem Edge.preAdvance_tip (e : Edge) (ymin : Int) : (e.preAdvance ymin).tip = e.tip := by
  unfold Edge.preAdvance; split <;> rfl

theorem Edge.preAdvance_ey (e : Edge) (ymin : Int) : (e.preAdvance ymin).ey = e.ey := by
  unfold Edge.preAdvance; split <;> rfl

theorem calcStep_upright (dy : Int) (side : Side) : calcStep 0 dy side = 0#32 := by
  simp only [calcStep]
  split
  · rfl
  · rw [if_pos (by simp [absInt, asr]; omega)]
    simp [tdiv, int16, wrap32]

/-! ## An edge row by row (R167, R171) -/

theorem wrap32_add (a b : Int) : wrap32 (sext32 (wrap32 a) + b) = wrap32 (a + b) := by
  simp only [wrap32, sext32, BitVec.ofInt_add, BitVec.ofInt_toInt]

/-- After `j` rows an edge has taken `j` steps. -/
theorem Edge.next_iterate (e : Edge) (j : Nat) :
    Edge.next^[j] e = { e with x := wrap32 (sext32 e.x + j * sext32 e.step) } := by
  induction j with
  | zero => simp
  | succ j ih =>
    rw [Function.iterate_succ_apply', ih]
    simp only [Edge.next, wrap32_add]
    congr 2
    push_cast
    ring

/-- The pre-advance of an edge is one step for each row skipped. -/
theorem Edge.preAdvance_eq (e : Edge) (ymin : Int) : e.preAdvance ymin =
    { e with x := wrap32 (sext32 e.x + (if ymin < 0 then -ymin else 0) * sext32 e.step) } := by
  unfold Edge.preAdvance
  split <;> simp

/-- An edge by the vertex it heads to. -/
theorem edgeFrom_eq {side : Side} {vs : List XY} {k t : Nat} (h : side.move vs.length k = t) :
    edgeFrom side vs k =
      { tip := t
        x := wrap32 (shl (vertexX vs k) 16)
        step := calcStep (vertexX vs t - vertexX vs k) (vertexY vs t - vertexY vs k) side
        ey := vertexY vs t } := by
  subst h; rfl

end Sys2Proof.Machine
end

