-- ==== Sys2Proof/Laws/Memory.lean ====
section
/-! SUPPORT. Every drawing is a sequence of PlotPixels of one colour (40_pixel_span.md R122), so whatever
PlotPixel keeps, every drawing keeps: the canonical form of the memory first of all. -/

namespace Sys2Proof.Machine

/-- `m'` comes from `m` by PlotPixels of colour `rgb` on canvas `c`: it has every property of `m` that
each of them keeps. -/
def DrawnFrom (c : Canvas) (rgb : Rgb) (m m' : Memory) : Prop :=
  ∀ P : Memory → Prop, (∀ bl p n, P n → P (plotPixel c rgb bl p n)) → P m → P m'

namespace DrawnFrom

variable {c : Canvas} {rgb : Rgb} {m m' m'' : Memory}

theorem refl : DrawnFrom c rgb m m := fun _ _ h => h

theorem trans (h : DrawnFrom c rgb m m') (h' : DrawnFrom c rgb m' m'') : DrawnFrom c rgb m m'' :=
  fun P hP hm => h' P hP (h P hP hm)

theorem plotPixel (bl : Bool) (p : Point) :
    DrawnFrom c rgb m (Machine.plotPixel c rgb bl p m) := fun _ hP hm => hP bl p _ hm

theorem foldl {α : Type} {f : Memory → α → Memory} (hf : ∀ n x, DrawnFrom c rgb n (f n x))
    (l : List α) : DrawnFrom c rgb m (l.foldl f m) := by
  induction l generalizing m with
  | nil => exact refl
  | cons x l ih => exact (hf m x).trans ih

theorem plotAll (bl : Bool) (ps : List Point) : DrawnFrom c rgb m (Machine.plotAll c rgb bl ps m) :=
  foldl (fun _ p => plotPixel bl p) ps

theorem fillSpan (bl : Bool) (s : Span) : DrawnFrom c rgb m (Machine.fillSpan c rgb bl s m) :=
  plotAll bl s.points

theorem clampSpan (bl : Bool) (s : Span) : DrawnFrom c rgb m (Machine.clampSpan c rgb bl s m) := by
  unfold Machine.clampSpan
  split
  · exact fillSpan bl _
  · exact refl

theorem clampSpans (bl : Bool) (ss : List Span) :
    DrawnFrom c rgb m (Machine.clampSpans c rgb bl ss m) :=
  foldl (fun _ s => clampSpan bl s) ss

theorem drawLine (p1 p2 : Point) : DrawnFrom c rgb m (Machine.drawLine c rgb p1 p2 m) :=
  plotAll false _

theorem drawPoly (a : Bool) (vs : List XY) : DrawnFrom c rgb m (Machine.drawPoly c rgb a vs m) := by
  unfold Machine.drawPoly
  split
  · exact plotPixel _ _
  · split
    · exact drawLine _ _
    · exact clampSpans _ _

theorem drawEllipse (a : Bool) (p r : Point) :
    DrawnFrom c rgb m (Machine.drawEllipse c rgb a p r m) := clampSpans _ _

theorem drawClear : DrawnFrom c rgb m (Machine.drawClear c rgb m) :=
  foldl (fun _ s => fillSpan false s) _

end DrawnFrom

/-! ## What PlotPixel keeps -/

/-- The framebuffer invariant: canonical, in its window, and byte `a` of every written pixel is 0xFF. -/
structure FbOk (m : Memory) : Prop where
  canonical : m.wf = true
  inWindow : ∀ c ∈ m, Config.fbBase ≤ c.1 ∧ c.1 < Config.fbEnd
  alphaOpaque : ∀ x, (m.read x).isSome = true → m.read (x / 4 * 4 + 3) = some 0xFF#8

theorem FbOk.empty : FbOk [] := ⟨rfl, by simp, by simp⟩

theorem read_isSome_iff (m : Memory) (x : Nat) : (m.read x).isSome = true ↔ ∃ c ∈ m, c.1 = x := by
  induction m with
  | nil => simp
  | cons c m ih =>
    obtain ⟨k, v⟩ := c
    rw [Memory.read_cons, List.exists_mem_cons_iff, ← ih]
    split <;> simp_all

/-- A point's pixel is in the framebuffer window. -/
theorem targetOf_inWindow {clip : Clip} {x : Nat} {p : Point} (h : targetOf clip x = some p) :
    Config.fbBase ≤ x ∧ x < Config.fbEnd := by
  rw [targetOf_eq] at h
  split_ifs at h with hx
  exact ⟨hx.1, hx.2.1⟩

/-- The four bytes of a pixel are reached through the same point. -/
theorem targetOf_alphaByte (clip : Clip) (x : Nat) :
    targetOf clip (x / 4 * 4 + 3) = targetOf clip x := by
  simp only [targetOf_eq, show (x / 4 * 4 + 3 - 262144) / 4 = (x - 262144) / 4 by omega]
  have : (262144 ≤ x / 4 * 4 + 3 ∧ x / 4 * 4 + 3 < 491520) ↔ (262144 ≤ x ∧ x < 491520) := by omega
  by_cases h : 262144 ≤ x ∧ x < 491520
  · simp only [this.2 h, h, true_and]
  · have h' := mt this.1 h
    rw [if_neg fun h2 => h' ⟨h2.1, h2.2.1⟩, if_neg fun h2 => h ⟨h2.1, h2.2.1⟩]

theorem FbOk.plotPixel {m : Memory} (h : FbOk m) (c : Canvas) (rgb : Rgb) (bl : Bool) (p : Point) :
    FbOk (Machine.plotPixel c rgb bl p m) where
  canonical := wf_plotPixel h.canonical c rgb bl p
  inWindow d hd := by
    have hs := (read_isSome_iff (Machine.plotPixel c rgb bl p m) d.1).2 ⟨d, hd, rfl⟩
    rw [read_plotPixel] at hs
    split at hs
    · exact targetOf_inWindow ‹_›
    · obtain ⟨e, he, hde⟩ := (read_isSome_iff m d.1).1 hs
      exact hde ▸ h.inWindow e he
  alphaOpaque x hx := by
    rw [read_plotPixel, targetOf_alphaByte] at *
    split at hx
    · rw [if_pos ‹_›]
      simp [pixelByte, show (x / 4 * 4 + 3) % 4 = 3 by omega]
    · rw [if_neg ‹_›]
      exact h.alphaOpaque x hx

/-- Every drawing keeps the framebuffer invariant. -/
theorem DrawnFrom.fbOk {c : Canvas} {rgb : Rgb} {m m' : Memory} (h : DrawnFrom c rgb m m')
    (hm : FbOk m) : FbOk m' := h FbOk (fun bl p _ hn => hn.plotPixel c rgb bl p) hm

/-- Every drawing keeps the canonical form of the memory. -/
theorem DrawnFrom.wf {c : Canvas} {rgb : Rgb} {m m' : Memory} (h : DrawnFrom c rgb m m')
    (hm : m.wf = true) : m'.wf = true :=
  h (fun n => n.wf = true) (fun bl p _ hn => wf_plotPixel hn c rgb bl p) hm

/-- No drawing changes a byte that no point of the clipping rectangle reaches. -/
theorem DrawnFrom.read_eq {c : Canvas} {rgb : Rgb} {m m' : Memory} (h : DrawnFrom c rgb m m') {x : Nat}
    (hx : targetOf c.clip x = none) : m'.read x = m.read x :=
  h (fun n => n.read x = m.read x)
    (fun bl p n hn => by rw [read_plotPixel, hx, if_neg (by simp), hn]) rfl

/-- No drawing unwrites a byte. -/
theorem DrawnFrom.read_isSome {c : Canvas} {rgb : Rgb} {m m' : Memory} (h : DrawnFrom c rgb m m')
    {x : Nat} (hx : (m.read x).isSome = true) : (m'.read x).isSome = true :=
  h (fun n => (n.read x).isSome = true)
    (fun bl p n hn => by rw [read_plotPixel]; split <;> simp_all) hx

/-! ## What spans read as -/

/-- The points ClampSpan plots. -/
def Span.clampPoints (clip : Clip) (s : Span) : List Point := (s.clamp clip).points

theorem clampSpan_eq_plotAll (c : Canvas) (rgb : Rgb) (bl : Bool) (s : Span) (m : Memory) :
    clampSpan c rgb bl s m = plotAll c rgb bl (s.clampPoints c.clip) m := by
  unfold clampSpan
  split
  · rfl
  · have : s.clampPoints c.clip = [] := by
      rw [List.eq_nil_iff_forall_not_mem]
      intro p hp
      rw [Span.clampPoints, mem_points] at hp
      omega
    rw [this]
    rfl

theorem plotAll_append (c : Canvas) (rgb : Rgb) (bl : Bool) (ps qs : List Point) (m : Memory) :
    plotAll c rgb bl (ps ++ qs) m = plotAll c rgb bl qs (plotAll c rgb bl ps m) := by
  simp [plotAll]

theorem clampSpans_eq_plotAll (c : Canvas) (rgb : Rgb) (bl : Bool) (ss : List Span) (m : Memory) :
    clampSpans c rgb bl ss m = plotAll c rgb bl (ss.flatMap (Span.clampPoints c.clip)) m := by
  induction ss generalizing m with
  | nil => rfl
  | cons s ss ih =>
    rw [List.flatMap_cons, plotAll_append, ← clampSpan_eq_plotAll, ← ih]
    rfl

/-- Spans on distinct rows plot distinct points. -/
theorem nodup_clampPoints (clip : Clip) {ss : List Span} (h : (ss.map Span.y).Nodup) :
    (ss.flatMap (Span.clampPoints clip)).Nodup := by
  rw [List.nodup_flatMap]
  refine ⟨fun s _ => nodup_points _, ?_⟩
  rw [List.Nodup, List.pairwise_map] at h
  refine h.imp fun {s t} hne p hp hq => hne ?_
  simp only [Span.clampPoints, mem_points, Span.clamp] at hp hq
  exact hp.1.symm.trans hq.1

/-- The clamp drops no point of the rectangle (40_pixel_span.md R126). -/
theorem target_clampPoints (clip : Clip) (s : Span) (x : Nat) (p : Point)
    (h : targetOf clip x = some p) :
    p ∈ s.clampPoints clip ↔ p.2 = s.y ∧ s.l ≤ p.1 ∧ p.1 ≤ s.r := by
  have hin := (inClip_iff _ _ _).1 ((targetOf_eq_some _ _ _).1 h).1
  simp only [Span.clampPoints, mem_points, Span.clamp]
  omega

/-- What spans on distinct rows leave: a byte is new exactly when its point lies on a span. -/
theorem read_clampSpans (c : Canvas) (rgb : Rgb) (bl : Bool) {ss : List Span}
    (h : (ss.map Span.y).Nodup) (m : Memory) (x : Nat) :
    (clampSpans c rgb bl ss m).read x =
      if ∃ p, targetOf c.clip x = some p ∧ ∃ s ∈ ss, p.2 = s.y ∧ s.l ≤ p.1 ∧ p.1 ≤ s.r then
        some (pixelByte rgb bl x (byteAt c.draw m x))
      else m.read x := by
  rw [clampSpans_eq_plotAll, read_plotAll _ _ _ _ (nodup_clampPoints _ h)]
  congr 1
  rw [eq_iff_iff]
  constructor
  · rintro ⟨p, hp, hx⟩
    obtain ⟨s, hs, hps⟩ := List.mem_flatMap.1 hp
    exact ⟨p, hx, s, hs, (target_clampPoints _ _ _ _ hx).1 hps⟩
  · rintro ⟨p, hx, s, hs, hps⟩
    exact ⟨p, List.mem_flatMap.2 ⟨s, hs, (target_clampPoints _ _ _ _ hx).2 hps⟩, hx⟩

end Sys2Proof.Machine
end

