-- ==== Sys2Proof/Laws/Polygon.lean ====
section
/-! SUPPORT. Facts about the edge walker's rows (42_polygon.md R168 to R171) and the ellipse's span table
(43_ellipse.md R195, R196): each row is filled by one span. -/

namespace Sys2Proof.Machine

theorem rowSpan_y (y : Int) (eL eR : Edge) : (rowSpan y eL eR).y = y := by
  unfold rowSpan; split <;> rfl

/-- The walked rows are consecutive from the first (R168). -/
theorem walkRows_rows (vs : List XY) (n : Nat) (y : Int) (eL eR : Edge) :
    (walkRows vs n y eL eR).map Span.y = (List.range n).map fun (k : Nat) => y + (k : Int) := by
  induction n generalizing y eL eR with
  | zero => rfl
  | succ n ih =>
    simp only [walkRows, List.map_cons, rowSpan_y, ih, List.range_succ_eq_map, List.map_map]
    simp only [List.cons.injEq, Nat.cast_zero, add_zero, true_and]
    refine List.map_congr_left fun k _ => ?_
    simp only [Function.comp, Nat.succ_eq_add_one, Nat.cast_add, Nat.cast_one]
    omega

/-- A row's span has its ends in order (R170). -/
theorem rowSpan_eq (y : Int) (eL eR : Edge) :
    rowSpan y eL eR = ⟨y, min eL.pixel eR.pixel, max eL.pixel eR.pixel⟩ := by
  unfold rowSpan
  split
  · rw [min_eq_right (by omega), max_eq_left (by omega)]
  · rw [min_eq_left (by omega), max_eq_right (by omega)]

/-- The edges in use on the row `j` rows after `y`, where the walk enters row `y` with `eL` and `eR`. -/
def edgesOn (vs : List XY) (y : Int) (eL eR : Edge) : Nat → Edge × Edge
  | 0 =>
    let l := advanceEdge .left vs y eR.tip vs.length eL
    (l, advanceEdge .right vs y l.tip vs.length eR)
  | j + 1 =>
    let p := edgesOn vs y eL eR j
    let l := advanceEdge .left vs (y + ((j + 1 : Nat) : Int)) p.2.tip vs.length p.1.next
    (l, advanceEdge .right vs (y + ((j + 1 : Nat) : Int)) l.tip vs.length p.2.next)

/-- Walking on from the next row is walking on from this one. -/
theorem edgesOn_succ (vs : List XY) (y : Int) (eL eR : Edge) (j : Nat) :
    edgesOn vs y eL eR (j + 1) =
      edgesOn vs (y + 1) (edgesOn vs y eL eR 0).1.next (edgesOn vs y eL eR 0).2.next j := by
  induction j with
  | zero => rfl
  | succ j ih =>
    have e : y + ((j + 1 + 1 : Nat) : Int) = y + 1 + ((j + 1 : Nat) : Int) := by push_cast; ring
    conv_lhs => rw [edgesOn]
    rw [ih, e]
    rfl

/-- The span of each walked row, by the edges in use on it (R170). -/
theorem getD_walkRows (vs : List XY) {n j : Nat} (y : Int) (eL eR : Edge) (h : j < n) :
    (walkRows vs n y eL eR).getD j ⟨0, 0, 0⟩ =
      rowSpan (y + (j : Int)) (edgesOn vs y eL eR j).1 (edgesOn vs y eL eR j).2 := by
  induction n generalizing j y eL eR with
  | zero => omega
  | succ n ih =>
    cases j with
    | zero => simp [walkRows, edgesOn]
    | succ j =>
      have e : y + 1 + (j : Int) = y + ((j + 1 : Nat) : Int) := by push_cast; ring
      rw [edgesOn_succ, ← e]
      exact ih (y + 1) _ _ (by omega)

/-- An edge whose end the row has not reached stays (R169). -/
theorem advanceEdge_of_lt {e : Edge} {y : Int} (h : y < e.ey) (side : Side) (vs : List XY) (other n : Nat) :
    advanceEdge side vs y other n e = e := by
  cases n with
  | zero => rfl
  | succ n => exact if_neg (by omega)

theorem nodup_rows (y : Int) (n : Nat) :
    ((List.range n).map fun (k : Nat) => y + (k : Int)).Nodup :=
  List.nodup_range.map fun a b h => by simpa using h

/-- ScanFill gives at most one span a row. -/
theorem scanSpans_rows_nodup (clip : Clip) (vs : List XY) :
    ((scanSpans clip vs).map Span.y).Nodup := by
  simp only [scanSpans]
  split
  · simp
  · split
    · simp
    · rw [walkRows_rows]
      exact nodup_rows _ _

/-- Only three vertices or more reach ScanFill (R160). -/
theorem drawPoly_scan {c : Canvas} {rgb : Rgb} {a : Bool} {vs : List XY} {m : Memory}
    (h : 3 ≤ vs.length) : drawPoly c rgb a vs m = clampSpans c rgb a (scanSpans c.clip vs) m := by
  unfold drawPoly
  rw [if_neg (by omega), if_neg (by omega)]

/-- FillTable gives at most one span a row (R196). -/
theorem tableSpans_rows_nodup (clip : Clip) (t : SpanTable) :
    ((tableSpans clip t).map Span.y).Nodup := by
  unfold tableSpans
  rw [List.map_filterMap]
  refine List.Nodup.filterMap (fun a b y ha hb => ?_) List.nodup_range
  simp only [Option.map_map, Option.mem_def, Option.map_eq_some_iff, Function.comp] at ha hb
  obtain ⟨-, -, ha⟩ := ha
  obtain ⟨-, -, hb⟩ := hb
  omega

/-- A span of the table, by its row. -/
theorem mem_tableSpans (clip : Clip) (t : SpanTable) (s : Span) :
    s ∈ tableSpans clip t ↔
      ∃ sy < Config.screenH, ∃ l r, t.getD sy none = some (l, r) ∧ s = ⟨(sy : Int) - clip.top, l, r⟩ := by
  simp only [tableSpans, List.mem_filterMap, List.mem_range, Option.map_eq_some_iff, Prod.exists]
  constructor
  · rintro ⟨sy, h, l, r, ht, rfl⟩; exact ⟨sy, h, l, r, ht, rfl⟩
  · rintro ⟨sy, h, l, r, ht, rfl⟩; exact ⟨sy, h, l, r, ht, rfl⟩

end Sys2Proof.Machine
end

