-- ==== Sys2Proof/Laws/Ellipse.lean ====
section
/-! SUPPORT. What the ellipse walk keeps from round to round, and which columns of which rows the span table
holds after points are recorded (43_ellipse.md R192 to R196). -/

namespace Sys2Proof.Machine

/-! ## The walk -/

/-- What region 1 keeps: after `k` rounds `x` is `k`, `px` and `py` are `2·b²·x` and `2·a²·y`, `p` is four
times the ellipse's equation at the midpoint `(x + 1, y - 1/2)`, and `y` stays between 0 and `b` (R192). -/
structure EllipseWalk.Region1 (a2 b2 b k : Int) (w : EllipseWalk) : Prop where
  x : w.x = k
  px : w.px = 2 * b2 * k
  py : w.py = 2 * a2 * w.y
  p : w.p = 4 * b2 * (w.x + 1) ^ 2 + a2 * (2 * w.y - 1) ^ 2 - 4 * a2 * b2
  yMax : w.y ≤ b
  yMin : 0 ≤ w.y

theorem ellipseStart_region1 (a b : Nat) :
    (ellipseStart a b).Region1 ((a : Int) * a) ((b : Int) * b) b 0 :=
  ⟨rfl, by simp [ellipseStart], by simp [ellipseStart], by simp only [ellipseStart]; ring, le_rfl,
    by simp [ellipseStart]⟩

theorem EllipseWalk.Region1.step1 {a2 b2 b k : Int} {w : EllipseWalk} (hb : 0 ≤ b2) (hk : 0 ≤ k)
    (h : w.Region1 a2 b2 b k) (hc : w.px < w.py) : (w.step1 a2 b2).Region1 a2 b2 b (k + 1) := by
  have hy : 0 < w.y := by
    rw [h.px, h.py] at hc
    by_contra hn
    have : w.y = 0 := by have := h.yMin; omega
    rw [this] at hc
    have := mul_nonneg (mul_nonneg (by norm_num : (0 : Int) ≤ 2) hb) hk
    omega
  have := h.yMax
  simp only [EllipseWalk.step1]
  split
  · exact ⟨by simp [h.x], by simp [h.px]; ring, h.py, by simp only [h.p, h.px, h.x]; ring, h.yMax, h.yMin⟩
  · exact ⟨by simp [h.x], by simp [h.px]; ring, by simp [h.py]; ring,
      by simp only [h.p, h.px, h.py, h.x]; ring,
      by show w.y - 1 ≤ b; omega, by show 0 ≤ w.y - 1; omega⟩

/-- After `a²·b` rounds at most, region 1 is over (R192). -/
theorem EllipseWalk.Region1.over {a2 b2 b k : Int} {w : EllipseWalk} (ha : 0 ≤ a2) (hb : 1 ≤ b2)
    (h : w.Region1 a2 b2 b k) (hk : 0 ≤ k) (hmax : a2 * b ≤ k) : ¬w.px < w.py := by
  rw [h.px, h.py]
  have h1 : a2 * w.y ≤ a2 * b := mul_le_mul_of_nonneg_left h.yMax ha
  have h2 : k ≤ b2 * k := by nlinarith
  nlinarith

@[simp] theorem EllipseWalk.step2_y (a2 b2 : Int) (w : EllipseWalk) :
    (w.step2 a2 b2).y = w.y - 1 := by
  simp only [EllipseWalk.step2]; split <;> rfl

theorem EllipseWalk.le_step2_x (a2 b2 : Int) (w : EllipseWalk) : w.x ≤ (w.step2 a2 b2).x := by
  simp only [EllipseWalk.step2]
  split
  · exact le_rfl
  · show w.x ≤ w.x + 1; omega

/-- What region 2 keeps: `px` and `py` are `2·b²·x` and `2·a²·y`, with `py` no longer above `px`, and `p` is
four times the ellipse's equation at the midpoint `(x + 1/2, y - 1)` (R193). -/
structure EllipseWalk.Region2 (a2 b2 : Int) (w : EllipseWalk) : Prop where
  px : w.px = 2 * b2 * w.x
  py : w.py = 2 * a2 * w.y
  p : w.p = b2 * (2 * w.x + 1) ^ 2 + 4 * a2 * (w.y - 1) ^ 2 - 4 * a2 * b2
  steep : w.py ≤ w.px

/-- Region 2 starts where region 1 is over (R193). -/
theorem EllipseWalk.Region1.enter2 {a2 b2 b k : Int} {w : EllipseWalk} (h : w.Region1 a2 b2 b k)
    (hc : ¬w.px < w.py) : (w.enter2 a2 b2).Region2 a2 b2 :=
  ⟨h.px.trans (by rw [← h.x]; rfl), h.py, rfl, not_lt.1 hc⟩

theorem EllipseWalk.Region2.step2 {a2 b2 : Int} {w : EllipseWalk} (ha : 0 ≤ a2) (hb : 0 ≤ b2)
    (h : w.Region2 a2 b2) : (w.step2 a2 b2).Region2 a2 b2 := by
  have := h.steep
  simp only [EllipseWalk.step2]
  split
  · exact ⟨h.px, by simp only [h.py]; ring, by simp only [h.p, h.py]; ring,
      by show w.py - 2 * a2 ≤ w.px; omega⟩
  · exact ⟨by simp only [h.px]; ring, by simp only [h.py]; ring, by simp only [h.p, h.px, h.py]; ring,
      by show w.py - 2 * a2 ≤ w.px + 2 * b2; omega⟩

/-- The points of region 2 (R193). -/
theorem mem_region2 (a2 b2 b : Int) (n : Nat) (w : EllipseWalk) (hx : 0 ≤ w.x) (hy : w.y ≤ b) :
    ∀ p ∈ region2 a2 b2 n w, 0 ≤ p.1 ∧ 0 ≤ p.2 ∧ p.2 ≤ b := by
  induction n generalizing w with
  | zero => intro p hp; cases hp
  | succ n ih =>
    intro p hp
    simp only [region2] at hp
    split at hp
    · rcases List.mem_cons.1 hp with rfl | hp
      · exact ⟨hx, ‹_›, hy⟩
      · exact ih _ (hx.trans (w.le_step2_x a2 b2)) (by simp; omega) p hp
    · cases hp

/-! ## The span table -/

/-- A cell of the table covers column `px`. -/
def cellCovers (cell : Option (Int × Int)) (px : Int) : Prop :=
  ∃ l r, cell = some (l, r) ∧ l ≤ px ∧ px ≤ r

/-- A cell's span is centred on column `cx`. -/
def cellCentred (cx : Int) (cell : Option (Int × Int)) : Prop :=
  ∀ l r, cell = some (l, r) → l + r = 2 * cx ∧ l ≤ r

/-- Merging a centred span into a centred cell covers what either covers. -/
theorem mergeRow_covers {cx x : Int} {cell : Option (Int × Int)} (hs : cellCentred cx cell) (hx : 0 ≤ x) :
    cellCentred cx (mergeRow (cx - x) (cx + x) cell) ∧ ∀ px,
      cellCovers (mergeRow (cx - x) (cx + x) cell) px ↔
        cellCovers cell px ∨ ((px - cx).natAbs : Int) ≤ x := by
  cases cell with
  | none =>
    refine ⟨fun l r h => ?_, fun px => ⟨?_, ?_⟩⟩
    · cases h; exact ⟨by ring, by omega⟩
    · rintro ⟨l, r, h, h1, h2⟩; cases h; right; omega
    · rintro (⟨l, r, h, -⟩ | h)
      · cases h
      · exact ⟨_, _, rfl, by omega, by omega⟩
  | some lr =>
    obtain ⟨l, r⟩ := lr
    have := hs l r rfl
    refine ⟨fun l' r' h => ?_, fun px => ⟨?_, ?_⟩⟩
    · cases h; omega
    · rintro ⟨l', r', h, h1, h2⟩
      cases h
      by_cases hh : l ≤ px ∧ px ≤ r
      · exact .inl ⟨l, r, rfl, hh⟩
      · right; omega
    · rintro (⟨l', r', h, h1, h2⟩ | h)
      · cases h; exact ⟨_, _, rfl, by omega, by omega⟩
      · exact ⟨_, _, rfl, by omega, by omega⟩

/-- The table's shape: 224 cells, each centred on `cx`. -/
structure TableOk (cx : Int) (t : SpanTable) : Prop where
  rows : t.length = 224
  centred : ∀ sy, cellCentred cx (t.getD sy none)

theorem getD_emptyTable (n sy : Nat) :
    (List.replicate n (none : Option (Int × Int))).getD sy none = none := by
  rw [List.getD_eq_getElem?_getD, List.getElem?_replicate]; split <;> rfl

theorem tableOk_empty (cx : Int) : TableOk cx (List.replicate Config.screenH none) :=
  ⟨List.length_replicate .., fun sy l r h => by rw [getD_emptyTable] at h; cases h⟩

/-- What recording one row adds to the table (R195). -/
theorem recordRow_covers (clip : Clip) {cx x : Int} (yy : Int) {t : SpanTable} (ht : TableOk cx t)
    (hx : 0 ≤ x) : TableOk cx (recordRow clip (cx - x) (cx + x) yy t) ∧ ∀ sy < 224, ∀ px,
      cellCovers ((recordRow clip (cx - x) (cx + x) yy t).getD sy none) px ↔
        cellCovers (t.getD sy none) px ∨ ((sy : Int) = clip.top + yy ∧ 0 ≤ yy ∧ yy < clip.height ∧
          ((px - cx).natAbs : Int) ≤ x) := by
  unfold recordRow
  split
  · rename_i hc
    have hc4 : clip.top + yy < 224 := hc.2.2.2
    refine ⟨⟨by simpa using ht.rows, fun sy => ?_⟩, fun sy hsy px => ?_⟩
    · have hs := ht.centred sy
      simp only [List.getD_eq_getElem?_getD, List.getElem?_modify] at hs ⊢
      cases h : t[sy]? with
      | none => simp [cellCentred]
      | some cell =>
        rw [h] at hs
        by_cases e : (clip.top + yy).toNat = sy
        · simpa [e] using (mergeRow_covers (cell := cell) (by simpa using hs) hx).1
        · simpa [e] using hs
    · have hs := ht.centred sy
      have hlen := ht.rows
      simp only [List.getD_eq_getElem?_getD, List.getElem?_modify] at hs ⊢
      rw [List.getElem?_eq_getElem (by omega)] at hs ⊢
      by_cases e : (clip.top + yy).toNat = sy
      · simp only [e, if_true, Option.getD_some] at hs ⊢
        show cellCovers (mergeRow (cx - x) (cx + x) t[sy]) px ↔ _
        rw [(mergeRow_covers hs hx).2]
        constructor
        · rintro (h | h)
          · exact .inl h
          · exact .inr ⟨by omega, hc.1, hc.2.1, h⟩
        · rintro (h | h)
          · exact .inl h
          · exact .inr h.2.2.2
      · simp only [e, if_false, Option.getD_some]
        simp
        intro h
        omega
  · rename_i hc
    refine ⟨ht, fun sy hsy px => ⟨.inl, ?_⟩⟩
    rintro (h | h)
    · exact h
    · refine absurd ⟨h.2.1, h.2.2.1, by omega, ?_⟩ hc
      show clip.top + yy < 224
      omega

/-- What recording one point adds to the table: its two rows (R195). -/
theorem recordPoint_covers (clip : Clip) {cx : Int} (cy : Int) {t : SpanTable} {p : Point}
    (ht : TableOk cx t) (hx : 0 ≤ p.1) : TableOk cx (recordPoint clip cx cy t p) ∧ ∀ sy < 224, ∀ px,
      cellCovers ((recordPoint clip cx cy t p).getD sy none) px ↔ cellCovers (t.getD sy none) px ∨
        (((sy : Int) - clip.top = cy + p.2 ∨ (sy : Int) - clip.top = cy - p.2) ∧
          0 ≤ (sy : Int) - clip.top ∧ (sy : Int) - clip.top < clip.height ∧
          ((px - cx).natAbs : Int) ≤ p.1) := by
  obtain ⟨h1, h2⟩ := recordRow_covers clip (cy + p.2) ht hx
  unfold recordPoint
  simp only
  split
  · rename_i h0
    refine ⟨h1, fun sy hsy px => ?_⟩
    rw [h2 sy hsy px, h0]
    constructor
    · rintro (h | h)
      · exact .inl h
      · right; omega
    · rintro (h | h)
      · exact .inl h
      · right; omega
  · obtain ⟨g1, g2⟩ := recordRow_covers clip (cy - p.2) h1 hx
    refine ⟨g1, fun sy hsy px => ?_⟩
    rw [g2 sy hsy px, h2 sy hsy px]
    constructor
    · rintro ((h | h) | h)
      · exact .inl h
      · right; omega
      · right; omega
    · rintro (h | ⟨h | h, h'⟩)
      · exact .inl (.inl h)
      · left; right; omega
      · right; omega

/-- What recording a list of points adds to the table (R195). -/
theorem recordPoints_covers (clip : Clip) {cx : Int} (cy : Int) (pts : List Point) {t : SpanTable}
    (ht : TableOk cx t) (hx : ∀ p ∈ pts, 0 ≤ p.1) {sy : Nat} (hsy : sy < 224) (px : Int) :
    cellCovers ((pts.foldl (recordPoint clip cx cy) t).getD sy none) px ↔
      cellCovers (t.getD sy none) px ∨ ∃ p ∈ pts,
        ((sy : Int) - clip.top = cy + p.2 ∨ (sy : Int) - clip.top = cy - p.2) ∧
          0 ≤ (sy : Int) - clip.top ∧ (sy : Int) - clip.top < clip.height ∧
          ((px - cx).natAbs : Int) ≤ p.1 := by
  induction pts generalizing t with
  | nil => simp
  | cons p pts ih =>
    obtain ⟨h1, h2⟩ := recordPoint_covers clip cy ht (hx p (by simp))
    rw [List.foldl_cons, ih h1 (fun q hq => hx q (by simp [hq])), h2 sy hsy px]
    simp only [List.mem_cons, exists_eq_or_imp, or_assoc]

/-- A pixel of the rectangle is on a span of the table exactly when its row's cell covers its column
(R196). -/
theorem tableSpans_covers (clip : Clip) (t : SpanTable) {p : Point} {sy : Nat} (hsy : sy < 224)
    (hp : (sy : Int) = clip.top + p.2) :
    (∃ sp ∈ tableSpans clip t, p.2 = sp.y ∧ sp.l ≤ p.1 ∧ p.1 ≤ sp.r) ↔
      cellCovers (t.getD sy none) p.1 := by
  simp only [mem_tableSpans]
  constructor
  · rintro ⟨sp, ⟨sy', -, l, r, ht, rfl⟩, hy, hl, hr⟩
    simp only at hy hl hr
    obtain rfl : sy' = sy := by omega
    exact ⟨l, r, ht, hl, hr⟩
  · rintro ⟨l, r, ht, hl, hr⟩
    exact ⟨⟨(sy : Int) - clip.top, l, r⟩, ⟨sy, hsy, l, r, ht, rfl⟩,
      by show p.2 = (sy : Int) - clip.top; omega, hl, hr⟩

end Sys2Proof.Machine
end

