-- ==== Sys2Proof/Laws/State.lean ====
section
/-! SUPPORT. One lemma per field per update of the state, so that no proof unfolds a record update. -/

namespace Sys2Proof.Machine

/-! ## canvas -/

@[simp] theorem canvas_clip (s : State) : s.canvas.clip = s.clip := rfl

@[simp] theorem canvas_draw (s : State) : s.canvas.draw = s.fbDraw := rfl

/-! ## retire -/

@[simp] theorem retire_errIE (s : State) (n : Nat) : (s.retire n).errIE = s.errIE := rfl

@[simp] theorem retire_idleIE (s : State) (n : Nat) : (s.retire n).idleIE = s.idleIE := rfl

@[simp] theorem retire_clip (s : State) (n : Nat) : (s.retire n).clip = s.clip := rfl

@[simp] theorem retire_mode (s : State) (n : Nat) : (s.retire n).mode = s.mode := rfl

@[simp] theorem retire_errCode (s : State) (n : Nat) : (s.retire n).errCode = s.errCode := rfl

@[simp] theorem retire_errInfo (s : State) (n : Nat) : (s.retire n).errInfo = s.errInfo := rfl

@[simp] theorem retire_fifo (s : State) (n : Nat) : (s.retire n).fifo = s.fifo := rfl

@[simp] theorem retire_latch (s : State) (n : Nat) : (s.retire n).latch = [] := rfl

@[simp] theorem retire_cmdPos (s : State) (n : Nat) : (s.retire n).cmdPos = s.cmdPos + n := rfl

@[simp] theorem retire_fb (s : State) (n : Nat) : (s.retire n).fb = s.fb := rfl

@[simp] theorem retire_resetIn (s : State) (n : Nat) : (s.retire n).resetIn = s.resetIn := rfl

@[simp] theorem retire_masters (s : State) (n : Nat) : (s.retire n).masters = s.masters := rfl

@[simp] theorem retire_waiting (s : State) (n : Nat) : (s.retire n).waiting = s.waiting := rfl

@[simp] theorem retire_schedule (s : State) (n : Nat) : (s.retire n).schedule = s.schedule := rfl

@[simp] theorem retire_fbDraw (s : State) (n : Nat) : (s.retire n).fbDraw = s.fbDraw := rfl

@[simp] theorem retire_readDraw (s : State) (n : Nat) : (s.retire n).readDraw = s.readDraw := rfl

/-! ## paint -/

@[simp] theorem paint_errIE (s : State) (n : Nat) (f : Canvas → Memory → Memory) :
    (s.paint n f).errIE = s.errIE := rfl

@[simp] theorem paint_idleIE (s : State) (n : Nat) (f : Canvas → Memory → Memory) :
    (s.paint n f).idleIE = s.idleIE := rfl

@[simp] theorem paint_clip (s : State) (n : Nat) (f : Canvas → Memory → Memory) :
    (s.paint n f).clip = s.clip := rfl

@[simp] theorem paint_mode (s : State) (n : Nat) (f : Canvas → Memory → Memory) :
    (s.paint n f).mode = s.mode := rfl

@[simp] theorem paint_errCode (s : State) (n : Nat) (f : Canvas → Memory → Memory) :
    (s.paint n f).errCode = s.errCode := rfl

@[simp] theorem paint_errInfo (s : State) (n : Nat) (f : Canvas → Memory → Memory) :
    (s.paint n f).errInfo = s.errInfo := rfl

@[simp] theorem paint_fifo (s : State) (n : Nat) (f : Canvas → Memory → Memory) :
    (s.paint n f).fifo = s.fifo := rfl

@[simp] theorem paint_latch (s : State) (n : Nat) (f : Canvas → Memory → Memory) :
    (s.paint n f).latch = [] := rfl

@[simp] theorem paint_cmdPos (s : State) (n : Nat) (f : Canvas → Memory → Memory) :
    (s.paint n f).cmdPos = s.cmdPos + n := rfl

@[simp] theorem paint_fb (s : State) (n : Nat) (f : Canvas → Memory → Memory) :
    (s.paint n f).fb = f s.canvas s.fb := rfl

@[simp] theorem paint_resetIn (s : State) (n : Nat) (f : Canvas → Memory → Memory) :
    (s.paint n f).resetIn = s.resetIn := rfl

@[simp] theorem paint_masters (s : State) (n : Nat) (f : Canvas → Memory → Memory) :
    (s.paint n f).masters = s.masters := rfl

@[simp] theorem paint_waiting (s : State) (n : Nat) (f : Canvas → Memory → Memory) :
    (s.paint n f).waiting = s.waiting := rfl

@[simp] theorem paint_schedule (s : State) (n : Nat) (f : Canvas → Memory → Memory) :
    (s.paint n f).schedule = s.schedule := rfl

@[simp] theorem paint_fbDraw (s : State) (n : Nat) (f : Canvas → Memory → Memory) :
    (s.paint n f).fbDraw = s.fbDraw := rfl

@[simp] theorem paint_readDraw (s : State) (n : Nat) (f : Canvas → Memory → Memory) :
    (s.paint n f).readDraw = s.readDraw := rfl

/-! ## raiseCmdError -/

@[simp] theorem raiseCmdError_errIE (e : CmdError) (h : Word) (s : State) :
    (raiseCmdError e h s).errIE = s.errIE := rfl

@[simp] theorem raiseCmdError_idleIE (e : CmdError) (h : Word) (s : State) :
    (raiseCmdError e h s).idleIE = s.idleIE := rfl

@[simp] theorem raiseCmdError_clip (e : CmdError) (h : Word) (s : State) :
    (raiseCmdError e h s).clip = s.clip := rfl

@[simp] theorem raiseCmdError_mode (e : CmdError) (h : Word) (s : State) :
    (raiseCmdError e h s).mode = .halted := rfl

@[simp] theorem raiseCmdError_errCode (e : CmdError) (h : Word) (s : State) :
    (raiseCmdError e h s).errCode = e.code := rfl

@[simp] theorem raiseCmdError_errInfo (e : CmdError) (h : Word) (s : State) :
    (raiseCmdError e h s).errInfo = h := rfl

@[simp] theorem raiseCmdError_fifo (e : CmdError) (h : Word) (s : State) :
    (raiseCmdError e h s).fifo = [] := rfl

@[simp] theorem raiseCmdError_latch (e : CmdError) (h : Word) (s : State) :
    (raiseCmdError e h s).latch = [] := rfl

@[simp] theorem raiseCmdError_cmdPos (e : CmdError) (h : Word) (s : State) :
    (raiseCmdError e h s).cmdPos = s.cmdPos := rfl

@[simp] theorem raiseCmdError_fb (e : CmdError) (h : Word) (s : State) :
    (raiseCmdError e h s).fb = s.fb := rfl

@[simp] theorem raiseCmdError_resetIn (e : CmdError) (h : Word) (s : State) :
    (raiseCmdError e h s).resetIn = s.resetIn := rfl

@[simp] theorem raiseCmdError_masters (e : CmdError) (h : Word) (s : State) :
    (raiseCmdError e h s).masters = s.masters := rfl

@[simp] theorem raiseCmdError_waiting (e : CmdError) (h : Word) (s : State) :
    (raiseCmdError e h s).waiting = s.waiting := rfl

@[simp] theorem raiseCmdError_schedule (e : CmdError) (h : Word) (s : State) :
    (raiseCmdError e h s).schedule = s.schedule := rfl

@[simp] theorem raiseCmdError_fbDraw (e : CmdError) (h : Word) (s : State) :
    (raiseCmdError e h s).fbDraw = s.fbDraw := rfl

@[simp] theorem raiseCmdError_readDraw (e : CmdError) (h : Word) (s : State) :
    (raiseCmdError e h s).readDraw = s.readDraw := rfl

/-! ## resetEngine -/

@[simp] theorem resetEngine_errIE (s : State) : s.resetEngine.errIE = false := rfl

@[simp] theorem resetEngine_idleIE (s : State) : s.resetEngine.idleIE = false := rfl

@[simp] theorem resetEngine_clip (s : State) : s.resetEngine.clip = Clip.reset := rfl

@[simp] theorem resetEngine_mode (s : State) : s.resetEngine.mode = .run := rfl

@[simp] theorem resetEngine_errCode (s : State) : s.resetEngine.errCode = 0#4 := rfl

@[simp] theorem resetEngine_errInfo (s : State) : s.resetEngine.errInfo = 0#32 := rfl

@[simp] theorem resetEngine_fifo (s : State) : s.resetEngine.fifo = [] := rfl

@[simp] theorem resetEngine_latch (s : State) : s.resetEngine.latch = [] := rfl

@[simp] theorem resetEngine_cmdPos (s : State) : s.resetEngine.cmdPos = 0 := rfl

@[simp] theorem resetEngine_fb (s : State) : s.resetEngine.fb = s.fb := rfl

@[simp] theorem resetEngine_resetIn (s : State) : s.resetEngine.resetIn = s.resetIn := rfl

@[simp] theorem resetEngine_masters (s : State) : s.resetEngine.masters = s.masters := rfl

@[simp] theorem resetEngine_waiting (s : State) : s.resetEngine.waiting = s.waiting := rfl

@[simp] theorem resetEngine_schedule (s : State) : s.resetEngine.schedule = s.schedule := rfl

@[simp] theorem resetEngine_fbDraw (s : State) : s.resetEngine.fbDraw = s.fbDraw := rfl

@[simp] theorem resetEngine_readDraw (s : State) : s.resetEngine.readDraw = s.readDraw := rfl

/-! ## freeFramebuffer -/

@[simp] theorem freeFramebuffer_errIE (s : State) : s.freeFramebuffer.errIE = s.errIE := rfl

@[simp] theorem freeFramebuffer_idleIE (s : State) : s.freeFramebuffer.idleIE = s.idleIE := rfl

@[simp] theorem freeFramebuffer_clip (s : State) : s.freeFramebuffer.clip = s.clip := rfl

@[simp] theorem freeFramebuffer_mode (s : State) : s.freeFramebuffer.mode = s.mode := rfl

@[simp] theorem freeFramebuffer_errCode (s : State) : s.freeFramebuffer.errCode = s.errCode := rfl

@[simp] theorem freeFramebuffer_errInfo (s : State) : s.freeFramebuffer.errInfo = s.errInfo := rfl

@[simp] theorem freeFramebuffer_fifo (s : State) : s.freeFramebuffer.fifo = s.fifo := rfl

@[simp] theorem freeFramebuffer_latch (s : State) : s.freeFramebuffer.latch = s.latch := rfl

@[simp] theorem freeFramebuffer_cmdPos (s : State) : s.freeFramebuffer.cmdPos = s.cmdPos := rfl

@[simp] theorem freeFramebuffer_fb (s : State) : s.freeFramebuffer.fb = [] := rfl

@[simp] theorem freeFramebuffer_resetIn (s : State) : s.freeFramebuffer.resetIn = s.resetIn := rfl

@[simp] theorem freeFramebuffer_masters (s : State) : s.freeFramebuffer.masters = s.masters := rfl

@[simp] theorem freeFramebuffer_waiting (s : State) : s.freeFramebuffer.waiting = s.waiting := rfl

@[simp] theorem freeFramebuffer_schedule (s : State) :
    s.freeFramebuffer.schedule = s.schedule := rfl

@[simp] theorem freeFramebuffer_fbDraw (s : State) :
    s.freeFramebuffer.fbDraw = s.fbDraw + 1 := rfl

@[simp] theorem freeFramebuffer_readDraw (s : State) :
    s.freeFramebuffer.readDraw = s.readDraw := rfl

/-! ## softReset -/

@[simp] theorem softReset_errIE (s : State) : (softReset s).errIE = false := by
  unfold softReset; split <;> rfl

@[simp] theorem softReset_idleIE (s : State) : (softReset s).idleIE = false := by
  unfold softReset; split <;> rfl

@[simp] theorem softReset_clip (s : State) : (softReset s).clip = Clip.reset := by
  unfold softReset; split <;> rfl

@[simp] theorem softReset_mode (s : State) : (softReset s).mode = .run := by
  unfold softReset; split <;> rfl

@[simp] theorem softReset_errCode (s : State) : (softReset s).errCode = 0#4 := by
  unfold softReset; split <;> rfl

@[simp] theorem softReset_errInfo (s : State) : (softReset s).errInfo = 0#32 := by
  unfold softReset; split <;> rfl

@[simp] theorem softReset_fifo (s : State) : (softReset s).fifo = [] := by
  unfold softReset; split <;> rfl

@[simp] theorem softReset_latch (s : State) : (softReset s).latch = [] := by
  unfold softReset; split <;> rfl

@[simp] theorem softReset_cmdPos (s : State) : (softReset s).cmdPos = 0 := by
  unfold softReset; split <;> rfl

@[simp] theorem softReset_resetIn (s : State) : (softReset s).resetIn = s.resetIn := by
  unfold softReset; split <;> rfl

@[simp] theorem softReset_masters (s : State) : (softReset s).masters = s.masters := by
  unfold softReset; split <;> rfl

@[simp] theorem softReset_waiting (s : State) : (softReset s).waiting = s.waiting := by
  unfold softReset; split <;> rfl

@[simp] theorem softReset_schedule (s : State) : (softReset s).schedule = s.schedule := by
  unfold softReset; split <;> rfl

@[simp] theorem softReset_readDraw (s : State) : (softReset s).readDraw = s.readDraw := by
  unfold softReset; split <;> rfl

theorem softReset_fb (s : State) : (softReset s).fb = if s.busy then [] else s.fb := by
  unfold softReset; split <;> rfl

theorem softReset_fbDraw (s : State) :
    (softReset s).fbDraw = if s.busy then s.fbDraw + 1 else s.fbDraw := by
  unfold softReset; split <;> rfl

/-! ## complete -/

@[simp] theorem complete_errIE (s : State) (k : Nat) (r : BusResp) :
    (s.complete k r).errIE = s.errIE := rfl

@[simp] theorem complete_idleIE (s : State) (k : Nat) (r : BusResp) :
    (s.complete k r).idleIE = s.idleIE := rfl

@[simp] theorem complete_clip (s : State) (k : Nat) (r : BusResp) :
    (s.complete k r).clip = s.clip := rfl

@[simp] theorem complete_mode (s : State) (k : Nat) (r : BusResp) :
    (s.complete k r).mode = s.mode := rfl

@[simp] theorem complete_errCode (s : State) (k : Nat) (r : BusResp) :
    (s.complete k r).errCode = s.errCode := rfl

@[simp] theorem complete_errInfo (s : State) (k : Nat) (r : BusResp) :
    (s.complete k r).errInfo = s.errInfo := rfl

@[simp] theorem complete_fifo (s : State) (k : Nat) (r : BusResp) :
    (s.complete k r).fifo = s.fifo := rfl

@[simp] theorem complete_latch (s : State) (k : Nat) (r : BusResp) :
    (s.complete k r).latch = s.latch := rfl

@[simp] theorem complete_cmdPos (s : State) (k : Nat) (r : BusResp) :
    (s.complete k r).cmdPos = s.cmdPos := rfl

@[simp] theorem complete_fb (s : State) (k : Nat) (r : BusResp) : (s.complete k r).fb = s.fb := rfl

@[simp] theorem complete_resetIn (s : State) (k : Nat) (r : BusResp) :
    (s.complete k r).resetIn = s.resetIn := rfl

@[simp] theorem complete_masters (s : State) (k : Nat) (r : BusResp) :
    (s.complete k r).masters = s.masters.modify k fun m =>
      { requests := m.requests.tail, responses := r :: m.responses } := rfl

@[simp] theorem complete_waiting (s : State) (k : Nat) (r : BusResp) :
    (s.complete k r).waiting = s.waiting := rfl

@[simp] theorem complete_schedule (s : State) (k : Nat) (r : BusResp) :
    (s.complete k r).schedule = s.schedule := rfl

@[simp] theorem complete_fbDraw (s : State) (k : Nat) (r : BusResp) :
    (s.complete k r).fbDraw = s.fbDraw := rfl

@[simp] theorem complete_readDraw (s : State) (k : Nat) (r : BusResp) :
    (s.complete k r).readDraw = s.readDraw := rfl

/-! ## renewReads -/

@[simp] theorem renewReads_errIE (s : State) : s.renewReads.errIE = s.errIE := rfl

@[simp] theorem renewReads_idleIE (s : State) : s.renewReads.idleIE = s.idleIE := rfl

@[simp] theorem renewReads_clip (s : State) : s.renewReads.clip = s.clip := rfl

@[simp] theorem renewReads_mode (s : State) : s.renewReads.mode = s.mode := rfl

@[simp] theorem renewReads_errCode (s : State) : s.renewReads.errCode = s.errCode := rfl

@[simp] theorem renewReads_errInfo (s : State) : s.renewReads.errInfo = s.errInfo := rfl

@[simp] theorem renewReads_fifo (s : State) : s.renewReads.fifo = s.fifo := rfl

@[simp] theorem renewReads_latch (s : State) : s.renewReads.latch = s.latch := rfl

@[simp] theorem renewReads_cmdPos (s : State) : s.renewReads.cmdPos = s.cmdPos := rfl

@[simp] theorem renewReads_fb (s : State) : s.renewReads.fb = s.fb := rfl

@[simp] theorem renewReads_resetIn (s : State) : s.renewReads.resetIn = s.resetIn := rfl

@[simp] theorem renewReads_masters (s : State) : s.renewReads.masters = s.masters := rfl

@[simp] theorem renewReads_waiting (s : State) : s.renewReads.waiting = s.waiting := rfl

@[simp] theorem renewReads_schedule (s : State) : s.renewReads.schedule = s.schedule := rfl

@[simp] theorem renewReads_fbDraw (s : State) : s.renewReads.fbDraw = s.fbDraw := rfl

@[simp] theorem renewReads_readDraw (s : State) : s.renewReads.readDraw = s.readDraw + 1 := rfl

@[simp] theorem renewReads_busy (s : State) : s.renewReads.busy = s.busy := rfl

@[simp] theorem renewReads_err (s : State) : s.renewReads.err = s.err := rfl

/-! ## assertReset -/

@[simp] theorem assertReset_errIE (s : State) : (assertReset s).errIE = false := rfl

@[simp] theorem assertReset_idleIE (s : State) : (assertReset s).idleIE = false := rfl

@[simp] theorem assertReset_clip (s : State) : (assertReset s).clip = Clip.reset := rfl

@[simp] theorem assertReset_mode (s : State) : (assertReset s).mode = .run := rfl

@[simp] theorem assertReset_errCode (s : State) : (assertReset s).errCode = 0#4 := rfl

@[simp] theorem assertReset_errInfo (s : State) : (assertReset s).errInfo = 0#32 := rfl

@[simp] theorem assertReset_fifo (s : State) : (assertReset s).fifo = [] := rfl

@[simp] theorem assertReset_latch (s : State) : (assertReset s).latch = [] := rfl

@[simp] theorem assertReset_cmdPos (s : State) : (assertReset s).cmdPos = 0 := rfl

@[simp] theorem assertReset_fb (s : State) : (assertReset s).fb = [] := rfl

@[simp] theorem assertReset_resetIn (s : State) : (assertReset s).resetIn = true := rfl

@[simp] theorem assertReset_masters (s : State) : (assertReset s).masters = s.masters := rfl

@[simp] theorem assertReset_waiting (s : State) : (assertReset s).waiting = s.waiting := rfl

@[simp] theorem assertReset_schedule (s : State) : (assertReset s).schedule = s.schedule := rfl

@[simp] theorem assertReset_fbDraw (s : State) : (assertReset s).fbDraw = s.fbDraw + 1 := rfl

@[simp] theorem assertReset_readDraw (s : State) : (assertReset s).readDraw = s.readDraw := rfl

end Sys2Proof.Machine
end

