-- ==== Sys2Proof/Laws/Exec.lean ====
section
/-! SUPPORT. What executing a command can do, said once: it completes and draws, or sets the clipping
rectangle, or raises a command error (30_encoding.md R95, 60_exceptions.md R232). -/

namespace Sys2Proof.Machine

/-- The ways a command can change the state. -/
inductive ExecEffect (i : Instr) (s : State) : State → Prop where
  /-- It draws (or, for NOP, does nothing) and is retired. -/
  | draws (words : Nat) (rgb : Rgb) (m : Memory) (h : DrawnFrom s.canvas rgb s.fb m) :
      ExecEffect i s ({ s with fb := m }.retire words)
  /-- It sets the clipping rectangle and is retired. -/
  | setsClip (a : Bool) (rsv : BitVec 3) (rgb : Rgb) (org : XY) (size : WH)
      (h : i = .setclip a rsv rgb org size) :
      ExecEffect i s ({ s with clip := clipOf org size }.retire 3)
  /-- It raises a command error with its header. -/
  | raises (e : CmdError) : ExecEffect i s (raiseCmdError e i.header s)

/-- The one lemma about POLY's and OUTLINE's check of the vertex count. -/
theorem execCounted_eq (cnt : Cnt) (h : Word) (f : Canvas → Memory → Memory) (s : State) :
    execCounted cnt h f s =
      .next (if cnt.legal then s.paint (2 + cnt.n.toNat) f else raiseCmdError .badVertexCount h s) := by
  unfold execCounted
  split <;> simp_all

theorem ExecEffect.paint (i : Instr) (s : State) (words : Nat) (rgb : Rgb)
    (f : Canvas → Memory → Memory) (h : DrawnFrom s.canvas rgb s.fb (f s.canvas s.fb)) :
    ExecEffect i s (s.paint words f) := .draws words rgb _ h

theorem execCounted_effect (i : Instr) (cnt : Cnt) (s : State) (rgb : Rgb)
    (f : Canvas → Memory → Memory) (h : DrawnFrom s.canvas rgb s.fb (f s.canvas s.fb)) :
    ∃ t, execCounted cnt i.header f s = .next t ∧ ExecEffect i s t := by
  rw [execCounted_eq]
  refine ⟨_, rfl, ?_⟩
  split
  · exact .paint i s _ rgb f h
  · exact .raises _

/-- Every command completes in every state, in one of the three ways. -/
theorem exec_total (i : Instr) (s : State) : ∃ t, exec i s = .next t ∧ ExecEffect i s t := by
  cases i with
  | nop a rsv rgb => exact ⟨_, rfl, .draws 1 rgb s.fb .refl⟩
  | point a rsv rgb p => exact ⟨_, rfl, .paint _ s 2 rgb _ (.plotPixel _ _)⟩
  | line a rsv rgb p1 p2 => exact ⟨_, rfl, .paint _ s 3 rgb _ (.drawLine _ _)⟩
  | poly rsv rgb cnt vs =>
    exact execCounted_effect (.poly rsv rgb cnt vs) cnt s rgb _ (.drawPoly _ _)
  | polyA rsv rgb cnt vs =>
    exact execCounted_effect (.polyA rsv rgb cnt vs) cnt s rgb _ (.drawPoly _ _)
  | outline a rsv rgb cnt vs =>
    exact execCounted_effect (.outline a rsv rgb cnt vs) cnt s rgb _ (.plotAll _ _)
  | ellipse rsv rgb c r => exact ⟨_, rfl, .paint _ s 3 rgb _ (.drawEllipse _ _ _)⟩
  | ellipseA rsv rgb c r => exact ⟨_, rfl, .paint _ s 3 rgb _ (.drawEllipse _ _ _)⟩
  | span rsv rgb xs row => exact ⟨_, rfl, .paint _ s 3 rgb _ (.fillSpan _ _)⟩
  | spanA rsv rgb xs row => exact ⟨_, rfl, .paint _ s 3 rgb _ (.fillSpan _ _)⟩
  | clear a rsv rgb => exact ⟨_, rfl, .paint _ s 1 rgb _ .drawClear⟩
  | setclip a rsv rgb org size => exact ⟨_, rfl, .setsClip a rsv rgb org size rfl⟩
  | illegal9 low => exact ⟨_, rfl, .raises _⟩
  | illegalAB low => exact ⟨_, rfl, .raises _⟩
  | illegalCF low => exact ⟨_, rfl, .raises _⟩

/-- What executing a command can do, if it answers a next state. -/
theorem exec_effect {i : Instr} {s t : State} (h : exec i s = .next t) : ExecEffect i s t := by
  obtain ⟨t', ht, he⟩ := exec_total i s
  rw [h] at ht
  cases ht
  exact he

/-- A command reads neither the FIFO, nor the latch, nor the draw for reads while busy: started from others of
them it does the same, and only an error empties the FIFO. -/
def SameButForQueues (run : State → Host.Outcome State Fault Refusal) (s : State) : Prop :=
  ∀ (f l : List Word) (d : Nat), ∃ t, run s = .next t ∧ t.latch = [] ∧ t.readDraw = s.readDraw ∧
    ((t.mode = s.mode ∧ t.fifo = s.fifo ∧
        run { s with fifo := f, latch := l, readDraw := d } = .next { t with fifo := f, readDraw := d }) ∨
      (t.mode = .halted ∧ t.fifo = [] ∧
        run { s with fifo := f, latch := l, readDraw := d } = .next { t with readDraw := d }))

theorem execCounted_sameButForQueues (cnt : Cnt) (h : Word) (f : Canvas → Memory → Memory) (s : State) :
    SameButForQueues (execCounted cnt h f) s := by
  intro fifo l d
  simp only [execCounted_eq]
  split
  · exact ⟨_, rfl, rfl, rfl, .inl ⟨rfl, rfl, rfl⟩⟩
  · exact ⟨_, rfl, rfl, rfl, .inr ⟨rfl, rfl, rfl⟩⟩

theorem exec_sameButForQueues (i : Instr) (s : State) : SameButForQueues (exec i) s := by
  cases i with
  | poly | polyA | outline => exact execCounted_sameButForQueues _ _ _ s
  | illegal9 | illegalAB | illegalCF => exact fun _ _ _ => ⟨_, rfl, rfl, rfl, .inr ⟨rfl, rfl, rfl⟩⟩
  | nop | point | line | ellipse | ellipseA | span | spanA | clear | setclip =>
    exact fun _ _ _ => ⟨_, rfl, rfl, rfl, .inl ⟨rfl, rfl, rfl⟩⟩

/-! ## From what bytes read as to what pixels hold -/

theorem targetOf_pixel (s : State) {sx sy c : Nat} (hx : sx < 256) (hy : sy < 224) (hc : c < 4) :
    targetOf s.clip (fbOff sx sy c) =
      if s.insideClip (s.clipPoint sx sy) then some (s.clipPoint sx sy) else none := by
  rw [targetOf_eq]
  have e1 : (fbOff sx sy c - 262144) / 4 % 256 = sx := by unfold fbOff; omega
  have e2 : (fbOff sx sy c - 262144) / 4 / 256 = sy := by unfold fbOff; omega
  have e3 : 262144 ≤ fbOff sx sy c ∧ fbOff sx sy c < 491520 := by unfold fbOff; omega
  simp only [e1, e2, e3.1, e3.2, true_and, inClip_iff]
  have : ((0 ≤ (sx : Int) - s.clip.left ∧ (sx : Int) - s.clip.left < s.clip.width) ∧
      0 ≤ (sy : Int) - s.clip.top ∧ (sy : Int) - s.clip.top < s.clip.height) ↔
      s.insideClip (s.clipPoint sx sy) := by
    simp only [State.insideClip, State.clipPoint, Clip.left, Clip.top, Clip.width, Clip.height,
      sext16, zext16]
    tauto
  simp only [this]
  rfl

/-- A drawing whose bytes are new exactly where their point is covered paints the covered pixels. -/
theorem paints_of_read {i : Instr} {words : Nat} {s : State} {f : Canvas → Memory → Memory} {rgb : Rgb}
    {bl : Bool} {covered : Point → Prop} (he : exec i s = .next (s.paint words f))
    (hr : ∀ x, (∃ p, targetOf s.clip x = some p ∧ covered p) →
      (f s.canvas s.fb).read x = some (pixelByte rgb bl x (byteAt s.fbDraw s.fb x)))
    (hn : ∀ x, (¬∃ p, targetOf s.clip x = some p ∧ covered p) →
      (f s.canvas s.fb).read x = s.fb.read x) :
    Paints i words s covered (if bl then blendedPixel rgb else opaquePixel rgb) := by
  classical
  refine ⟨_, he, ⟨rfl, fun x hx => hn x ?_⟩, fun sx sy hx hy => ?_⟩
  · rintro ⟨p, hp, -⟩
    have := targetOf_inWindow hp
    omega
  have hbyte : ∀ c < 4, byteAt s.fbDraw (f s.canvas s.fb) (fbOff sx sy c) =
      if s.insideClip (s.clipPoint sx sy) ∧ covered (s.clipPoint sx sy) then
        pixelByte rgb bl (fbOff sx sy c) (byteAt s.fbDraw s.fb (fbOff sx sy c))
      else byteAt s.fbDraw s.fb (fbOff sx sy c) := by
    intro c hc
    have ht := targetOf_pixel s hx hy hc
    split
    · rename_i h
      rw [byteAt, hr _ ⟨_, by rw [ht, if_pos h.1], h.2⟩]
      rfl
    · rename_i h
      rw [byteAt, byteAt, hn]
      rintro ⟨p, hp, hcov⟩
      rw [ht] at hp
      split at hp
      · cases hp
        exact h ⟨‹_›, hcov⟩
      · cases hp
  have hmod : ∀ c < 4, fbOff sx sy c % 4 = c := by intro c hc; unfold fbOff; omega
  constructor
  · intro h
    have hp : ∀ c < 4, byteAt s.fbDraw (f s.canvas s.fb) (fbOff sx sy c) =
        pixelByte rgb bl (fbOff sx sy c) (byteAt s.fbDraw s.fb (fbOff sx sy c)) := fun c hc => by
      rw [hbyte c hc, if_pos h]
    simp only [State.pixel, paint_fbDraw, paint_fb, hp 0 (by omega), hp 1 (by omega), hp 2 (by omega),
      hp 3 (by omega)]
    cases bl <;> simp [pixelByte, hmod, opaquePixel, blendedPixel, avg]
  · intro h
    have hp : ∀ c < 4, byteAt s.fbDraw (f s.canvas s.fb) (fbOff sx sy c) =
        byteAt s.fbDraw s.fb (fbOff sx sy c) := fun c hc => by rw [hbyte c hc, if_neg h]
    simp only [State.pixel, paint_fbDraw, paint_fb, hp 0 (by omega), hp 1 (by omega), hp 2 (by omega),
      hp 3 (by omega)]

end Sys2Proof.Machine
end

