-- ==== Sys2Proof/Laws/Line.lean ====
section
/-! SUPPORT. Where the Bresenham walk is after `k` rounds: `k` steps along the major axis, and so many along
the minor axis that the error term stays in its range (41_point_line.md R141, R142). -/

namespace Sys2Proof.Machine

/-- One round of the walk: the next error term and the next pixel. -/
def lineRound (c : LineSetup) (q : Int × Point) : Int × Point := (octStep c q.1, lineStep c q.1 q.2)

theorem length_lineWalk (c : LineSetup) (n : Nat) (oct : Int) (p : Point) :
    (lineWalk c n oct p).length = n := by
  induction n generalizing oct p with
  | zero => rfl
  | succ n ih => simp [lineWalk, ih]

theorem getD_lineWalk (c : LineSetup) (n : Nat) (oct : Int) (p : Point) {k : Nat} (hk : k ≤ n) :
    (p :: lineWalk c n oct p).getD k (0, 0) = ((lineRound c)^[k] (oct, p)).2 := by
  induction n generalizing oct p k with
  | zero => obtain rfl : k = 0 := by omega
            rfl
  | succ n ih =>
    cases k with
    | zero => rfl
    | succ k =>
      rw [Function.iterate_succ_apply]
      exact ih _ _ (by omega)

/-- After `k` rounds, `m` of them diagonal. -/
theorem lineRounds_eq (c : LineSetup) (p : Point) (hm : 0 ≤ c.deltaMin) (hM : c.deltaMin ≤ c.deltaMax)
    (k : Nat) : ∃ m : Nat, m ≤ k ∧
      ((lineRound c)^[k] (2 * c.deltaMin - c.deltaMax, p)).1 =
        2 * c.deltaMin - c.deltaMax + 2 * c.deltaMin * k - 2 * c.deltaMax * m ∧
      2 * c.deltaMin - 2 * c.deltaMax ≤ ((lineRound c)^[k] (2 * c.deltaMin - c.deltaMax, p)).1 ∧
      (((lineRound c)^[k] (2 * c.deltaMin - c.deltaMax, p)).1 < 2 * c.deltaMin ∨ c.deltaMax = 0) ∧
      ((lineRound c)^[k] (2 * c.deltaMin - c.deltaMax, p)).2 =
        (if c.xmajor then (p.1 + c.sx * k, p.2 + c.sy * m) else (p.1 + c.sx * m, p.2 + c.sy * k)) := by
  induction k with
  | zero => exact ⟨0, le_rfl, by simp, by simp; omega, by simp; omega, by simp⟩
  | succ k ih =>
    obtain ⟨m, h0, h1, h2, h3, h4⟩ := ih
    rw [Function.iterate_succ_apply']
    generalize (lineRound c)^[k] (2 * c.deltaMin - c.deltaMax, p) = q at *
    simp only [lineRound, octStep, lineStep]
    by_cases hq : q.1 ≥ 0
    · refine ⟨m + 1, by omega, ?_, ?_, ?_, ?_⟩
      · rw [if_pos hq, h1]; push_cast; ring
      · rw [if_pos hq]; omega
      · rw [if_pos hq]; omega
      · rw [if_pos hq, h4]
        split <;> simp <;> constructor <;> ring
    · refine ⟨m, by omega, ?_, ?_, ?_, ?_⟩
      · rw [if_neg hq, h1]; push_cast; ring
      · rw [if_neg hq]; omega
      · rw [if_neg hq]; omega
      · rw [if_neg hq, h4]
        split <;> simp <;> ring

/-- What the set-up of a line holds, with the deltas as natural numbers (R141). -/
theorem lineSetup_spec (p1 p2 : Point) :
    let c := lineSetup p1 p2
    let dx := (p2.1 - p1.1).natAbs
    let dy := (p2.2 - p1.2).natAbs
    c.deltaMax = (max dx dy : Nat) ∧ c.deltaMin = (min dx dy : Nat) ∧ (c.xmajor = true ↔ dy ≤ dx) ∧
      c.sx * dx = p2.1 - p1.1 ∧ c.sy * dy = p2.2 - p1.2 ∧ (c.sx = 1 ∨ c.sx = -1) ∧
      (c.sy = 1 ∨ c.sy = -1) := by
  have hsx : (lineSetup p1 p2).sx = if p2.1 - p1.1 < 0 then -1 else 1 := rfl
  have hsy : (lineSetup p1 p2).sy = if p2.2 - p1.2 < 0 then -1 else 1 := rfl
  have hx : (lineSetup p1 p2).xmajor =
      decide (((p2.2 - p1.2).natAbs : Int) ≤ (p2.1 - p1.1).natAbs) := rfl
  have hM : (lineSetup p1 p2).deltaMax = if ((p2.2 - p1.2).natAbs : Int) ≤ (p2.1 - p1.1).natAbs then
      ((p2.1 - p1.1).natAbs : Int) else (p2.2 - p1.2).natAbs := rfl
  have hm : (lineSetup p1 p2).deltaMin = if ((p2.2 - p1.2).natAbs : Int) ≤ (p2.1 - p1.1).natAbs then
      ((p2.2 - p1.2).natAbs : Int) else (p2.1 - p1.1).natAbs := rfl
  simp only
  rw [hsx, hsy, hx, hM, hm]
  refine ⟨?_, ?_, ?_, ?_, ?_, ?_, ?_⟩
  · split_ifs <;> omega
  · split_ifs <;> omega
  · rw [decide_eq_true_eq]; omega
  · split_ifs <;> omega
  · split_ifs <;> omega
  · split_ifs <;> simp
  · split_ifs <;> simp

/-- Pixel `k` of a line. -/
theorem getD_linePixels (p1 p2 : Point) {k : Nat}
    (hk : k ≤ max (p2.1 - p1.1).natAbs (p2.2 - p1.2).natAbs) :
    (linePixels p1 p2).getD k (0, 0) = ((lineRound (lineSetup p1 p2))^[k]
      (2 * (lineSetup p1 p2).deltaMin - (lineSetup p1 p2).deltaMax, p1)).2 :=
  getD_lineWalk _ _ _ _ (by rw [(lineSetup_spec p1 p2).1, Int.toNat_natCast]; exact hk)

end Sys2Proof.Machine
end

