-- ==== Sys2Proof/Laws/Paint.lean ====
section
/-! SUPPORT. From the points or spans a command plots to the pixels it paints, and what POLY and OUTLINE do
for a legal vertex count (40_pixel_span.md R122, R126, 42_polygon.md R160, R162). -/

namespace Sys2Proof.Machine

/-! ## Painting -/

/-- A point that names a byte lies in the clipping rectangle. -/
theorem targetOf_inside {clip : Clip} {x : Nat} {p : Point} (h : targetOf clip x = some p) :
    (0 ≤ p.1 ∧ p.1 < clip.width) ∧ 0 ≤ p.2 ∧ p.2 < clip.height :=
  (inClip_iff _ _ _).1 ((targetOf_eq_some _ _ _).1 h).1

/-- A drawing that plots points opaquely paints them, repeated or not. -/
theorem paints_of_plotAll_opaque {i : Instr} {words : Nat} {s : State} {rgb : Rgb}
    {f : Canvas → Memory → Memory} {covered : Point → Prop} (ps : List Point)
    (he : exec i s = .next (s.paint words f))
    (hf : f s.canvas s.fb = plotAll s.canvas rgb false ps s.fb)
    (hc : ∀ x p, targetOf s.clip x = some p → (p ∈ ps ↔ covered p)) :
    Paints i words s covered (opaquePixel rgb) := by
  have hb : ∀ x old, pixelByte rgb false x old = pixelByte rgb false x 0#8 := fun x old => by
    simp [pixelByte]
  refine paints_of_read (bl := false) he ?_ ?_
  · rintro x ⟨p, hp, hcov⟩
    rw [hf, read_plotAll_opaque, if_pos ⟨p, (hc x p hp).2 hcov, hp⟩, hb x (byteAt _ _ _)]
  · intro x hx
    rw [hf, read_plotAll_opaque, if_neg]
    rintro ⟨p, hp, hxp⟩
    exact hx ⟨p, hxp, (hc x p hxp).1 hp⟩

/-- A drawing that plots distinct points paints them, each once. -/
theorem paints_of_plotAll_nodup {i : Instr} {words : Nat} {s : State} {rgb : Rgb} {bl : Bool}
    {f : Canvas → Memory → Memory} {covered : Point → Prop} (ps : List Point) (hnd : ps.Nodup)
    (he : exec i s = .next (s.paint words f))
    (hf : f s.canvas s.fb = plotAll s.canvas rgb bl ps s.fb)
    (hc : ∀ x p, targetOf s.clip x = some p → (p ∈ ps ↔ covered p)) :
    Paints i words s covered (if bl then blendedPixel rgb else opaquePixel rgb) := by
  refine paints_of_read (bl := bl) he ?_ ?_
  · rintro x ⟨p, hp, hcov⟩
    rw [hf, read_plotAll _ _ _ _ hnd, if_pos ⟨p, (hc x p hp).2 hcov, hp⟩]; rfl
  · intro x hx
    rw [hf, read_plotAll _ _ _ _ hnd, if_neg]
    rintro ⟨p, hp, hxp⟩
    exact hx ⟨p, hxp, (hc x p hxp).1 hp⟩

/-- A drawing that clamps and fills spans on distinct rows paints what they cover, each pixel once. -/
theorem paints_of_clampSpans {i : Instr} {words : Nat} {s : State} {rgb : Rgb} {bl : Bool}
    {f : Canvas → Memory → Memory} {covered : Point → Prop} (ss : List Span)
    (hnd : (ss.map Span.y).Nodup) (he : exec i s = .next (s.paint words f))
    (hf : f s.canvas s.fb = clampSpans s.canvas rgb bl ss s.fb)
    (hc : ∀ x p, targetOf s.clip x = some p → ((∃ sp ∈ ss, sp.covers p) ↔ covered p)) :
    Paints i words s covered (if bl then blendedPixel rgb else opaquePixel rgb) := by
  refine paints_of_read (bl := bl) he ?_ ?_
  · rintro x ⟨p, hp, hcov⟩
    rw [hf, read_clampSpans _ _ _ hnd, if_pos ⟨p, hp, (hc x p hp).2 hcov⟩]; rfl
  · intro x hx
    rw [hf, read_clampSpans _ _ _ hnd, if_neg]
    rintro ⟨p, hxp, hp⟩
    exact hx ⟨p, hxp, (hc x p hxp).1 hp⟩

theorem Paints.congr {i : Instr} {words : Nat} {s : State} {covered covered' : Point → Prop}
    {new : Pixel → Pixel} (h : Paints i words s covered new) (hc : ∀ p, covered p ↔ covered' p) :
    Paints i words s covered' new := by
  rwa [← show covered = covered' from funext fun p => propext (hc p)]

/-! ## Vertex counts -/

theorem Cnt.legal_iff (cnt : Cnt) : cnt.legal = true ↔ 1 ≤ cnt.n.toNat ∧ cnt.n.toNat ≤ 128 := by
  rw [Cnt.legal, Bool.and_eq_true, decide_eq_true_eq, decide_eq_true_eq]
  rfl

theorem exec_poly_legal (rsv : BitVec 3) (rgb : Rgb) (cnt : Cnt) (vs : List XY) (s : State)
    (h : cnt.legal = true) : exec (.poly rsv rgb cnt vs) s =
      .next (s.paint (2 + cnt.n.toNat) fun c m => drawPoly c rgb false vs m) := by
  simp [exec, execPoly, execCounted_eq, h]

theorem exec_polyA_legal (rsv : BitVec 3) (rgb : Rgb) (cnt : Cnt) (vs : List XY) (s : State)
    (h : cnt.legal = true) : exec (.polyA rsv rgb cnt vs) s =
      .next (s.paint (2 + cnt.n.toNat) fun c m => drawPoly c rgb true vs m) := by
  simp [exec, execPolyA, execCounted_eq, h]

theorem exec_outline_legal (a : Bool) (rsv : BitVec 3) (rgb : Rgb) (cnt : Cnt) (vs : List XY) (s : State)
    (h : cnt.legal = true) : exec (.outline a rsv rgb cnt vs) s =
      .next (s.paint (2 + cnt.n.toNat) fun c m => plotAll c rgb false (outlinePixels vs) m) := by
  simp [exec, execOutline, execCounted_eq, h]

/-! ## Bounding boxes (42_polygon.md R162) -/

theorem foldl_min_range (f : Nat → Int) (n : Nat) (m : Int) :
    (∀ k < n, (List.range n).foldl (fun m k => min m (f k)) m ≤ f k) ∧
      ((List.range n).foldl (fun m k => min m (f k)) m = m ∨
        ∃ k < n, (List.range n).foldl (fun m k => min m (f k)) m = f k) := by
  induction n with
  | zero => simp
  | succ n ih =>
    rw [List.range_succ, List.foldl_append]
    simp only [List.foldl_cons, List.foldl_nil]
    refine ⟨fun k hk => ?_, ?_⟩
    · rcases Nat.lt_succ_iff_lt_or_eq.1 hk with h | rfl
      · exact (min_le_left _ _).trans (ih.1 k h)
      · exact min_le_right _ _
    · rcases min_choice ((List.range n).foldl (fun m k => min m (f k)) m) (f n) with h | h <;> rw [h]
      · exact ih.2.imp id fun ⟨k, hk, e⟩ => ⟨k, by omega, e⟩
      · exact .inr ⟨n, by omega, rfl⟩

theorem foldl_max_range (f : Nat → Int) (n : Nat) (m : Int) :
    (∀ k < n, f k ≤ (List.range n).foldl (fun m k => max m (f k)) m) ∧
      ((List.range n).foldl (fun m k => max m (f k)) m = m ∨
        ∃ k < n, (List.range n).foldl (fun m k => max m (f k)) m = f k) := by
  induction n with
  | zero => simp
  | succ n ih =>
    rw [List.range_succ, List.foldl_append]
    simp only [List.foldl_cons, List.foldl_nil]
    refine ⟨fun k hk => ?_, ?_⟩
    · rcases Nat.lt_succ_iff_lt_or_eq.1 hk with h | rfl
      · exact (ih.1 k h).trans (le_max_left _ _)
      · exact le_max_right _ _
    · rcases max_choice ((List.range n).foldl (fun m k => max m (f k)) m) (f n) with h | h <;> rw [h]
      · exact ih.2.imp id fun ⟨k, hk, e⟩ => ⟨k, by omega, e⟩
      · exact .inr ⟨n, by omega, rfl⟩

/-- `minOver` is a least value. -/
theorem minOver_spec {n : Nat} (hn : 0 < n) (f : Nat → Int) :
    (∀ k < n, minOver n f ≤ f k) ∧ ∃ k < n, minOver n f = f k :=
  ⟨(foldl_min_range f n _).1, (foldl_min_range f n _).2.elim (fun h => ⟨0, hn, h⟩) id⟩

/-- `maxOver` is a greatest value. -/
theorem maxOver_spec {n : Nat} (hn : 0 < n) (f : Nat → Int) :
    (∀ k < n, f k ≤ maxOver n f) ∧ ∃ k < n, maxOver n f = f k :=
  ⟨(foldl_max_range f n _).1, (foldl_max_range f n _).2.elim (fun h => ⟨0, hn, h⟩) id⟩

/-- The topmost vertex is the first that has the least `y` (R164). -/
theorem topVertex_spec {vs : List XY} (hn : 0 < vs.length) :
    topVertex vs < vs.length ∧ vertexY vs (topVertex vs) = polyYmin vs ∧
      ∀ k < topVertex vs, vertexY vs k ≠ polyYmin vs := by
  obtain ⟨m, hm, hmin⟩ := (minOver_spec hn (vertexY vs)).2
  unfold topVertex
  cases h : (List.range vs.length).find? fun k => vertexY vs k == polyYmin vs with
  | none =>
    have := List.find?_eq_none.1 h m (List.mem_range.2 hm)
    exact absurd (show vertexY vs m = polyYmin vs from hmin.symm) (by simpa using this)
  | some t =>
    obtain ⟨h1, h2, h3⟩ := List.find?_range_eq_some.1 h
    exact ⟨List.mem_range.1 h2, by simpa using h1, fun k hk => by simpa using h3 k hk⟩

theorem vertexX_eq (vs : List XY) {k : Nat} (h : k < vs.length) : vertexX vs k = (vs[k]).x.toInt := by
  simp [vertexX, sext16, h]

theorem vertexY_eq (vs : List XY) {k : Nat} (h : k < vs.length) : vertexY vs k = (vs[k]).y.toInt := by
  simp [vertexY, sext16, h]

end Sys2Proof.Machine
end

