-- ==== Sys2Proof/Laws/PerInstr.lean ====
section
/-! SUPPORT. The per-command family `EncodedLength`: a well-formed command is encoded in as many words as
its length says (30_encoding.md R98). -/

namespace Sys2Proof.Laws.EncodedLength

/-- The words of a well-formed command are `words` many. -/
def Statement (i : Instr) : Prop := i.wf = true → (encode i).length = i.words

theorem nop (a : Bool) (rsv : BitVec 3) (rgb : Rgb) : Statement (.nop a rsv rgb) := fun _ => rfl

theorem point (a : Bool) (rsv : BitVec 3) (rgb : Rgb) (p : XY) : Statement (.point a rsv rgb p) :=
  fun _ => rfl

theorem line (a : Bool) (rsv : BitVec 3) (rgb : Rgb) (p1 p2 : XY) :
    Statement (.line a rsv rgb p1 p2) := fun _ => rfl

theorem counted {cnt : Cnt} {vs : List XY} (h : (vs.length == cnt.vertexWords) = true) :
    (cnt.word :: vs.map XY.word).length + 1 = 2 + cnt.vertexWords := by
  have := beq_iff_eq.1 h
  simp only [List.length_cons, List.length_map]
  omega

theorem poly (rsv : BitVec 3) (rgb : Rgb) (cnt : Cnt) (vs : List XY) :
    Statement (.poly rsv rgb cnt vs) := fun h => counted h

theorem polyA (rsv : BitVec 3) (rgb : Rgb) (cnt : Cnt) (vs : List XY) :
    Statement (.polyA rsv rgb cnt vs) := fun h => counted h

theorem outline (a : Bool) (rsv : BitVec 3) (rgb : Rgb) (cnt : Cnt) (vs : List XY) :
    Statement (.outline a rsv rgb cnt vs) := fun h => counted h

theorem ellipse (rsv : BitVec 3) (rgb : Rgb) (c r : XY) : Statement (.ellipse rsv rgb c r) :=
  fun _ => rfl

theorem ellipseA (rsv : BitVec 3) (rgb : Rgb) (c r : XY) : Statement (.ellipseA rsv rgb c r) :=
  fun _ => rfl

theorem span (rsv : BitVec 3) (rgb : Rgb) (xs : X2) (row : YW) : Statement (.span rsv rgb xs row) :=
  fun _ => rfl

theorem spanA (rsv : BitVec 3) (rgb : Rgb) (xs : X2) (row : YW) : Statement (.spanA rsv rgb xs row) :=
  fun _ => rfl

theorem clear (a : Bool) (rsv : BitVec 3) (rgb : Rgb) : Statement (.clear a rsv rgb) := fun _ => rfl

theorem setclip (a : Bool) (rsv : BitVec 3) (rgb : Rgb) (org : XY) (size : WH) :
    Statement (.setclip a rsv rgb org size) := fun _ => rfl

theorem illegal9 (low : BitVec 28) : Statement (.illegal9 low) := fun _ => rfl

theorem illegalAB (low : BitVec 29) : Statement (.illegalAB low) := fun _ => rfl

theorem illegalCF (low : BitVec 30) : Statement (.illegalCF low) := fun _ => rfl

end Sys2Proof.Laws.EncodedLength
end

