-- ==== Sys2Proof/Laws/Step.lean ====
section
/-! SUPPORT. What a step can do, said once: the engine's turn, a master's turn, an edge of the reset input
(30_encoding.md R100, 10_state.md R27, 20_memory.md R65, 70_reset_and_hazards.md R260). -/

namespace Sys2Proof.Machine

/-! ## The engine -/

/-- The ways the engine's turn can end in a next state. -/
inductive EngineEffect (s : State) : State → Prop where
  /-- Halted, in reset, or with nothing to take: no step (R100, 60_exceptions.md R234). -/
  | idle : EngineEffect s s
  /-- The command in the latch is executed. -/
  | executes (i : Instr) (t : State) (hrun : s.mode = .run) (hres : s.resetIn = false)
      (hlatch : decode s.latch = .ok (i, [])) (h : ExecEffect i s.renewReads t) : EngineEffect s t
  /-- One word moves from the FIFO into the latch. -/
  | moves (w : Word) (rest : List Word) (hrun : s.mode = .run) (hres : s.resetIn = false)
      (hlatch : ∀ i, decode s.latch ≠ .ok (i, [])) (hfifo : s.fifo = w :: rest)
      (hroom : s.latch.length < Config.latchCapacity) :
      EngineEffect s { s.renewReads with fifo := rest, latch := s.latch ++ [w] }

theorem latchCommand_eq_some {s : State} {i : Instr} :
    latchCommand s = some i ↔ decode s.latch = .ok (i, []) := by
  unfold latchCommand
  split
  · rename_i h; rw [h]; simp
  · rename_i h
    constructor
    · intro h2; cases h2
    · intro h2; exact absurd h2 (h i)

theorem latchCommand_eq_none {s : State} :
    latchCommand s = none ↔ ∀ i, decode s.latch ≠ .ok (i, []) := by
  rw [Option.eq_none_iff_forall_not_mem]
  simp only [Option.mem_def, latchCommand_eq_some, ne_eq]

theorem State.err_eq_false {s : State} : s.err = false ↔ s.mode = .run := by
  cases h : s.mode <;> simp [State.err, h]

theorem State.err_eq_true {s : State} : s.err = true ↔ s.mode = .halted := by
  cases h : s.mode <;> simp [State.err, h]

/-- The engine's turn, if it answers a next state. -/
theorem engineTurn_effect {s t : State} (h : engineTurn s = .next t) : EngineEffect s t := by
  unfold engineTurn at h
  split at h
  · cases h; exact .idle
  · rename_i hact
    simp only [Bool.or_eq_true, not_or, Bool.not_eq_true] at hact
    have hrun := State.err_eq_false.1 hact.2
    split at h
    · rename_i i hi
      exact .executes i t hrun hact.1 (latchCommand_eq_some.1 hi) (exec_effect h)
    · rename_i hnone
      split at h
      · cases h; exact .idle
      · rename_i w rest hfifo
        unfold moveWord at h
        split at h
        · cases h
          exact .moves w rest hrun hact.1 (latchCommand_eq_none.1 hnone) hfifo ‹_›
        · cases h

/-! ## A bus master -/

/-- What a supported write of `v` to `off` can do before the access is completed or held. -/
inductive WriteEffect (k : Nat) (off : Offset) (v : Word) (s : State) : State → Prop where
  /-- Ignored: no effect but the answer (20_memory.md R61, R64). -/
  | ignored (h : off.toNat ≠ 0x0C) : WriteEffect k off v s (s.complete k .written)
  /-- CTRL: the two enables are stored (10_state.md R25). -/
  | ctrl (h : off.toNat = 0x04) (hv : v.getLsbD 0 = false) (e i : Bool) :
      WriteEffect k off v s ({ s.renewReads with errIE := e, idleIE := i }.complete k .written)
  /-- CTRL: a soft reset (70_reset_and_hazards.md R262). -/
  | reset (h : off.toNat = 0x04) (hv : v.getLsbD 0 = true) :
      WriteEffect k off v s ((softReset s.renewReads).complete k .written)
  /-- CMD while halted: the word is discarded (10_state.md R27). -/
  | discarded (hoff : off.toNat = 0x0C) (h : s.mode = .halted) :
      WriteEffect k off v s ({ s with waiting := s.waiting.erase k }.complete k .written)
  /-- CMD with room: the word is appended (R27). -/
  | accepted (hoff : off.toNat = 0x0C) (h : s.mode = .run) (hroom : s.fifo.length < Config.fifoDepth)
      (hfirst : s.waiting = [] ∨ s.waiting.head? = some k) :
      WriteEffect k off v s
        ({ s.renewReads with fifo := s.fifo ++ [v], waiting := s.waiting.erase k }.complete k .written)
  /-- CMD without room: the write goes on being held (R27). -/
  | held (hoff : off.toNat = 0x0C) (h : s.mode = .run) (hk : k ∈ s.waiting) : WriteEffect k off v s s
  /-- CMD without room: the write becomes held (R27). -/
  | hold (hoff : off.toNat = 0x0C) (h : s.mode = .run) (hk : k ∉ s.waiting) :
      WriteEffect k off v s { s.renewReads with waiting := s.waiting ++ [k] }

theorem writeCmd_effect (k : Nat) (off : Offset) (v : Word) (s : State) (hoff : off.toNat = 0x0C) :
    WriteEffect k off v s (writeCmd k v s) := by
  unfold writeCmd
  split
  · exact .discarded hoff ‹_›
  · rename_i hne
    have hrun : s.mode = .run := by cases h : s.mode <;> simp_all
    split
    · rename_i hacc
      simp only [cmdAccepts, Bool.and_eq_true, decide_eq_true_eq, Bool.or_eq_true, List.isEmpty_iff,
        beq_iff_eq] at hacc
      exact .accepted hoff hrun hacc.1 hacc.2
    · split
      · exact .held hoff hrun (by simpa using ‹s.waiting.contains k = true›)
      · exact .hold hoff hrun (by simpa using ‹¬s.waiting.contains k = true›)

theorem busWrite_effect (k : Nat) (off : Offset) (v : Word) (s : State) :
    WriteEffect k off v s (busWrite k off v s) := by
  unfold busWrite
  split
  · rename_i h
    unfold writeCtrl
    split
    · exact .reset h ‹_›
    · exact .ctrl h (by simpa using ‹¬v.getLsbD 0 = true›) _ _
  · exact writeCmd_effect k off v s ‹_›
  · exact .ignored ‹_›

/-- The ways a master's turn can end in a next state. -/
inductive HostEffect (k : Nat) (s : State) : State → Prop where
  /-- It has no access to make, or one that stays held while reset is asserted. -/
  | idle : HostEffect k s s
  /-- A read: no effect but its answer (20_memory.md R67). -/
  | reads (off : Offset) (w : Width) (m : Master) (rest : List BusReq) (hres : s.resetIn = false)
      (hm : s.masters[k]? = some m) (hreq : m.requests = .read off w :: rest)
      (hsup : supported off w = true) :
      HostEffect k s (s.complete k (.data (readValue s off w)))
  /-- A write. -/
  | writes (off : Offset) (w : Width) (v : Word) (m : Master) (rest : List BusReq)
      (hres : s.resetIn = false) (hm : s.masters[k]? = some m)
      (hreq : m.requests = .write off w v :: rest) (hsup : supported off w = true) (t : State)
      (h : WriteEffect k off v s t) : HostEffect k s t

/-- A master's turn, if it answers a next state. -/
theorem hostTurn_effect {k : Nat} {s t : State} (h : hostTurn k s = .next t) : HostEffect k s t := by
  unfold hostTurn at h
  split at h
  · cases h; exact .idle
  · rename_i m hm
    split at h
    · cases h; exact .idle
    · rename_i req rest hreq
      split at h
      · split at h
        · cases h; exact .idle
        · cases h
      · rename_i hres
        rw [Bool.not_eq_true] at hres
        unfold busAccess at h
        split at h
        · split at h
          · cases h; exact .reads _ _ m rest hres hm hreq ‹_›
          · cases h
        · split at h
          · cases h
            exact .writes _ _ _ m rest hres hm hreq ‹_› _ (busWrite_effect _ _ _ _)
          · cases h

/-! ## A step -/

/-- The ways a turn can end in a next state. -/
inductive TurnEffect (s : State) : Turn → State → Prop where
  | engine (t : State) (h : EngineEffect s t) : TurnEffect s .engine t
  | host (k : Nat) (t : State) (h : HostEffect k s t) : TurnEffect s (.host k) t
  | asserts : TurnEffect s .resetAssert (assertReset s)
  | releases : TurnEffect s .resetRelease { s with resetIn := false }

theorem runTurn_effect {tn : Turn} {s t : State} (h : runTurn tn s = .next t) : TurnEffect s tn t := by
  unfold runTurn at h
  split at h
  · exact .engine t (engineTurn_effect h)
  · exact .host _ t (hostTurn_effect h)
  · cases h; exact .asserts
  · cases h; exact .releases

theorem step_eq_runTurn (s : State) :
    step s = runTurn (turnTaken s) { s with schedule := s.schedule.tail } := by
  obtain ⟨_, _, _, _, _, _, _, _, _, _, _, _, _, sch, _, _⟩ := s
  cases sch <;> rfl

/-- A step, if it answers a next state: one turn, with its entry of the schedule taken off. -/
theorem step_effect {s t : State} (h : step s = .next t) :
    TurnEffect { s with schedule := s.schedule.tail } (turnTaken s) t :=
  runTurn_effect (by rw [← step_eq_runTurn]; exact h)

/-! ## Stops -/

theorem engineTurn_not_refused (s : State) (r : Refusal) : engineTurn s ≠ .refused r := by
  unfold engineTurn
  split
  · intro h; cases h
  · split
    · rename_i i _
      obtain ⟨t, ht, -⟩ := exec_total i s.renewReads
      rw [ht]
      intro h; cases h
    · split
      · intro h; cases h
      · unfold moveWord
        split <;> (intro h; cases h)

end Sys2Proof.Machine
end

