-- ==== Sys2Proof/Laws/Turn.lean ====
section
/-! SUPPORT. Which turn a step takes, what each turn does under its conditions, and how the latch fills
(30_encoding.md R100, 10_state.md R27, 20_memory.md R65). -/

namespace Sys2Proof.Machine

/-! ## Flags and registers -/

theorem State.busy_eq_false {s : State} : s.busy = false ↔ s.fifo = [] ∧ s.latch = [] := by
  simp [State.busy]

theorem getLsbD_zero_iff (v : Word) : v.getLsbD 0 = true ↔ v.toNat % 2 = 1 := by
  simp [BitVec.getLsbD, Nat.testBit_eq_decide_div_mod_eq]

theorem writeCtrl_reset {v : Word} (h : v.getLsbD 0 = true) (s : State) :
    writeCtrl v s = softReset s.renewReads := by
  unfold writeCtrl; rw [h]; rfl

theorem writeCtrl_enables {v : Word} (h : v.getLsbD 0 = false) (s : State) :
    writeCtrl v s = { s.renewReads with errIE := v.getLsbD 1, idleIE := v.getLsbD 2 } := by
  unfold writeCtrl; rw [h]; rfl

theorem busWrite_ctrl (k : Nat) (v : Word) (s : State) :
    busWrite k 0x04#19 v s = (writeCtrl v s).complete k .written := rfl

theorem busWrite_cmd (k : Nat) (v : Word) (s : State) : busWrite k 0x0C#19 v s = writeCmd k v s := rfl

/-! ## The choice of a turn -/

theorem step_of_schedule {s : State} {t : Turn} {ts : List Turn} (h : s.schedule = t :: ts) :
    step s = runTurn t { s with schedule := ts } := by
  unfold step; rw [h]

theorem step_of_no_schedule {s : State} (h : s.schedule = []) : step s = runTurn (defaultTurn s) s := by
  unfold step; rw [h]

/-- A master's turn with a supported write. -/
theorem step_write {s : State} {k : Nat} {off : Offset} {w : Width} {v : Word} {ts : List Turn}
    (h : HostMakes s k (.write off w v) ts) (hs : supported off w = true) :
    step s = .next (busWrite k off v { s with schedule := ts }) := by
  obtain ⟨h1, h2, m, rest, h3, h4⟩ := h
  rw [step_of_schedule h1]
  simp only [runTurn, hostTurn, h3, h4, h2, busAccess, hs, if_true]
  rfl

/-- A master's turn with a supported read. -/
theorem step_read {s : State} {k : Nat} {off : Offset} {w : Width} {ts : List Turn}
    (h : HostMakes s k (.read off w) ts) (hs : supported off w = true) :
    step s = .next ({ s with schedule := ts }.complete k
      (.data (readValue { s with schedule := ts } off w))) := by
  obtain ⟨h1, h2, m, rest, h3, h4⟩ := h
  rw [step_of_schedule h1]
  simp only [runTurn, hostTurn, h3, h4, h2, busAccess, hs, if_true]
  rfl

/-! ## The engine's turn -/

theorem engineTurn_executes {s : State} {i : Instr} (hd : decode s.latch = .ok (i, []))
    (hr : s.resetIn = false) (hm : s.mode = .run) : engineTurn s = exec i s.renewReads := by
  unfold engineTurn
  rw [hr, State.err_eq_false.2 hm, latchCommand_eq_some.2 hd]
  rfl

theorem engineTurn_moves {s : State} (hd : ∀ i, decode s.latch ≠ .ok (i, [])) (hr : s.resetIn = false)
    (hm : s.mode = .run) : engineTurn s =
      match s.fifo with
      | [] => .next s
      | w :: rest => moveWord w rest s.renewReads := by
  unfold engineTurn
  rw [hr, State.err_eq_false.2 hm, latchCommand_eq_none.2 hd]
  rfl

/-! ## The latch -/

/-- Words that still wait for more are fewer than the latch holds (10_state.md R33). -/
theorem length_of_incomplete {ws : List Word} (h : decode ws = .error .incomplete) :
    ws.length < 130 := by
  by_contra hn
  match ws, hn with
  | [], hn => simp at hn
  | [_], hn => simp at hn
  | [_, _], hn => simp at hn
  | h0 :: w1 :: w2 :: ws, hn =>
    have vle : ∀ c : Cnt, c.vertexWords ≤ 128 := by
      intro c
      unfold Cnt.vertexWords
      split
      · exact of_decide_eq_true (Bool.and_eq_true_iff.1 ‹_›).2
      · omega
    have hcnt : ∀ mk, ∃ i rest, decodeCounted mk (w1 :: w2 :: ws) = .ok (i, rest) := by
      intro mk
      have := vle (cntOf w1)
      simp only [decodeCounted]
      simp only [List.length_cons] at hn ⊢
      rw [if_neg (by omega)]
      exact ⟨_, _, rfl⟩
    simp only [decode] at h
    split at h <;> first | cases h | (obtain ⟨_, _, h2⟩ := hcnt _; rw [h2] at h; cases h)

theorem decodeCounted_append {mk : Cnt → List XY → Instr} {w1 : Word} {rest : List Word} (w : Word)
    (h : decodeCounted mk (w1 :: rest) = .error .incomplete) :
    decodeCounted mk (w1 :: (rest ++ [w])) = .error .incomplete ∨
      ∃ i, decodeCounted mk (w1 :: (rest ++ [w])) = .ok (i, []) := by
  simp only [decodeCounted] at h ⊢
  split at h
  · by_cases h2 : (rest ++ [w]).length < (cntOf w1).vertexWords
    · rw [if_pos h2]; exact .inl rfl
    · rw [if_neg h2]
      right
      rw [List.drop_of_length_le (by simp at h2 ⊢; omega)]
      exact ⟨_, rfl⟩
  · cases h

theorem decodeCounted_single {mk : Cnt → List XY → Instr} (w1 : Word) :
    decodeCounted mk [w1] = .error .incomplete ∨ ∃ i, decodeCounted mk [w1] = .ok (i, []) := by
  simp only [decodeCounted]
  split
  · exact .inl rfl
  · right; simp

/-- A latch that does not hold a whole command yet takes one more word: then it waits for more, or holds
exactly one whole command (R100). -/
theorem latchOk_append {ws : List Word} (w : Word) (h : ∀ i, decode ws ≠ .ok (i, [])) (hok : latchOk ws) :
    latchOk (ws ++ [w]) := by
  rcases hok with rfl | h1 | ⟨i, h1⟩
  · simp only [List.nil_append, latchOk, decode]
    right
    split <;> simp [decodeOne, decodeTwo, decodeCounted]
  · right
    match ws, h1 with
    | [], _ =>
      simp only [List.nil_append, decode]
      split <;> simp [decodeOne, decodeTwo, decodeCounted]
    | [h0], h1 =>
      simp only [decode, List.cons_append, List.nil_append] at h1 ⊢
      split at h1 <;> first | (cases h1; done) | exact decodeCounted_single w | simp [decodeOne, decodeTwo]
    | h0 :: w1 :: rest, h1 =>
      simp only [decode, List.cons_append] at h1 ⊢
      split at h1
      case h_4 => exact decodeCounted_append w h1
      case h_5 => exact decodeCounted_append w h1
      all_goals first
        | cases h1
        | (cases rest with
            | nil => simp [decodeTwo]
            | cons w2 rest => cases h1)
  · exact absurd h1 (h i)

theorem latch_hasRoom {s : State} (h : latchOk s.latch) (hd : ∀ i, decode s.latch ≠ .ok (i, [])) :
    s.latch.length < Config.latchCapacity := by
  rcases h with h | h | ⟨i, h⟩
  · simp [h, Config.latchCapacity]
  · exact length_of_incomplete h
  · exact absurd h (hd i)

end Sys2Proof.Machine
end

