-- ==== Sys2Proof/Tests/Slice0.lean ====
section
/-! SUPPORT. Tests of the model: ill-formed terms are refused, words of the spec decode to their commands,
and one small step or computation per command has the result 95_test_vectors.md lists (V-… and L3-… are its
rows). Then a witness for each statement that has hypotheses: concrete values that meet all of them. -/

namespace Sys2Proof.Tests

open Sys2Proof Sys2Proof.Machine

/-! ## Well-formedness -/

/-- Two vertices where CNT says three. -/
theorem test_wf_poly_short : (Instr.poly 0#3 ⟨0, 0, 0⟩ ⟨0, 3⟩ [⟨0, 0⟩, ⟨1, 1⟩]).wf = false := by decide

/-- Vertices behind an illegal count. -/
theorem test_wf_polyA_zero : (Instr.polyA 0#3 ⟨0, 0, 0⟩ ⟨0, 0⟩ [⟨0, 0⟩]).wf = false := by decide

/-- A vertex too many. -/
theorem test_wf_outline_long : (Instr.outline true 0#3 ⟨0, 0, 0⟩ ⟨0, 1⟩ [⟨0, 0⟩, ⟨1, 1⟩]).wf = false := by
  decide

theorem test_wf_poly : (Instr.poly 0#3 ⟨0, 0, 0⟩ ⟨0xFFFF, 1⟩ [⟨5, 6⟩]).wf = true := by decide

/-! ## Decoding -/

/-- V-K1, and POINT and LINE of V-C3 and L3-C. -/
theorem test_decode_nop_point_line :
    decode [0x0FFFFFFF#32, 5#32] = .ok (.nop true 7#3 ⟨0xFF#8, 0xFF#8, 0xFF#8⟩, [5#32]) ∧
    decode [0x1000FF00#32, 0x00140003#32] =
      .ok (.point false 0#3 ⟨0#8, 0xFF#8, 0#8⟩ ⟨20#16, 3#16⟩, []) ∧
    decode [0x20000000#32, 0#32, 0x00050002#32] =
      .ok (.line false 0#3 ⟨0#8, 0#8, 0#8⟩ ⟨0#16, 0#16⟩ ⟨5#16, 2#16⟩, []) := by decide

/-- L3-A, L3-F and L3-E. -/
theorem test_decode_poly_outline :
    decode [0x30FF0000#32, 3#32, 0x00020001#32, 0x00090005#32, 0x00040008#32] =
      .ok (.poly 0#3 ⟨0xFF#8, 0#8, 0#8⟩ ⟨0#16, 3#16⟩ [⟨2#16, 1#16⟩, ⟨9#16, 5#16⟩, ⟨4#16, 8#16⟩], []) ∧
    decode [0x38FFFFFF#32, 3#32, 0#32, 0x00040000#32, 0x00040004#32] =
      .ok (.polyA 0#3 ⟨0xFF#8, 0xFF#8, 0xFF#8⟩ ⟨0#16, 3#16⟩
        [⟨0#16, 0#16⟩, ⟨4#16, 0#16⟩, ⟨4#16, 4#16⟩], []) ∧
    decode [0x40FFFFFF#32, 0#32, 0x10FFFFFF#32] =
      .ok (.outline false 0#3 ⟨0xFF#8, 0xFF#8, 0xFF#8⟩ ⟨0#16, 0#16⟩ [], [0x10FFFFFF#32]) := by decide

/-- L3-B; opcodes 5 and 6 with A = 0 by R91 and R92. -/
theorem test_decode_ellipse_span :
    decode [0x50010203#32, 0xFFFF0004#32, 0x0003FFFE#32] =
      .ok (.ellipse 0#3 ⟨1#8, 2#8, 3#8⟩ ⟨0xFFFF#16, 4#16⟩ ⟨3#16, 0xFFFE#16⟩, []) ∧
    decode [0x58FF0000#32, 0x000A000A#32, 0x00030002#32] =
      .ok (.ellipseA 0#3 ⟨0xFF#8, 0#8, 0#8⟩ ⟨10#16, 10#16⟩ ⟨3#16, 2#16⟩, []) ∧
    decode [0x65010203#32, 0x0007000D#32, 0x1234000A#32] =
      .ok (.span 5#3 ⟨1#8, 2#8, 3#8⟩ ⟨7#16, 13#16⟩ ⟨0x1234#16, 10#16⟩, []) ∧
    decode [0x68FF0000#32, 0x0007000D#32, 0x0000000A#32] =
      .ok (.spanA 0#3 ⟨0xFF#8, 0#8, 0#8⟩ ⟨7#16, 13#16⟩ ⟨0#16, 10#16⟩, []) := by decide

/-- L3-B and V-K4. -/
theorem test_decode_clear_setclip :
    decode [0x70204060#32] = .ok (.clear false 0#3 ⟨0x20#8, 0x40#8, 0x60#8⟩, []) ∧
    decode [0x80000000#32, 0xFFFCFFFC#32, 0x012C012C#32] =
      .ok (.setclip false 0#3 ⟨0#8, 0#8, 0#8⟩ ⟨0xFFFC#16, 0xFFFC#16⟩ ⟨300#16, 300#16⟩, []) := by decide

/-- L3-C and V-X2; 0xA and 0xB are one row. -/
theorem test_decode_illegal :
    decode [0x9ABCDEF0#32] = .ok (.illegal9 0xABCDEF0#28, []) ∧
    decode [0xA0000001#32] = .ok (.illegalAB 1#29, []) ∧
    decode [0xB0000001#32] = .ok (.illegalAB 0x10000001#29, []) ∧
    decode [0xFFFFFFFF#32] = .ok (.illegalCF 0x3FFFFFFF#30, []) := by decide

/-- Words still missing (V-X8), and the opcode table's numbering: word 1 is bits 63 to 32. -/
theorem test_decode_incomplete :
    decode [] = .error .incomplete ∧ decode [0x10FFFFFF#32] = .error .incomplete ∧
    decode [0x30FF0000#32, 2#32, 0#32] = .error .incomplete ∧
    decodeTableWord 64 0x00050006_10FF0000 =
      some (.point false 0#3 ⟨0xFF#8, 0#8, 0#8⟩ ⟨5#16, 6#16⟩) := by decide

/-! ## Helpers -/

/-- The state a command leads to. -/
def after (i : Instr) (s : State) : State :=
  match exec i s with
  | .next t => t
  | _ => s

/-- The offsets of the pixels written, by the offset of their byte `r`. -/
def writtenPixels (s : State) : List Nat := (s.fb.map Prod.fst).filter fun x => x % 4 == 0

/-- A reset machine with another clipping rectangle. -/
def clipped (x y w h : Half) : State := { State.reset with clip := ⟨x, y, w, h⟩ }

/-- A reset machine with one pixel of the framebuffer written. -/
def onePixel (off : Nat) (r g b : Byte) : State :=
  { State.reset with fb := [(off, r), (off + 1, g), (off + 2, b), (off + 3, 0xFF#8)] }

def white : Rgb := ⟨0xFF#8, 0xFF#8, 0xFF#8⟩

def red : Rgb := ⟨0xFF#8, 0#8, 0#8⟩

/-- The spans that are written: clamped, and the empty ones dropped. -/
def written (clip : Clip) (ss : List Span) : List (Int × Int × Int) :=
  ((ss.map (Span.clamp clip)).filter fun s => decide (s.l ≤ s.r)).map fun s => (s.y, s.l, s.r)

/-! ## Pixels, POINT and SPAN -/

/-- V-B. -/
theorem test_avg : avg 0x00#8 0xFF#8 = 0x7F#8 ∧ avg 0x01#8 0x02#8 = 0x01#8 ∧ avg 0xFE#8 0xFF#8 = 0xFE#8 ∧
    avg 0x8F#8 0xFF#8 = 0xC7#8 := by decide

/-- V-C3: screen (25, 27). -/
theorem test_point_clipped :
    (after (.point true 0#3 ⟨1#8, 2#8, 3#8⟩ ⟨15#16, 7#16⟩) (clipped 10 20 16 8)).fb =
      [(0x46C64, 1#8), (0x46C65, 2#8), (0x46C66, 3#8), (0x46C67, 0xFF#8)] := by decide

/-- V-C4, V-C5 and V-C6. -/
theorem test_point_outside :
    (after (.point false 0#3 white ⟨16#16, 0#16⟩) (clipped 10 20 16 8)).fb = [] ∧
    (after (.point false 0#3 white ⟨0xFFFF#16, 0#16⟩) (clipped 10 20 16 8)).fb = [] ∧
    (after (.point false 0#3 white ⟨2#16, 2#16⟩) (clipped 0xFFFC 0xFFFC 300 300)).fb = [] ∧
    writtenPixels (after (.point false 0#3 white ⟨4#16, 4#16⟩) (clipped 0xFFFC 0xFFFC 300 300)) =
      [0x40000] := by decide

/-- V-SP1, V-SP2 and V-SP3: no swap, and cut at the rectangle. -/
theorem test_span :
    (after (.span 0#3 white ⟨5#16, 2#16⟩ ⟨0#16, 3#16⟩) State.reset).fb = [] ∧
    writtenPixels (after (.span 0#3 white ⟨0xFFF6#16, 2#16⟩ ⟨0#16, 3#16⟩) State.reset) =
      [0x40C00, 0x40C04, 0x40C08] ∧
    (after (.span 0#3 white ⟨0#16, 5#16⟩ ⟨0#16, 0xFFFF#16⟩) State.reset).fb = [] := by decide

/-- V-SP6. -/
theorem test_spanA :
    (after (.spanA 0#3 red ⟨10#16, 10#16⟩ ⟨0#16, 5#16⟩) (onePixel 0x41428 0x10 0x20 0x30)).pixel 10 5 =
      ⟨0x87#8, 0x10#8, 0x18#8, 0xFF#8⟩ := by decide

/-! ## LINE -/

/-- V-L1, V-L3, V-L4 and V-L10. -/
theorem test_linePixels :
    linePixels (0, 0) (5, 2) = [(0, 0), (1, 0), (2, 1), (3, 1), (4, 2), (5, 2)] ∧
    linePixels (0, 0) (6, 3) = [(0, 0), (1, 1), (2, 1), (3, 2), (4, 2), (5, 3), (6, 3)] ∧
    linePixels (6, 3) (0, 0) = [(6, 3), (5, 2), (4, 2), (3, 1), (2, 1), (1, 0), (0, 0)] ∧
    linePixels (0, 0) (3, -7) =
      [(0, 0), (0, -1), (1, -2), (1, -3), (2, -4), (2, -5), (3, -6), (3, -7)] ∧
    linePixels (3, 3) (3, 3) = [(3, 3)] := by decide

/-- V-L7: only the pixels on screen. -/
theorem test_line :
    writtenPixels (after (.line true 0#3 white ⟨2#16, 0#16⟩ ⟨0xFFFD#16, 1#16⟩) State.reset) =
      [0x40000, 0x40004, 0x40008] := by decide

/-! ## POLY and OUTLINE -/

/-- V-S. -/
theorem test_calcStep :
    calcStep 10 4 .left = 0x00028000#32 ∧ calcStep (-1) 3 .right = 0xFFFFAB00#32 ∧
    calcStep 128 1 .left = 0xFF800000#32 ∧ calcStep (-129) 1 .left = 0xFF7F0000#32 ∧
    calcStep 300 2 .right = 0xFF960000#32 ∧ calcStep (-257) 1 .left = 0xFEFF0000#32 ∧
    calcStep 1000 3 .right = 0x014D0000#32 ∧ calcStep 65535 1 .left = 0xFFFF0000#32 ∧
    calcStep 40000 200 .left = 0xFFC80000#32 ∧ calcStep 5 (-3) .right = 0#32 := by decide

/-- V-P1 and V-P5, the overflow of the 8.8 step. -/
theorem test_scanSpans :
    written Clip.reset (scanSpans Clip.reset [⟨2, 1⟩, ⟨9, 5⟩, ⟨4, 8⟩]) =
      [(1, 2, 2), (2, 2, 4), (3, 3, 6), (4, 3, 7), (5, 3, 9), (6, 3, 7), (7, 4, 6), (8, 4, 4)] ∧
    written Clip.reset (scanSpans Clip.reset [⟨0, 0⟩, ⟨300, 2⟩, ⟨0, 4⟩]) =
      [(0, 0, 0), (1, 0, 0), (2, 0, 255), (3, 0, 150), (4, 0, 0)] := by decide

/-- V-P6, the pre-advance, and V-P13, spans left of the rectangle. -/
theorem test_scanSpans_above_left :
    written Clip.reset (scanSpans Clip.reset [⟨0, 0xFFF6⟩, ⟨10, 0xFFFE⟩, ⟨20, 6⟩, ⟨0, 6⟩]) =
      [(0, 0, 10), (1, 0, 11), (2, 0, 13), (3, 0, 14), (4, 0, 15), (5, 0, 16), (6, 0, 18)] ∧
    written Clip.reset (scanSpans Clip.reset [⟨0, 0⟩, ⟨0xFFF6, 10⟩, ⟨0xFFEC, 0⟩]) = [(0, 0, 0)] := by
  decide

/-- V-P3 and V-P17. -/
theorem test_poly :
    writtenPixels (after (.poly 0#3 white ⟨0, 3⟩ [⟨3, 2⟩, ⟨7, 2⟩, ⟨5, 2⟩]) State.reset) =
      [0x4080C, 0x40810, 0x40814, 0x40818, 0x4081C] ∧
    (after (.polyA 0#3 ⟨7#8, 8#8, 9#8⟩ ⟨0, 1⟩ [⟨5, 6⟩]) State.reset).fb =
      [(0x41814, 7#8), (0x41815, 8#8), (0x41816, 9#8), (0x41817, 0xFF#8)] := by decide

/-- L3-F: only clip pixel (4, 4) is on screen, blended a second time. -/
theorem test_polyA :
    (after (.polyA 0#3 white ⟨0, 3⟩ [⟨0, 0⟩, ⟨4, 0⟩, ⟨4, 4⟩])
      { onePixel 0x40000 0x7F 0x7F 0x7F with clip := ⟨0xFFFC, 0xFFFC, 300, 300⟩ }).fb =
      [(0x40000, 0xBF#8), (0x40001, 0xBF#8), (0x40002, 0xBF#8), (0x40003, 0xFF#8)] := by decide

/-- V-O1 and V-O2. -/
theorem test_outline :
    outlinePixels [⟨0, 0⟩, ⟨4, 0⟩, ⟨4, 2⟩] =
      [(0, 0), (1, 0), (2, 0), (3, 0), (4, 0), (4, 0), (4, 1), (4, 2), (4, 2), (3, 1), (2, 1), (1, 0),
        (0, 0)] ∧
    writtenPixels (after (.outline true 0#3 white ⟨0, 1⟩ [⟨3, 3⟩]) State.reset) = [0x40C0C] := by decide

/-! ## ELLIPSE -/

/-- V-E1, V-E3, V-E6 and V-E7. -/
theorem test_ellipsePoints :
    ellipsePoints 3 2 = [(0, 2), (1, 2), (2, 1), (3, 0)] ∧ ellipsePoints 4 0 = [(0, 0)] ∧
    ellipsePoints 10 1 =
      [(0, 1), (1, 1), (2, 1), (3, 1), (4, 1), (5, 1), (6, 1), (7, 1), (8, 1), (9, 0)] ∧
    ellipsePoints 5 5 = [(0, 5), (1, 5), (2, 5), (3, 4), (4, 3), (5, 2), (5, 1), (5, 0)] := by decide

/-- V-E12: clip rows below 0 are not recorded, columns below 0 are cut. -/
theorem test_ellipseSpans :
    written Clip.reset (ellipseSpans Clip.reset (0, 0) (3, 3)) =
      [(0, 0, 3), (1, 0, 3), (2, 0, 2), (3, 0, 1)] := by decide

/-- V-E5. -/
theorem test_ellipse :
    writtenPixels (after (.ellipse 0#3 white ⟨10, 10⟩ ⟨1, 1⟩) State.reset) =
      [0x42428, 0x42824, 0x42828, 0x4282C, 0x42C28] := by decide

/-- L3-B's blend at one pixel, for the ellipse of V-E2. -/
theorem test_ellipseA :
    (after (.ellipseA 0#3 red ⟨10, 10⟩ ⟨0, 0⟩) (onePixel 0x42828 0x20 0x40 0x60)).pixel 10 10 =
      ⟨0x8F#8, 0x20#8, 0x30#8, 0xFF#8⟩ := by decide

/-! ## NOP, CLEAR, SETCLIP and errors -/

/-- V-K1. -/
theorem test_nop : exec (.nop true 7#3 white) (onePixel 0x40000 1 2 3) =
    .next { onePixel 0x40000 1 2 3 with cmdPos := 1 } := rfl

/-- V-K7, and R211 with a rectangle that sticks out of the screen. -/
theorem test_clear :
    (after (.clear false 0#3 white) (clipped 0 0 0 0)).fb = [] ∧
    writtenPixels (after (.clear true 0#3 white) (clipped 254 222 9 9)) =
      [0x77BF8, 0x77BFC, 0x77FF8, 0x77FFC] := by decide

/-- V-K4. -/
theorem test_setclip :
    let t := after (.setclip false 0#3 white ⟨0xFFFC, 0xFFFC⟩ ⟨300, 300⟩) State.reset
    readValue t 0x10#19 .w32 = 0xFFFCFFFC#32 ∧ readValue t 0x14#19 .w32 = 0x012C012C#32 := by decide

/-- V-X1, V-X6 and V-X2: STATUS and ERR_INFO. -/
theorem test_illegal :
    let t := after (.illegal9 0#28) { State.reset with errIE := true }
    readValue t 0x08#19 .w32 = 0x16#32 ∧ readValue t 0x18#19 .w32 = 0x90000000#32 ∧ t.irq = true ∧
      readValue (after (.illegalCF 0x3FFFFFFF#30) State.reset) 0x08#19 .w32 = 0x12#32 ∧
      readValue (after (.illegalCF 0x3FFFFFFF#30) State.reset) 0x18#19 .w32 = 0xFFFFFFFF#32 ∧
      readValue (after (.illegalAB 0x10000001#29) State.reset) 0x18#19 .w32 = 0xB0000001#32 := by decide

/-- V-X3 and V-X4. -/
theorem test_badVertexCount :
    readValue (after (.poly 0#3 red ⟨0, 0⟩ []) State.reset) 0x08#19 .w32 = 0x22#32 ∧
    readValue (after (.poly 0#3 red ⟨0, 0⟩ []) State.reset) 0x18#19 .w32 = 0x30FF0000#32 ∧
    readValue (after (.outline false 0#3 red ⟨0, 129⟩ []) State.reset) 0x18#19 .w32 = 0x40FF0000#32 := by
  decide

/-- V-X7 and V-X8. -/
theorem test_status :
    readValue { State.reset with idleIE := true } 0x08#19 .w32 = 0x04#32 ∧
    readValue { State.reset with idleIE := true, latch := [0x10FFFFFF#32] } 0x08#19 .w32 = 0x01#32 := by
  decide

/-- V-M: the four bytes of a pixel, read at each width. -/
theorem test_fbRead :
    readValue (onePixel 0x45430 0x12 0x34 0x56) 0x45430#19 .w32 = 0xFF563412#32 ∧
    readValue (onePixel 0x45430 0x12 0x34 0x56) 0x45432#19 .w16 = 0xFF56#32 ∧
    readValue (onePixel 0x45430 0x12 0x34 0x56) 0x45431#19 .w8 = 0x34#32 := by decide

/-! ## Witnesses: encoding -/

/-- DecodeOfEncode, at the counts 0, 1 and 128. -/
theorem witness_DecodeOfEncode :
    (Instr.poly 0#3 red ⟨5, 0⟩ []).wf = true ∧ (Instr.polyA 0#3 red ⟨5, 1⟩ [⟨1, 2⟩]).wf = true ∧
    (Instr.outline true 7#3 red ⟨0, 128⟩ (List.replicate 128 ⟨1, 2⟩)).wf = true :=
  ⟨by decide, by decide, by rw [Instr.wf, List.length_replicate]; rfl⟩

/-- EncodeOfDecode and CommandLengths, at the counts 0, 1 and 129. -/
theorem witness_EncodeOfDecode_CommandLengths :
    decode [0x30000000#32, 0#32, 9#32] = .ok (.poly 0#3 ⟨0, 0, 0⟩ ⟨0, 0⟩ [], [9#32]) ∧
    decode [0x30000000#32, 1#32, 9#32] = .ok (.poly 0#3 ⟨0, 0, 0⟩ ⟨0, 1⟩ [⟨0, 9⟩], []) ∧
    decode [0x40000000#32, 129#32, 9#32] = .ok (.outline false 0#3 ⟨0, 0, 0⟩ ⟨0, 129⟩ [], [9#32]) := by
  decide

/-- A polygon of 128 vertices waits for the last of them, and is then whole. -/
theorem decode_largestPoly (k : Nat) (hk : k ≤ 128) :
    decode (0x30000000#32 :: 128#32 :: List.replicate k 0#32) =
      if k < 128 then .error .incomplete
      else .ok (.poly 0#3 ⟨0, 0, 0⟩ ⟨0, 128⟩ (List.replicate 128 ⟨0, 0⟩), []) := by
  have hop : opOf 0x30000000#32 = 3 := rfl
  have hcnt : (cntOf 128#32).vertexWords = 128 := rfl
  simp only [decode, hop, decodeCounted, hcnt, List.length_replicate]
  split
  · rfl
  · obtain rfl : k = 128 := by omega
    rw [List.take_replicate, List.map_replicate, List.drop_replicate]
    rfl

/-- EveryHeaderDecodes, with exactly 129 words behind the header and the count 128. -/
theorem witness_EveryHeaderDecodes :
    129 ≤ (128#32 :: List.replicate 128 0#32).length ∧
    decode (0x30000000#32 :: 128#32 :: List.replicate 128 0#32) =
      .ok (.poly 0#3 ⟨0, 0, 0⟩ ⟨0, 128⟩ (List.replicate 128 ⟨0, 0⟩), []) :=
  ⟨by rw [List.length_cons, List.length_replicate], decode_largestPoly 128 le_rfl⟩

theorem witness_FieldsStandWhereTheSpecPutsThem :
    (0x2F010203#32).toNat / 2 ^ 28 = 2 ∧ (0x6F010203#32).toNat / 2 ^ 27 = 13 ∧
    (0x8F010203#32).toNat / 2 ^ 28 = 8 := by decide

theorem witness_IgnoredFieldsDoNotMatter :
    (Instr.illegal9 0#28).raises ∧ (Instr.poly 0#3 red ⟨5, 129⟩ []).raises ∧
    ¬(Instr.poly 0#3 red ⟨5, 128⟩ (List.replicate 128 ⟨1, 2⟩)).raises ∧
    ¬(Instr.nop true 7#3 white).raises ∧
    ([⟨5, 6⟩] : List XY).length = 1 ∧ (⟨0, 1⟩ : Cnt).n.toNat = ([⟨5, 6⟩] : List XY).length := by
  refine ⟨.inl rfl, .inr ⟨_, rfl, by decide⟩, ?_, ?_, rfl, rfl⟩
  · rintro (h | ⟨c, h, h2⟩)
    · cases h
    · cases h; exact absurd h2 (by decide)
  · rintro (h | ⟨c, h, -⟩) <;> cases h

/-! ## Witnesses: the engine -/

/-- A machine whose latch holds `ws`, with `fifo` behind it, on the engine's turn. -/
def engineState (ws fifo : List Word) : State :=
  { State.reset with latch := ws, fifo := fifo, schedule := [.engine] }

theorem engineState_runs (ws fifo : List Word) : EngineRuns (engineState ws fifo) [] := ⟨rfl, rfl, rfl⟩

/-- A state with an unwritten framebuffer, at most one word in the FIFO, and no reset in progress meets the
invariant where its latch and its mode are in order. -/
theorem inv_of_parts {s : State} (h1 : s.fb = []) (h2 : s.fifo.length ≤ 1) (h3 : latchOk s.latch)
    (h4 : s.latch.length ≤ 130)
    (h5 : s.mode = .halted → s.fifo = [] ∧ s.latch = [] ∧ (s.errCode = 1#4 ∨ s.errCode = 2#4))
    (h6 : s.mode = .run → s.errCode = 0#4 ∧ s.errInfo = 0#32) (h7 : s.resetIn = false) : s.Inv where
  fbCanonical := by rw [h1]; rfl
  fbInWindow := by rw [h1]; simp
  alphaOpaque := by rw [h1]; simp
  fifoFits := by unfold Config.fifoDepth; omega
  latchWhole := h3
  latchFits := h4
  haltedEmpty := h5
  runNoError := h6
  resetQuiet := fun h => by rw [h7] at h; cases h

/-- A running machine with a whole NOP in the latch and a word in the FIFO. -/
theorem engineState_inv : (engineState [0#32] [5#32]).Inv :=
  inv_of_parts rfl (by decide) (.inr (.inr ⟨.nop false 0#3 ⟨0, 0, 0⟩, by decide⟩)) (by decide)
    (fun h => by cases h) (fun _ => ⟨rfl, rfl⟩) rfl

theorem witness_StepRunsTheLatchedCommand :
    decode (engineState [0#32] []).latch = .ok (.nop false 0#3 ⟨0, 0, 0⟩, []) ∧
    (engineState [0#32] []).schedule = .engine :: [] ∧
    (engineState [0#32] []).resetIn = false ∧ (engineState [0#32] []).mode = .run ∧
    { engineState [0#32] [] with schedule := [] }.schedule = [] := by decide

/-- EngineMovesOneWord, with an empty latch and with 129 words in it. -/
theorem witness_EngineMovesOneWord :
    (∀ i, decode (engineState [] [7#32]).latch ≠ .ok (i, [])) ∧
    (engineState [] [7#32]).fifo = 7#32 :: [] ∧
    decode (0x30000000#32 :: 128#32 :: List.replicate 127 0#32) = .error .incomplete ∧
    (0x30000000#32 :: 128#32 :: List.replicate 127 0#32).length = 129 ∧
    (engineState [] []).fifo = [] := by
  refine ⟨fun i h => ?_, by decide, decode_largestPoly 127 (by omega), by simp, rfl⟩
  cases h

theorem witness_EngineGoesFirstByDefault :
    { engineState [0#32] [5#32] with schedule := [] }.Inv ∧
    { engineState [0#32] [5#32] with schedule := [] }.schedule = [] ∧
    { engineState [0#32] [5#32] with schedule := [] }.fifo ≠ [] ∧
    { engineState [0#32] [5#32] with schedule := [] }.resetIn = false ∧
    { engineState [0#32] [5#32] with schedule := [] }.mode = .run := by
  obtain ⟨h1, h2, h3, h4, h5, h6, h7, h8, h9⟩ := engineState_inv
  exact ⟨⟨h1, h2, h3, h4, h5, h6, h7, h8, h9⟩, rfl, by decide, rfl, rfl⟩

/-- EngineRefinesInOrderExecution, with a command that raises an error among the others, and a master that has
made its last access. -/
theorem witness_EngineRefinesInOrderExecution :
    let is := [Instr.nop false 0#3 red, .outline false 0#3 red ⟨0, 0⟩ [], .point false 0#3 red ⟨1, 1⟩]
    let s := { State.reset with fifo := is.flatMap encode, masters := [⟨[], [.written]⟩] }
    (∀ i ∈ is, i.wf = true) ∧ s.mode = .run ∧ s.resetIn = false ∧ s.schedule = [] ∧ s.latch = [] ∧
      s.fifo = [0x00FF0000#32, 0x40FF0000#32, 0#32, 0x10FF0000#32, 0x00010001#32] ∧
      ∀ m ∈ s.masters, m.requests = [] := by decide

/-- StepKeepsInvariant, NoStepFaults and the two statements about any step. -/
theorem witness_StepKeepsInvariant :
    (engineState [0#32] [5#32]).Inv ∧ step (engineState [0#32] [5#32]) =
      .next { engineState [0#32] [5#32] with schedule := [], latch := [], cmdPos := 1, readDraw := 1 } :=
  ⟨engineState_inv, rfl⟩

/-- OnlySetclipAndResetWriteTheClip and OnlyCommandsWriteTheFramebuffer, where a SETCLIP is executed. -/
theorem witness_OnlySetclipAndResetWriteTheClip :
    step (engineState [0x80000000#32, 0x000A0014#32, 0x00100008#32] []) =
      .next { State.reset with clip := ⟨10, 20, 16, 8⟩, cmdPos := 3, readDraw := 1 } := by rfl

/-! ## Witnesses: bus masters -/

/-- A machine in which it is the turn of master 0, whose next access is `req`. -/
def hostState (req : BusReq) : State :=
  { State.reset with masters := [⟨[req], []⟩], schedule := [.host 0] }

theorem hostState_makes (req : BusReq) : HostMakes (hostState req) 0 req [] :=
  ⟨rfl, rfl, ⟨[req], []⟩, [], rfl, rfl⟩

/-- A CMD write of master 0 is being held. -/
def heldState (fifo : List Word) : State :=
  { hostState (.write 0x0C#19 .w32 9#32) with fifo := fifo, waiting := [0] }

/-- StepKeepsHeldWrites: with room in the FIFO the write is accepted in this step, with none it is held. -/
theorem witness_StepKeepsHeldWrites :
    (∀ fifo, (heldState fifo).HeldInv) ∧
    0 ∈ (heldState []).waiting ∧
    (heldState []).masters[0]? = some ⟨[.write 0x0C#19 .w32 9#32], []⟩ ∧
    (∃ t, step (heldState []) = .next t ∧ t.fifo = [9#32] ∧ t.waiting = []) ∧
    ∃ t, step (heldState (List.replicate Config.fifoDepth 0#32)) = .next t ∧ t.waiting = [0] := by
  refine ⟨fun fifo => ⟨List.nodup_singleton 0, fun k hk => ?_⟩, by decide, rfl, ⟨_,
    step_write (v := 9#32) ⟨rfl, rfl, ⟨[.write 0x0C#19 .w32 9#32], []⟩, [], rfl, rfl⟩ rfl, ?_, ?_⟩, ⟨_,
    step_write (v := 9#32) ⟨rfl, rfl, ⟨[.write 0x0C#19 .w32 9#32], []⟩, [], rfl, rfl⟩ rfl, ?_⟩⟩
  · simp only [heldState, List.mem_singleton] at hk
    subst hk
    exact ⟨⟨[.write 0x0C#19 .w32 9#32], []⟩, _, [], rfl, rfl, rfl⟩
  · simp [busWrite_cmd, writeCmd, cmdAccepts, heldState, hostState, State.reset, Config.fifoDepth]
  · simp [busWrite_cmd, writeCmd, cmdAccepts, heldState, hostState, State.reset, Config.fifoDepth]
  · simp [busWrite_cmd, writeCmd, cmdAccepts, heldState, hostState, State.reset, Config.fifoDepth]

theorem witness_CtrlWriteStoresTheEnables :
    HostMakes (hostState (.write 0x04#19 .w32 0xFFFFFFFE#32)) 0 (.write 0x04#19 .w32 0xFFFFFFFE#32) [] ∧
    (0xFFFFFFFE#32).toNat % 2 = 0 := ⟨hostState_makes _, by decide⟩

/-- ReadsAnswerAndChangeNothingElse, at the last pixel's last byte and at a register. -/
theorem witness_ReadsAnswerAndChangeNothingElse :
    HostMakes (hostState (.read 0x77FFF#19 .w8)) 0 (.read 0x77FFF#19 .w8) [] ∧
    supported 0x77FFF#19 .w8 = true ∧
    HostMakes (hostState (.read 0x18#19 .w32)) 0 (.read 0x18#19 .w32) [] ∧
    supported 0x18#19 .w32 = true := ⟨hostState_makes _, by decide, hostState_makes _, by decide⟩

/-- FramebufferReadsAreLittleEndian, at the last pixel. -/
theorem witness_FramebufferReadsAreLittleEndian :
    (onePixel 0x77FFC 1 2 3).busy = false ∧ 255 < 256 ∧ 223 < 224 := by decide

/-- BusyFramebufferReadsAreFree, at both ends of the window, and in a step of the engine. -/
theorem witness_BusyFramebufferReadsAreFree :
    (engineState [0x10FFFFFF#32] [5#32]).busy = true ∧ Config.fbBase ≤ (0x40000#19 : Offset).toNat ∧
    (0x77FFF#19 : Offset).toNat < Config.fbEnd ∧ turnTaken (engineState [0x10FFFFFF#32] [5#32]) = .engine ∧
    step (engineState [0x10FFFFFF#32] [5#32]) =
      .next { State.reset with latch := [0x10FFFFFF#32, 5#32], readDraw := 1 } :=
  ⟨by decide, by decide, by decide, rfl, rfl⟩

/-- UnsupportedAccessesAreRefused: each ground, and accesses on both sides of 0x40000 that are supported. -/
theorem witness_UnsupportedAccessesAreRefused :
    HostMakes (hostState (.read 0x3FFFC#19 .w16)) 0 (.read 0x3FFFC#19 .w16) [] ∧
    supported 0x3FFFC#19 .w16 = false ∧ supported 0x06#19 .w32 = false ∧
    supported 0x40001#19 .w16 = false ∧ supported 0x3FFFC#19 .w32 = true ∧
    supported 0x40001#19 .w8 = true := ⟨hostState_makes _, by decide⟩

/-- OtherWritesAreIgnored: a framebuffer byte, and a reserved offset just below. -/
theorem witness_OtherWritesAreIgnored :
    HostMakes (hostState (.write 0x40000#19 .w8 7#32)) 0 (.write 0x40000#19 .w8 7#32) [] ∧
    supported 0x40000#19 .w8 = true ∧ supported 0x3FFFC#19 .w32 = true ∧ (0x40000#19 : Offset) ≠ 0x04#19 ∧
    (0x40000#19 : Offset) ≠ 0x0C#19 := ⟨hostState_makes _, by decide⟩

/-- CmdWriteCases: room with no write held, with this one held longest, and with another's held longer; a full
FIFO; a halted engine. -/
theorem witness_CmdWriteCases :
    let s := hostState (.write 0x0C#19 .w32 9#32)
    let full := List.replicate Config.fifoDepth 0#32
    HostMakes s 0 (.write 0x0C#19 .w32 9#32) [] ∧ s.mode = .run ∧ s.fifo.length < Config.fifoDepth ∧
      s.waiting = [] ∧
      HostMakes { s with waiting := [0, 1] } 0 (.write 0x0C#19 .w32 9#32) [] ∧
      { s with waiting := [0, 1] }.waiting = 0 :: [1] ∧
      HostMakes { s with waiting := [1] } 0 (.write 0x0C#19 .w32 9#32) [] ∧
      { s with waiting := [1] }.waiting = 1 :: [] ∧ 0 ∉ [1] ∧ 0 ∈ [1, 0] ∧
      HostMakes { s with fifo := full } 0 (.write 0x0C#19 .w32 9#32) [] ∧
      Config.fifoDepth ≤ full.length ∧
      HostMakes { s with mode := .halted } 0 (.write 0x0C#19 .w32 9#32) [] :=
  ⟨hostState_makes _, rfl, by simp [hostState, State.reset, Config.fifoDepth], rfl,
    ⟨rfl, rfl, _, [], rfl, rfl⟩, rfl, ⟨rfl, rfl, _, [], rfl, rfl⟩, rfl, by decide, by decide,
    ⟨rfl, rfl, _, [], rfl, rfl⟩, by simp, ⟨rfl, rfl, _, [], rfl, rfl⟩⟩

/-! ## Witnesses: errors and resets -/

theorem witness_CommandErrorsHaltTheEngine :
    (⟨0xFFFF, 0⟩ : Cnt).n.toNat = 0 ∧ 128 < (⟨0, 129⟩ : Cnt).n.toNat := by decide

/-- ErrorsAreDetectedThereAndNowhereElse, at the opcode 9 and the counts 0 and 129. -/
theorem witness_ErrorsAreDetectedThereAndNowhereElse :
    EngineRuns (engineState [0x90000000#32] []) [] ∧ 9 ≤ (0x90000000#32).toNat / 2 ^ 28 ∧
    EngineRuns (engineState [0x38000000#32, 0#32] []) [] ∧ (0x38000000#32).toNat / 2 ^ 28 = 3 ∧
    (0x40000000#32).toNat / 2 ^ 28 = 4 ∧ 128 < (0xFFFF0081#32).toNat % 65536 ∧
    exec (.illegal9 0#28) State.reset =
      .next { State.reset with mode := .halted, errCode := 1#4, errInfo := 0x90000000#32 } ∧
    hostTurn 0 { hostState (.read 0x08#19 .w32) with mode := .halted } =
      .next { hostState (.read 0x08#19 .w32) with
        mode := .halted, masters := [⟨[], [.data 2#32]⟩] } := by
  refine ⟨engineState_runs _ _, by decide, engineState_runs _ _, by decide, by decide, by decide, rfl, rfl⟩

/-- A halted machine. -/
def haltedState (req : BusReq) : State :=
  { hostState req with mode := .halted, errCode := 2#4, errInfo := 0x30FF0000#32 }

/-- WhileHalted, clause by clause. -/
theorem witness_WhileHalted :
    let s := haltedState (.write 0x0C#19 .w32 9#32)
    s.mode = .halted ∧ s.fifo = [] ∧ s.latch = [] ∧
      { s with schedule := [.engine] }.schedule = .engine :: [] ∧
      HostMakes s 0 (.write 0x0C#19 .w32 9#32) [] ∧ Config.fbBase ≤ (0x40000#19 : Offset).toNat ∧
      (0x77FFF#19 : Offset).toNat < Config.fbEnd ∧
      HostMakes (haltedState (.write 0x04#19 .w32 6#32)) 0 (.write 0x04#19 .w32 6#32) [] ∧
      (6#32).getLsbD 0 = false :=
  ⟨rfl, rfl, rfl, rfl, ⟨rfl, rfl, _, [], rfl, rfl⟩, by decide, by decide,
    ⟨rfl, rfl, _, [], rfl, rfl⟩, by decide⟩

/-- OnlyAResetLeavesHalted, in a step that is a soft reset. -/
theorem witness_OnlyAResetLeavesHalted :
    let s := haltedState (.write 0x04#19 .w32 1#32)
    s.Inv ∧ s.mode = .halted ∧
      step s = .next { State.reset with masters := [⟨[], [.written]⟩], readDraw := 1 } :=
  ⟨inv_of_parts rfl (by decide) (.inl rfl) (by decide) (fun _ => ⟨rfl, rfl, .inr rfl⟩)
    (fun h => by cases h) rfl, rfl, rfl⟩

/-- ResetInput, clause by clause: asserted over a held write; and while it is asserted, an engine turn, an
access issued, the held one; and the release. -/
theorem witness_ResetInput :
    { heldState [] with schedule := [.resetAssert] }.schedule = .resetAssert :: [] ∧
    { heldState [] with schedule := [.resetAssert] }.waiting = [0] ∧
    { engineState [0#32] [] with resetIn := true }.schedule = .engine :: [] ∧
    { hostState (.read 0x08#19 .w32) with resetIn := true }.schedule = .host 0 :: [] ∧
    { hostState (.read 0x08#19 .w32) with resetIn := true }.masters[0]? =
      some ⟨[.read 0x08#19 .w32], []⟩ ∧
    0 ∉ { hostState (.read 0x08#19 .w32) with resetIn := true }.waiting ∧
    { heldState [] with resetIn := true }.schedule = .host 0 :: [] ∧
    { heldState [] with resetIn := true }.masters[0]? = some ⟨[.write 0x0C#19 .w32 9#32], []⟩ ∧
    0 ∈ { heldState [] with resetIn := true }.waiting ∧
    { State.reset with resetIn := true, schedule := [.resetRelease] }.schedule = .resetRelease :: [] := by
  decide

theorem witness_SoftResetByCtrl :
    HostMakes (hostState (.write 0x04#19 .w32 7#32)) 0 (.write 0x04#19 .w32 7#32) [] ∧
    (7#32).toNat % 2 = 1 := ⟨hostState_makes _, by decide⟩

/-- HeldWriteStartsTheNewStream: master 1's write is held, and master 0 resets. -/
theorem witness_HeldWriteStartsTheNewStream :
    let s := { hostState (.write 0x04#19 .w32 1#32) with
      masters := [⟨[.write 0x04#19 .w32 1#32], []⟩, ⟨[.write 0x0C#19 .w32 9#32], []⟩]
      waiting := [1]
      fifo := List.replicate Config.fifoDepth 0#32
      schedule := [.host 0, .host 1] }
    HostMakes s 0 (.write 0x04#19 .w32 1#32) (.host 1 :: []) ∧ (1#32).toNat % 2 = 1 ∧ 0 ≠ 1 ∧
      s.waiting = 1 :: [] ∧ s.masters[1]? = some ⟨[.write 0x0C#19 .w32 9#32], []⟩ :=
  ⟨⟨rfl, rfl, _, [], rfl, rfl⟩, by decide, by decide, rfl, rfl⟩

/-! ## Witnesses: drawing -/

theorem witness_PixelsChangeOnlyInsideTheClip :
    exec (.clear false 0#3 red) (clipped 0 0 0 0) =
      .next { clipped 0 0 0 0 with cmdPos := 1 } := by rfl

theorem witness_WriteOrderDoesNotMatter :
    Memory.wf [] = true ∧ ([(0, 0), (1, 0)] : List Point).Nodup ∧
    ([(0, 0), (1, 0)] : List Point).Perm [(1, 0), (0, 0)] := by decide

/-- BlendOverOwnColourChangesNothing: a rectangle of one pixel that holds the colour. -/
theorem witness_BlendOverOwnColourChangesNothing :
    let s := { onePixel 0x40000 0xFF 0 0 with clip := ⟨0, 0, 1, 1⟩ }
    (∀ sx sy, sx < 256 → sy < 224 → s.insideClip (s.clipPoint sx sy) →
      s.pixel sx sy = ⟨red.r, red.g, red.b, 0xFF#8⟩) ∧
    1 ≤ (⟨0, 1⟩ : Cnt).n.toNat ∧ (⟨0, 128⟩ : Cnt).n.toNat ≤ 128 := by
  refine ⟨fun sx sy hx hy h => ?_, by decide, by decide⟩
  obtain ⟨h1, h2, h3, h4⟩ := h
  have e1 : sx = 0 := by simp [State.clipPoint] at h1 h2; omega
  have e2 : sy = 0 := by simp [State.clipPoint] at h3 h4; omega
  subst e1 e2
  decide

/-- LineWalkShape and LineWalkDiagonalSteps: a step, and the last pixel, of a walk along either axis. -/
theorem witness_LineWalkShape :
    0 < max ((3 : Int) - 0).natAbs ((-7 : Int) - 0).natAbs ∧
    7 ≤ max ((3 : Int) - 0).natAbs ((-7 : Int) - 0).natAbs ∧
    ((3 : Int) - 0).natAbs < ((-7 : Int) - 0).natAbs ∧ ((3 : Int) - 0).natAbs ≤ ((6 : Int) - 0).natAbs := by
  decide

/-- SmallPolygons, clause by clause. -/
theorem witness_SmallPolygons :
    (⟨9, 1⟩ : Cnt).n.toNat = 1 ∧ (⟨9, 2⟩ : Cnt).n.toNat = 2 ∧ (⟨3, 7⟩ : XY).y = (⟨8, 7⟩ : XY).y ∧
    (⟨3, 7⟩ : XY).x.toInt ≤ (⟨8, 7⟩ : XY).x.toInt := by decide

/-- PolygonPaintsItsSpans and OutlinePaintsItsEdges, at their smallest and largest counts. -/
theorem witness_PolygonPaintsItsSpans :
    (List.replicate 3 (⟨1, 2⟩ : XY)).length = (⟨0, 3⟩ : Cnt).n.toNat ∧ 3 ≤ (⟨0, 3⟩ : Cnt).n.toNat ∧
    (List.replicate 128 (⟨1, 2⟩ : XY)).length = (⟨0, 128⟩ : Cnt).n.toNat ∧
    (⟨0, 128⟩ : Cnt).n.toNat ≤ 128 ∧
    ([⟨3, 3⟩] : List XY).length = (⟨0, 1⟩ : Cnt).n.toNat ∧ 1 ≤ (⟨0, 1⟩ : Cnt).n.toNat :=
  ⟨rfl, by decide, by rw [List.length_replicate]; rfl, by decide⟩

/-- PolygonOutsideTheClipPaintsNothing: just left, right, above and below. -/
theorem witness_PolygonOutsideTheClipPaintsNothing :
    ([⟨0xFFFF, 0⟩, ⟨0xFFFF, 5⟩, ⟨0xFFFE, 2⟩] : List XY).length = (⟨0, 3⟩ : Cnt).n.toNat ∧
    3 ≤ (⟨0, 3⟩ : Cnt).n.toNat ∧ (⟨0, 3⟩ : Cnt).n.toNat ≤ 128 ∧
    (∀ v ∈ ([⟨0xFFFF, 0⟩, ⟨0xFFFF, 5⟩, ⟨0xFFFE, 2⟩] : List XY), v.x.toInt < 0) ∧
    (∀ v ∈ ([⟨256, 0⟩, ⟨256, 5⟩, ⟨300, 2⟩] : List XY), v.x.toInt > (Clip.reset.crw.toNat : Int) - 1) ∧
    (∀ v ∈ ([⟨0, 0xFFFF⟩, ⟨5, 0xFFFF⟩, ⟨2, 0xFFFE⟩] : List XY), v.y.toInt < 0) ∧
    ∀ v ∈ ([⟨0, 224⟩, ⟨5, 224⟩, ⟨2, 300⟩] : List XY), v.y.toInt > (Clip.reset.crh.toNat : Int) - 1 := by
  decide

theorem witness_FlatPolygonFillsItsRow :
    ([⟨3, 2⟩, ⟨7, 2⟩, ⟨5, 2⟩] : List XY).length = (⟨0, 3⟩ : Cnt).n.toNat ∧
    3 ≤ (⟨0, 3⟩ : Cnt).n.toNat ∧ (⟨0, 3⟩ : Cnt).n.toNat ≤ 128 ∧
    ∀ v ∈ ([⟨3, 2⟩, ⟨7, 2⟩, ⟨5, 2⟩] : List XY), v.y = 2 := by decide

/-- RectangleIsFilledExactly, with one column and two rows. -/
theorem witness_RectangleIsFilledExactly :
    (⟨0, 4⟩ : Cnt).n.toNat = 4 ∧ (0xFFFF#16 : Half).toInt ≤ (0xFFFF#16 : Half).toInt ∧
    (0xFFFF#16 : Half).toInt < (0#16 : Half).toInt := by decide

/-- PolygonRowsAreWalkedInOrder: the triangle of V-P1, with the last row above the ends of its initial edges,
and one that starts above the clip, with the first row. -/
theorem witness_PolygonRowsAreWalkedInOrder :
    (let vs : List XY := [⟨2, 1⟩, ⟨9, 5⟩, ⟨4, 8⟩]
     vs ≠ [] ∧ polyRejected Clip.reset vs = false ∧ polyYmin vs ≠ polyYmax vs ∧
        3 < (scanSpans Clip.reset vs).length ∧ max 0 (polyYmin vs) + 3 < (edgeFrom .left vs 0).ey ∧
        max 0 (polyYmin vs) + 3 < (edgeFrom .right vs 0).ey) ∧
    (let vs : List XY := [⟨0, 0xFFF6⟩, ⟨10, 6⟩, ⟨0, 6⟩]
     vs ≠ [] ∧ polyRejected Clip.reset vs = false ∧ polyYmin vs < 0 ∧ polyYmin vs ≠ polyYmax vs ∧
        0 < (scanSpans Clip.reset vs).length ∧ max 0 (polyYmin vs) + 0 < (edgeFrom .left vs 0).ey ∧
        max 0 (polyYmin vs) + 0 < (edgeFrom .right vs 0).ey) := by decide

/-- CalcStepValues: each clause at its boundary. -/
theorem witness_CalcStepValues :
    (0 : Int) ≤ 0 ∧ (-(256 * (2 - 1)) ≤ (-256 : Int) ∧ (511 : Int) < 256 * 2) ∧
    ((-257 : Int) < -(256 * (2 - 1)) ∧ 256 * 2 ≤ (512 : Int)) ∧
    ((127 : Int).natAbs : Int) < 128 * 1 ∧
    256 * (1 : Int) ≤ (-256 : Int).natAbs ∧ ((-256 : Int).tdiv 1).natAbs < 32768 ∧
    ((32767 : Int).tdiv 1).natAbs < 32768 := by decide

/-- EdgesStartAtTheirVertex: the first and the last vertex, a row with a pre-advance, and a value that
overflows 32 bits and one that does not. -/
theorem witness_EdgesStartAtTheirVertex :
    0 < ([⟨2, 1⟩, ⟨9, 5⟩, ⟨4, 8⟩] : List XY).length ∧ 2 < ([⟨2, 1⟩, ⟨9, 5⟩, ⟨4, 8⟩] : List XY).length ∧
    (-10 : Int) < 0 ∧ (edgeFrom .left [⟨2, 1⟩, ⟨9, 5⟩, ⟨4, 8⟩] 0).step.toInt = 0x4900 ∧
    -(2 ^ 31) ≤ (2 : Int) * 65536 + 3 * 0x4900 + 32768 ∧ (2 : Int) * 65536 + 3 * 0x4900 + 32768 < 2 ^ 31 ∧
    ¬(32767 : Int) * 65536 + 1 * 65536 + 32768 < 2 ^ 31 := by decide

theorem witness_AdvanceLoopsRunToTheirEnd :
    (edgeFrom .left [⟨2, 1⟩, ⟨9, 5⟩, ⟨4, 8⟩] 0).tip < ([⟨2, 1⟩, ⟨9, 5⟩, ⟨4, 8⟩] : List XY).length ∧
    2 < ([⟨2, 1⟩, ⟨9, 5⟩, ⟨4, 8⟩] : List XY).length ∧
    ([⟨2, 1⟩, ⟨9, 5⟩, ⟨4, 8⟩] : List XY).length ≤ 3 := by decide

/-- EllipseWalkRunsToItsEnd: the first and the last step of the walk of V-E7, the last point of region 1 and
the first of region 2, and the least number of rounds. -/
theorem witness_EllipseWalkRunsToItsEnd :
    0 + 1 < (ellipsePoints 5 5).length ∧ 6 + 1 < (ellipsePoints 5 5).length ∧
    (ellipsePoints 5 5).getD 3 (0, 0) = (3, 4) ∧ (5 * 5 : Int) * 3 < 5 * 5 * 4 ∧
    (ellipsePoints 5 5).getD 4 (0, 0) = (4, 3) ∧ ¬(5 * 5 : Int) * 4 < 5 * 5 * 3 ∧
    3 * 3 * 2 ≤ 18 ∧ ((ellipseStart 3 2).y + 1).toNat ≤ 3 := by decide

/-- DegenerateEllipses: each clause, and the radii (0, 0), where both say one pixel, the centre. -/
theorem witness_DegenerateEllipses :
    (⟨4, 0⟩ : XY).y = 0#16 ∧ (⟨0, 3⟩ : XY).x = 0#16 ∧ (⟨0, 0⟩ : XY).y = 0#16 ∧ (⟨0, 0⟩ : XY).x = 0#16 ∧
    writtenPixels (after (.ellipse 0#3 white ⟨10, 10⟩ ⟨0, 0⟩) State.reset) = [0x42828] ∧
    ∀ p : Point, p = (10, 10) ↔ p.1 = 10 ∧ (p.2 - 10).natAbs ≤ (0#16 : Half).toInt.natAbs := by
  refine ⟨rfl, rfl, rfl, rfl, by decide, fun p => ⟨?_, fun ⟨h1, h2⟩ => Prod.ext h1 ?_⟩⟩
  · rintro rfl; decide
  · have : (0#16 : Half).toInt.natAbs = 0 := rfl
    omega

/-- NopOnlyAdvances and SetclipSetsTheRectangle. -/
theorem witness_NopOnlyAdvances_SetclipSetsTheRectangle :
    EngineRuns (engineState [0x0FFFFFFF#32] []) [] ∧ (0x0FFFFFFF#32).toNat / 2 ^ 28 = 0 ∧
    EngineRuns (engineState [0x8FFFFFFF#32, 1#32, 2#32] []) [] ∧ (0x8FFFFFFF#32).toNat / 2 ^ 28 = 8 :=
  ⟨engineState_runs _ _, by decide, engineState_runs _ _, by decide⟩

end Sys2Proof.Tests
end

section
/-! PROOFS. The invariant of the machine (10_state.md R32, R33, R37): every way a step can end, as
Laws/Step.lean lists them, keeps it. -/

namespace Sys2Proof.Machine

/-! ## The invariant of a state by its parts -/

/-- The framebuffer clauses of the invariant. -/
theorem State.Inv.fbOk {s : State} (h : s.Inv) : FbOk s.fb := ⟨h.fbCanonical, h.fbInWindow, h.alphaOpaque⟩

/-- The invariant reads only the framebuffer, the command stream, the engine's mode and error record, and the
reset input. -/
theorem State.Inv.of_same {s t : State} (h : s.Inv) (hfb : t.fb = s.fb) (hfifo : t.fifo = s.fifo)
    (hlatch : t.latch = s.latch) (hmode : t.mode = s.mode) (hcode : t.errCode = s.errCode)
    (hinfo : t.errInfo = s.errInfo) (hres : t.resetIn = s.resetIn) : t.Inv where
  fbCanonical := hfb ▸ h.fbCanonical
  fbInWindow := hfb ▸ h.fbInWindow
  alphaOpaque := hfb ▸ h.alphaOpaque
  fifoFits := hfifo ▸ h.fifoFits
  latchWhole := hlatch ▸ h.latchWhole
  latchFits := hlatch ▸ h.latchFits
  haltedEmpty := by rw [hmode, hfifo, hlatch, hcode]; exact h.haltedEmpty
  runNoError := by rw [hmode, hcode, hinfo]; exact h.runNoError
  resetQuiet := by rw [hres, hmode, hfifo, hlatch]; exact h.resetQuiet

theorem State.Inv.complete {s : State} (h : s.Inv) (k : Nat) (r : BusResp) : (s.complete k r).Inv :=
  h.of_same rfl rfl rfl rfl rfl rfl rfl

theorem State.Inv.renewReads {s : State} (h : s.Inv) : s.renewReads.Inv :=
  h.of_same rfl rfl rfl rfl rfl rfl rfl

/-- A running engine, out of reset, with no error recorded meets the invariant where its memory and its queues
are in order. -/
theorem inv_of_running {s : State} (hfb : FbOk s.fb) (hfifo : s.fifo.length ≤ Config.fifoDepth)
    (hlatch : latchOk s.latch) (hlen : s.latch.length ≤ Config.latchCapacity) (hrun : s.mode = .run)
    (herr : s.errCode = 0#4 ∧ s.errInfo = 0#32) (hres : s.resetIn = false) : s.Inv where
  fbCanonical := hfb.canonical
  fbInWindow := hfb.inWindow
  alphaOpaque := hfb.alphaOpaque
  fifoFits := hfifo
  latchWhole := hlatch
  latchFits := hlen
  haltedEmpty h := by rw [hrun] at h; cases h
  runNoError _ := herr
  resetQuiet h := by rw [hres] at h; cases h

/-- An engine at its reset values meets the invariant, whether or not the reset input is still asserted
(10_state.md R39). -/
theorem inv_of_resetValues {s : State} (hfb : FbOk s.fb) (hrun : s.mode = .run) (hfifo : s.fifo = [])
    (hlatch : s.latch = []) (herr : s.errCode = 0#4 ∧ s.errInfo = 0#32) : s.Inv where
  fbCanonical := hfb.canonical
  fbInWindow := hfb.inWindow
  alphaOpaque := hfb.alphaOpaque
  fifoFits := by simp [hfifo]
  latchWhole := .inl hlatch
  latchFits := by simp [hlatch]
  haltedEmpty h := by rw [hrun] at h; cases h
  runNoError _ := herr
  resetQuiet _ := ⟨hrun, hfifo, hlatch⟩

theorem State.Inv.softReset {s : State} (h : s.Inv) : (softReset s).Inv := by
  refine inv_of_resetValues ?_ (by simp) (by simp) (by simp) (by simp)
  rw [softReset_fb]
  split
  · exact FbOk.empty
  · exact h.fbOk

theorem inv_assertReset (s : State) : (assertReset s).Inv :=
  inv_of_resetValues FbOk.empty rfl rfl rfl ⟨rfl, rfl⟩

theorem State.Inv.releaseReset {s : State} (h : s.Inv) : { s with resetIn := false }.Inv :=
  { h with resetQuiet := fun h => by cases h }

/-! ## The engine's turn -/

theorem CmdError.code_cases (e : CmdError) : e.code = 1#4 ∨ e.code = 2#4 := by
  cases e
  · exact .inl rfl
  · exact .inr rfl

/-- A command error leaves a halted engine with empty queues and a code of R230 (60_exceptions.md R232). -/
theorem State.Inv.raiseCmdError {s : State} (h : s.Inv) (hres : s.resetIn = false) (e : CmdError)
    (header : Word) : (raiseCmdError e header s).Inv where
  fbCanonical := h.fbCanonical
  fbInWindow := h.fbInWindow
  alphaOpaque := h.alphaOpaque
  fifoFits := Nat.zero_le _
  latchWhole := .inl rfl
  latchFits := Nat.zero_le _
  haltedEmpty _ := ⟨rfl, rfl, e.code_cases⟩
  runNoError h := by cases h
  resetQuiet h := by rw [raiseCmdError_resetIn, hres] at h; cases h

theorem ExecEffect.inv {i : Instr} {s t : State} (he : ExecEffect i s t) (h : s.Inv) (hrun : s.mode = .run)
    (hres : s.resetIn = false) : t.Inv := by
  cases he with
  | draws words rgb m hm =>
    exact inv_of_running (hm.fbOk h.fbOk) h.fifoFits (.inl rfl) (Nat.zero_le _) hrun (h.runNoError hrun) hres
  | setsClip =>
    exact inv_of_running h.fbOk h.fifoFits (.inl rfl) (Nat.zero_le _) hrun (h.runNoError hrun) hres
  | raises e => exact h.raiseCmdError hres e _

theorem EngineEffect.inv {s t : State} (he : EngineEffect s t) (h : s.Inv) : t.Inv := by
  cases he with
  | idle => exact h
  | executes i t hrun hres _ hx => exact hx.inv h.renewReads hrun hres
  | moves w rest hrun hres hlatch hfifo hroom =>
    have hrest : rest.length ≤ Config.fifoDepth := by
      have := h.fifoFits
      rw [hfifo, List.length_cons] at this
      omega
    have hlen : (s.latch ++ [w]).length ≤ Config.latchCapacity := by
      rw [List.length_append, List.length_singleton]
      omega
    exact inv_of_running h.fbOk hrest (latchOk_append w hlatch h.latchWhole) hlen hrun (h.runNoError hrun) hres

/-! ## A master's turn -/

/-- A CMD write is appended only where the FIFO has room for it (10_state.md R27, R32). -/
theorem State.Inv.append {s : State} (h : s.Inv) (hrun : s.mode = .run) (hres : s.resetIn = false)
    (hroom : s.fifo.length < Config.fifoDepth) (v : Word) (waiting : List Nat) :
    { s.renewReads with fifo := s.fifo ++ [v], waiting := waiting }.Inv :=
  inv_of_running h.fbOk (by rw [List.length_append, List.length_singleton]; omega) h.latchWhole h.latchFits hrun
    (h.runNoError hrun) hres

theorem WriteEffect.inv {k : Nat} {off : Offset} {v : Word} {s t : State} (he : WriteEffect k off v s t)
    (h : s.Inv) (hres : s.resetIn = false) : t.Inv := by
  cases he with
  | ignored => exact h.complete k _
  | ctrl => exact h.of_same rfl rfl rfl rfl rfl rfl rfl
  | reset => exact h.renewReads.softReset.complete k _
  | discarded => exact h.of_same rfl rfl rfl rfl rfl rfl rfl
  | accepted _ hrun hroom => exact (h.append hrun hres hroom v _).complete k _
  | held => exact h
  | hold => exact h.of_same rfl rfl rfl rfl rfl rfl rfl

theorem HostEffect.inv {k : Nat} {s t : State} (he : HostEffect k s t) (h : s.Inv) : t.Inv := by
  cases he with
  | idle => exact h
  | reads => exact h.complete k _
  | writes _ _ _ _ _ hres _ _ _ _ hw => exact hw.inv h hres

/-! ## A step -/

theorem TurnEffect.inv {tn : Turn} {s t : State} (he : TurnEffect s tn t) (h : s.Inv) : t.Inv := by
  cases he with
  | engine _ he => exact he.inv h
  | host _ _ he => exact he.inv h
  | asserts => exact inv_assertReset s
  | releases => exact h.releaseReset

/-- Settles O12: each way a turn can end keeps the invariant, and taking an entry off the schedule touches no
part of it. -/
theorem stepKeepsInvariant : Obligations.StepKeepsInvariant := by
  intro s t h hstep
  exact (step_effect hstep).inv (h.of_same rfl rfl rfl rfl rfl rfl rfl)

/-- Settles O13: power-on reset leaves an unwritten framebuffer, the engine at its reset values and no held
write. -/
theorem resetMeetsInvariant : Obligations.ResetMeetsInvariant :=
  ⟨inv_of_resetValues FbOk.empty rfl rfl rfl ⟨rfl, rfl⟩, List.nodup_nil, fun _ hk => by cases hk⟩

end Sys2Proof.Machine
end

section
/-! PROOFS. What a step does to the clipping registers and the framebuffer (10_state.md R31, R37), and to the
held CMD writes (R27). -/

namespace Sys2Proof.Machine

/-! ## Resets and executed commands -/

/-- Below the framebuffer window only 32-bit accesses are supported (20_memory.md R65). -/
theorem width_of_supported {off : Offset} {w : Width} (h : supported off w = true)
    (hoff : off.toNat < Config.fbBase) : w = .w32 := by
  rw [supported, if_pos hoff, Bool.and_eq_true, beq_iff_eq] at h
  exact h.1

/-- A supported write of CTRL with SRST, made at its master's turn, is a reset (10_state.md R25). -/
theorem takesReset_of_write {s : State} {k : Nat} {m : Master} {off : Offset} {w : Width} {v : Word}
    {rest : List BusReq} (hturn : turnTaken s = .host k) (hm : s.masters[k]? = some m)
    (hreq : m.requests = .write off w v :: rest) (hsup : supported off w = true) (hoff : off.toNat = 0x04)
    (hv : v.getLsbD 0 = true) : TakesReset s := by
  have hw : w = .w32 := width_of_supported hsup (by rw [hoff]; decide)
  have hoff' : off = 0x04#19 := BitVec.eq_of_toNat_eq hoff
  subst hw hoff'
  exact .inr ⟨k, m, v, rest, hturn, hm, hreq, (getLsbD_zero_iff v).1 hv⟩

/-- A write leaves the clipping registers and the framebuffer, or is a soft reset (20_memory.md R64). -/
theorem WriteEffect.keeps_or_resets {k : Nat} {off : Offset} {v : Word} {s t : State}
    (h : WriteEffect k off v s t) :
    (t.clip = s.clip ∧ t.fb = s.fb ∧ t.fbDraw = s.fbDraw) ∨
      (off.toNat = 0x04 ∧ v.getLsbD 0 = true ∧ t = (softReset s.renewReads).complete k .written) := by
  cases h with
  | reset hoff hv => exact .inr ⟨hoff, hv, rfl⟩
  | ignored | ctrl | discarded | accepted | held | hold => exact .inl ⟨rfl, rfl, rfl⟩

/-- A soft reset keeps the framebuffer, or makes all of it a fresh draw (70_reset_and_hazards.md R263). -/
theorem softReset_fb_cases (s : State) :
    ((softReset s).fb = s.fb ∧ (softReset s).fbDraw = s.fbDraw) ∨
      ((softReset s).fb = [] ∧ (softReset s).fbDraw = s.fbDraw + 1) := by
  rw [softReset_fb, softReset_fbDraw]
  cases s.busy
  · exact .inl ⟨rfl, rfl⟩
  · exact .inr ⟨rfl, rfl⟩

/-- What a step does to the clipping registers and the framebuffer: it leaves them, or is a reset, or executes
the command in the latch. -/
theorem step_keeps_or_resets_or_executes {s t : State} (h : step s = .next t) :
    (t.clip = s.clip ∧ t.fb = s.fb ∧ t.fbDraw = s.fbDraw) ∨
    (TakesReset s ∧ t.clip = Clip.reset ∧
      ((t.fb = s.fb ∧ t.fbDraw = s.fbDraw) ∨ (t.fb = [] ∧ t.fbDraw = s.fbDraw + 1))) ∨
    ∃ i, TakesCommand s i ∧ ExecEffect i { s with schedule := s.schedule.tail }.renewReads t := by
  have he := step_effect h
  generalize hturn : turnTaken s = turn at he
  cases he with
  | asserts => exact .inr (.inl ⟨.inl hturn, rfl, .inr ⟨rfl, rfl⟩⟩)
  | releases => exact .inl ⟨rfl, rfl, rfl⟩
  | engine _ he =>
    cases he with
    | idle => exact .inl ⟨rfl, rfl, rfl⟩
    | moves => exact .inl ⟨rfl, rfl, rfl⟩
    | executes i _ hrun hres hlatch hx => exact .inr (.inr ⟨i, ⟨hturn, hres, hrun, hlatch⟩, hx⟩)
  | host k _ he =>
    cases he with
    | idle => exact .inl ⟨rfl, rfl, rfl⟩
    | reads => exact .inl ⟨rfl, rfl, rfl⟩
    | writes off w v m rest _ hm hreq hsup _ hw =>
      obtain hkeeps | ⟨hoff, hv, rfl⟩ := hw.keeps_or_resets
      · exact .inl hkeeps
      · exact .inr (.inl ⟨takesReset_of_write hturn hm hreq hsup hoff hv, by simp, softReset_fb_cases _⟩)

/-- Settles O16: of the ways a command can end only a SETCLIP's writes the clipping registers. -/
theorem onlySetclipAndResetWriteTheClip : Obligations.OnlySetclipAndResetWriteTheClip := by
  intro s t hstep
  obtain ⟨hclip, -⟩ | ⟨hreset, hclip, -⟩ | ⟨i, htakes, hx⟩ := step_keeps_or_resets_or_executes hstep
  · exact .inl hclip
  · exact .inr (.inl ⟨hreset, hclip⟩)
  · cases hx with
    | draws => exact .inl rfl
    | raises => exact .inl rfl
    | setsClip a rsv rgb org size hi => exact .inr (.inr ⟨a, rsv, rgb, org, size, hi ▸ htakes, rfl⟩)

/-- A command takes no fresh draw for the bytes nothing has written. -/
theorem ExecEffect.fbDraw_eq {i : Instr} {s t : State} (h : ExecEffect i s t) : t.fbDraw = s.fbDraw := by
  cases h <;> rfl

/-- Settles O17: a step that is no reset and executes no command leaves the framebuffer. -/
theorem onlyCommandsWriteTheFramebuffer : Obligations.OnlyCommandsWriteTheFramebuffer := by
  intro s t hstep
  obtain ⟨-, hfb⟩ | ⟨hreset, -, hfb | hfb⟩ | ⟨i, htakes, hx⟩ := step_keeps_or_resets_or_executes hstep
  · exact .inl hfb
  · exact .inl hfb
  · exact .inr (.inl ⟨hreset, hfb⟩)
  · exact .inr (.inr ⟨hx.fbDraw_eq, i, htakes⟩)

/-! ## Held CMD writes -/

/-- What becomes of the write that master `k` holds, with `req` the access and `rest` those behind it: it goes on
waiting, or completes (10_state.md R27). -/
def HeldOutcome (s t : State) (k : Nat) (m : Master) (req : BusReq) (rest : List BusReq) : Prop :=
  (k ∈ t.waiting ∧ t.masters[k]? = some m) ∨
  (k ∉ t.waiting ∧ t.masters[k]? = some ⟨rest, .written :: m.responses⟩ ∧
    ((s.mode = .run ∧ ∃ v, req = .write 0x0C#19 .w32 v ∧ t.fifo = s.fifo ++ [v]) ∨
      (s.mode = .halted ∧ t.fifo = s.fifo)))

/-- From `s` to `t` no held write is lost, and the list of them stays in order. -/
def KeepsHeld (s t : State) : Prop :=
  t.HeldInv ∧ ∀ k m req rest, k ∈ s.waiting → s.masters[k]? = some m → m.requests = req :: rest →
    HeldOutcome s t k m req rest

/-- Nothing happens to the held writes where the masters and the list stay as they are. -/
theorem KeepsHeld.of_same {s t : State} (h : s.HeldInv) (hm : t.masters = s.masters)
    (hw : t.waiting = s.waiting) : KeepsHeld s t := by
  refine ⟨⟨hw ▸ h.once, ?_⟩, fun k m req rest hk hmk _ => .inl ⟨hw ▸ hk, hm ▸ hmk⟩⟩
  rw [hm, hw]
  exact h.pending

theorem complete_masters_self {s : State} {k : Nat} {m : Master} (hm : s.masters[k]? = some m) (r : BusResp) :
    (s.complete k r).masters[k]? = some ⟨m.requests.tail, r :: m.responses⟩ := by
  simp [hm]

theorem complete_masters_ne {s : State} {j k : Nat} (h : j ≠ k) (r : BusResp) :
    (s.complete j r).masters[k]? = s.masters[k]? := by
  simp [h]

/-- The access of master `j` completes: every other held write goes on waiting, and so nothing is lost if the
completed one, where it was held, was taken or discarded. -/
theorem KeepsHeld.complete {s t : State} {j : Nat} {m : Master} {req : BusReq} {rest : List BusReq}
    {r : BusResp} (h : s.HeldInv) (hm : s.masters[j]? = some m) (hreq : m.requests = req :: rest)
    (hmasters : t.masters = (s.complete j r).masters) (hwaiting : t.waiting = s.waiting.erase j)
    (hdone : j ∈ s.waiting → r = .written ∧
      ((s.mode = .run ∧ ∃ v, req = .write 0x0C#19 .w32 v ∧ t.fifo = s.fifo ++ [v]) ∨
        (s.mode = .halted ∧ t.fifo = s.fifo))) : KeepsHeld s t := by
  have hmem : ∀ k, k ∈ t.waiting ↔ k ≠ j ∧ k ∈ s.waiting := fun k => by
    rw [hwaiting, h.once.mem_erase_iff]
  have hother : ∀ k, k ≠ j → t.masters[k]? = s.masters[k]? := fun k hk => by
    rw [hmasters, complete_masters_ne hk.symm]
  refine ⟨⟨hwaiting ▸ h.once.erase j, fun k hk => ?_⟩, fun k m' req' rest' hk hm' hreq' => ?_⟩
  · obtain ⟨hne, hk⟩ := (hmem k).1 hk
    rw [hother k hne]
    exact h.pending k hk
  · by_cases hkj : k = j
    · subst hkj
      rw [hm, Option.some.injEq] at hm'
      subst hm'
      rw [hreq, List.cons.injEq] at hreq'
      obtain ⟨rfl, rfl⟩ := hreq'
      obtain ⟨rfl, hout⟩ := hdone hk
      refine .inr ⟨fun hk => ((hmem k).1 hk).1 rfl, ?_, hout⟩
      rw [hmasters, complete_masters_self hm, hreq, List.tail_cons]
    · exact .inl ⟨(hmem k).2 ⟨hkj, hk⟩, hother k hkj ▸ hm'⟩

/-- Master `j`, whose next access is a CMD write, begins to wait behind the others. -/
theorem KeepsHeld.hold {s t : State} {j : Nat} {m : Master} {req : BusReq} {rest : List BusReq}
    (h : s.HeldInv) (hm : s.masters[j]? = some m) (hreq : m.requests = req :: rest)
    (hcmd : req.isCmdWrite = true) (hj : j ∉ s.waiting) (hmasters : t.masters = s.masters)
    (hwaiting : t.waiting = s.waiting ++ [j]) : KeepsHeld s t := by
  have honce : (s.waiting ++ [j]).Nodup :=
    List.nodup_append.2 ⟨h.once, List.nodup_singleton j, fun a ha b hb => by
      rw [List.mem_singleton.1 hb]
      exact fun hab => hj (hab ▸ ha)⟩
  refine ⟨⟨hwaiting ▸ honce, fun k hk => ?_⟩, fun k m' _ _ hk hm' _ => .inl ⟨?_, hmasters ▸ hm'⟩⟩
  · rw [hmasters]
    rw [hwaiting, List.mem_append, List.mem_singleton] at hk
    obtain hk | rfl := hk
    · exact h.pending k hk
    · exact ⟨m, req, rest, hm, hreq, hcmd⟩
  · rw [hwaiting]
    exact List.mem_append_left _ hk

/-- A master whose next access is no CMD write does not wait. -/
theorem State.HeldInv.not_waiting {s : State} (h : s.HeldInv) {k : Nat} {m : Master} {req : BusReq}
    {rest : List BusReq} (hm : s.masters[k]? = some m) (hreq : m.requests = req :: rest)
    (hcmd : req.isCmdWrite = false) : k ∉ s.waiting := by
  intro hk
  obtain ⟨m', req', rest', hm', hreq', hcmd'⟩ := h.pending k hk
  rw [hm, Option.some.injEq] at hm'
  subst hm'
  rw [hreq, List.cons.injEq] at hreq'
  rw [← hreq'.1, hcmd] at hcmd'
  cases hcmd'

theorem isCmdWrite_eq_false {off : Offset} {w : Width} {v : Word} (hoff : off.toNat ≠ 0x0C) :
    (BusReq.write off w v).isCmdWrite = false := by
  cases w
  · rfl
  · rfl
  · exact beq_false_of_ne hoff

/-- A supported write to the offset of CMD is a 32-bit one. -/
theorem write_eq_cmdWrite {off : Offset} {w : Width} (v : Word) (hsup : supported off w = true)
    (hoff : off.toNat = 0x0C) : BusReq.write off w v = .write 0x0C#19 .w32 v := by
  have hw : w = .w32 := width_of_supported hsup (by rw [hoff]; decide)
  have hoff' : off = 0x0C#19 := BitVec.eq_of_toNat_eq hoff
  rw [hw, hoff']

/-- An access that is no CMD write completes: its master does not wait, and the held writes stay. -/
theorem KeepsHeld.complete_other {s t : State} {j : Nat} {m : Master} {req : BusReq} {rest : List BusReq}
    {r : BusResp} (h : s.HeldInv) (hm : s.masters[j]? = some m) (hreq : m.requests = req :: rest)
    (hcmd : req.isCmdWrite = false) (hmasters : t.masters = (s.complete j r).masters)
    (hwaiting : t.waiting = s.waiting) : KeepsHeld s t := by
  have hj := h.not_waiting hm hreq hcmd
  exact .complete h hm hreq hmasters (by rw [hwaiting, List.erase_of_not_mem hj]) fun hk => absurd hk hj

theorem WriteEffect.keepsHeld {k : Nat} {off : Offset} {w : Width} {v : Word} {m : Master}
    {rest : List BusReq} {s t : State} (he : WriteEffect k off v s t) (h : s.HeldInv)
    (hm : s.masters[k]? = some m) (hreq : m.requests = .write off w v :: rest)
    (hsup : supported off w = true) : KeepsHeld s t := by
  cases he with
  | ignored hoff => exact .complete_other h hm hreq (isCmdWrite_eq_false hoff) rfl rfl
  | ctrl hoff => exact .complete_other h hm hreq (isCmdWrite_eq_false (by omega)) rfl rfl
  | reset hoff =>
    exact .complete_other (r := .written) h hm hreq (isCmdWrite_eq_false (by omega)) (by simp) (by simp)
  | discarded _ hhalted => exact .complete h hm hreq rfl rfl fun _ => ⟨rfl, .inr ⟨hhalted, rfl⟩⟩
  | accepted hoff hrun =>
    rw [write_eq_cmdWrite v hsup hoff] at hreq
    exact .complete h hm hreq rfl rfl fun _ => ⟨rfl, .inl ⟨hrun, v, rfl, rfl⟩⟩
  | held => exact .of_same h rfl rfl
  | hold hoff _ hk =>
    rw [write_eq_cmdWrite v hsup hoff] at hreq
    exact .hold h hm hreq rfl hk rfl rfl

theorem HostEffect.keepsHeld {k : Nat} {s t : State} (he : HostEffect k s t) (h : s.HeldInv) :
    KeepsHeld s t := by
  cases he with
  | idle => exact .of_same h rfl rfl
  | reads _ _ _ _ _ hm hreq => exact .complete_other h hm hreq rfl rfl rfl
  | writes _ _ _ _ _ _ hm hreq hsup _ hw => exact hw.keepsHeld h hm hreq hsup

/-- The engine touches neither the masters nor the list of held writes. -/
theorem EngineEffect.keepsHeld {s t : State} (he : EngineEffect s t) (h : s.HeldInv) : KeepsHeld s t := by
  cases he with
  | idle => exact .of_same h rfl rfl
  | moves => exact .of_same h rfl rfl
  | executes _ _ _ _ _ hx => cases hx <;> exact .of_same h rfl rfl

theorem TurnEffect.keepsHeld {tn : Turn} {s t : State} (he : TurnEffect s tn t) (h : s.HeldInv) :
    KeepsHeld s t := by
  cases he with
  | engine _ he => exact he.keepsHeld h
  | host _ _ he => exact he.keepsHeld h
  | asserts => exact .of_same h rfl rfl
  | releases => exact .of_same h rfl rfl

/-- Settles O14: only the turn of a master whose write is held completes that write, and every other turn leaves
it waiting. -/
theorem stepKeepsHeldWrites : Obligations.StepKeepsHeldWrites := by
  intro s t h hstep
  exact (step_effect hstep).keepsHeld ⟨h.once, h.pending⟩

end Sys2Proof.Machine
end

section
/-! PROOFS. What the registers read (10_state.md R24 to R30, 20_memory.md R61), what writes of CTRL and CMD do
(R25, R27), and the reset values (R39). -/

namespace Sys2Proof.Machine

/-! ## Register words as numbers -/

/-- The upper part of a word counts by the width of the lower. -/
theorem toNat_append_add {m n : Nat} (x : BitVec m) (y : BitVec n) :
    (x ++ y).toNat = x.toNat * 2 ^ n + y.toNat := by
  rw [BitVec.toNat_append, ← Nat.shiftLeft_add_eq_or_of_lt y.isLt, Nat.shiftLeft_eq]

theorem toNat_ofBool_ite (b : Bool) : (BitVec.ofBool b).toNat = if b = true then 1 else 0 := by
  cases b <;> rfl

/-- STATUS as a number: ERR_CODE, IRQ, ERR and BUSY at their places (R26). -/
theorem toNat_statusWord (s : State) : s.statusWord.toNat =
    s.errCodeField.toNat * 16 + (if s.irq = true then 4 else 0) + (if s.err = true then 2 else 0) +
      (if s.busy = true then 1 else 0) := by
  simp only [State.statusWord, toNat_append_add, toNat_ofBool_ite, BitVec.toNat_ofNat]
  cases s.irq <;> cases s.err <;> cases s.busy <;> simp <;> omega

/-- CTRL as a number: the two enables at their places (R25). -/
theorem toNat_ctrlWord (s : State) :
    s.ctrlWord.toNat = (if s.errIE = true then 2 else 0) + (if s.idleIE = true then 4 else 0) := by
  simp only [State.ctrlWord, toNat_append_add, toNat_ofBool_ite, BitVec.toNat_ofNat]
  cases s.errIE <;> cases s.idleIE <;> rfl

/-! ## The interrupt level -/

theorem State.irq_eq_true {s : State} : s.irq = true ↔ (s.mode = .halted ∧ s.errIE = true) ∨
    (s.mode = .run ∧ s.fifo = [] ∧ s.latch = [] ∧ s.idleIE = true) := by
  simp only [State.irq, Bool.or_eq_true, Bool.and_eq_true, Bool.not_eq_true', State.err_eq_true,
    State.err_eq_false, State.busy_eq_false, and_assoc]

/-- Settles O22: STATUS by its fields, and `irq` by the mode, which each of its two sources names. -/
theorem statusBitsAndIrqLevel : Obligations.StatusBitsAndIrqLevel := by
  intro s
  refine ⟨?_, State.irq_eq_true, fun ⟨herr, hidle⟩ => ?_⟩
  · have hbusy : (if s.busy = true then 1 else 0) = if s.fifo = [] ∧ s.latch = [] then 0 else 1 := by
      simp only [← State.busy_eq_false]
      cases s.busy <;> rfl
    have hcode : s.errCodeField.toNat * 16 = if s.mode = .halted then 16 * s.errCode.toNat else 0 := by
      simp only [State.errCodeField, State.err_eq_true]
      split
      · exact Nat.mul_comm _ _
      · rfl
    change s.statusWord.toNat = _
    rw [toNat_statusWord, hbusy, hcode]
    simp only [State.err_eq_true]
    omega
  · simp only [Bool.and_eq_true, Bool.not_eq_true'] at herr hidle
    rw [herr.1] at hidle
    cases hidle.1.1

/-! ## The register map -/

theorem readValue_register (s : State) {off : Offset} (h : off.toNat < 0x40000) (w : Width) :
    readValue s off w = registerWord s off := if_pos h

/-- Above the last register nothing is mapped up to the framebuffer window (R61). -/
theorem registerWord_reserved (s : State) {off : Offset} (h : 0x1C ≤ off.toNat) :
    registerWord s off = 0#32 := by
  unfold registerWord
  split
  case h_8 => rfl
  all_goals omega

theorem readValue_aboveFramebuffer (s : State) {off : Offset} (h : 0x78000 ≤ off.toNat) (w : Width) :
    readValue s off w = 0#32 := by
  have hreg : ¬off.toNat < Config.fbBase := by unfold Config.fbBase; omega
  have hfb : ¬off.toNat < Config.fbEnd := by unfold Config.fbEnd; omega
  rw [readValue, if_neg hreg, if_neg hfb]

/-- Settles O23: each register word by its fields, and no register at a reserved offset. -/
theorem registerMapReads : Obligations.RegisterMapReads := by
  intro s
  have herr : s.errInfoWord = if s.mode = .halted then s.errInfo else 0#32 := by
    simp only [State.errInfoWord, State.err_eq_true]
  refine ⟨rfl, toNat_ctrlWord s, rfl, rfl, toNat_append_add _ _, toNat_append_add _ _, herr, ?_, ?_⟩
  · intro off hlow hhigh
    rw [readValue_register s hhigh, registerWord_reserved s hlow]
  · exact fun off w h => readValue_aboveFramebuffer s h w

/-! ## Writes of CTRL and CMD -/

/-- Bits 2 and 1 of an even word are what it holds below 8. -/
theorem toNat_mod_eight (v : Word) (h : v.toNat % 2 = 0) :
    (if v.getLsbD 1 = true then 2 else 0) + (if v.getLsbD 2 = true then 4 else 0) = v.toNat % 8 := by
  simp only [BitVec.getLsbD, Nat.testBit_eq_decide_div_mod_eq, decide_eq_true_eq]
  split <;> split <;> omega

/-- Settles O24: the write stores its bits 2 and 1, and CTRL is read off them. -/
theorem ctrlWriteStoresTheEnables : Obligations.CtrlWriteStoresTheEnables := by
  intro s k v ts hmakes heven
  have hsrst : v.getLsbD 0 = false := by
    rw [Bool.eq_false_iff, Ne, getLsbD_zero_iff]
    omega
  refine ⟨_, step_write hmakes rfl, ?_, ?_⟩
  · rw [busWrite_ctrl, writeCtrl_enables hsrst]
    rfl
  · rw [busWrite_ctrl, writeCtrl_enables hsrst]
    exact (toNat_ctrlWord _).trans (toNat_mod_eight v heven)

theorem writeCmd_accepted {k : Nat} (s : State) (hrun : s.mode = .run) (h : cmdAccepts s k = true) (v : Word) :
    writeCmd k v s =
      { s.renewReads with fifo := s.fifo ++ [v], waiting := s.waiting.erase k }.complete k .written := by
  rw [writeCmd, if_neg (by rw [hrun]; decide), if_pos h]

theorem writeCmd_held {k : Nat} (s : State) (hrun : s.mode = .run) (h : cmdAccepts s k = false)
    (hk : k ∈ s.waiting) (v : Word) : writeCmd k v s = s := by
  rw [writeCmd, if_neg (by rw [hrun]; decide), if_neg (by rw [h]; decide), if_pos (by simpa using hk)]

theorem writeCmd_hold {k : Nat} (s : State) (hrun : s.mode = .run) (h : cmdAccepts s k = false)
    (hk : k ∉ s.waiting) (v : Word) :
    writeCmd k v s = { s.renewReads with waiting := s.waiting ++ [k] } := by
  rw [writeCmd, if_neg (by rw [hrun]; decide), if_neg (by rw [h]; decide), if_neg (by simpa using hk)]

theorem writeCmd_discarded {k : Nat} (s : State) (hhalted : s.mode = .halted) (v : Word) :
    writeCmd k v s = { s with waiting := s.waiting.erase k }.complete k .written := by
  rw [writeCmd, if_pos hhalted]

/-- The FIFO has room and the master is first, with those behind it left waiting (R27; log entry 8). -/
theorem cmdAccepts_of_first {k : Nat} {s : State} {tl : List Nat} (hroom : s.fifo.length < Config.fifoDepth)
    (h : (s.waiting = [] ∧ tl = []) ∨ s.waiting = k :: tl) :
    cmdAccepts s k = true ∧ s.waiting.erase k = tl := by
  obtain ⟨hw, rfl⟩ | hw := h <;> simp [cmdAccepts, hroom, hw]

/-- The FIFO is full or another write has been held longer (R27; log entry 8). -/
theorem not_cmdAccepts {k : Nat} {s : State}
    (h : Config.fifoDepth ≤ s.fifo.length ∨ ∃ j tl, s.waiting = j :: tl ∧ j ≠ k) : cmdAccepts s k = false := by
  obtain hfull | ⟨j, tl, hw, hj⟩ := h
  · simp [cmdAccepts, Nat.not_lt.2 hfull]
  · simp [cmdAccepts, hw, hj]

theorem busy_of_fifo_append {s : State} {ws : List Word} {w : Word} (h : s.fifo = ws ++ [w]) :
    s.busy = true := by
  simp [State.busy, h]

/-- Settles O30: in RUN the write is accepted or not by `cmdAccepts`, and when halted it is discarded. -/
theorem cmdWriteCases : Obligations.CmdWriteCases := by
  intro s k v ts hmakes
  have hstep : step s = .next (writeCmd k v { s with schedule := ts }) := step_write hmakes rfl
  refine ⟨fun hrun hroom tl htl => ?_, fun hrun hfull => ?_, fun hhalted => ?_⟩
  · obtain ⟨haccepts, herase⟩ := cmdAccepts_of_first (s := { s with schedule := ts }) hroom htl
    rw [writeCmd_accepted { s with schedule := ts } hrun haccepts, herase] at hstep
    exact ⟨_, hstep, busy_of_fifo_append rfl, rfl⟩
  · have haccepts := not_cmdAccepts (s := { s with schedule := ts }) hfull
    refine ⟨fun hk => ?_, fun hk => ?_⟩
    · rw [hstep, writeCmd_held { s with schedule := ts } hrun haccepts hk]
    · rw [hstep, writeCmd_hold { s with schedule := ts } hrun haccepts hk]
      rfl
  · rw [writeCmd_discarded { s with schedule := ts } hhalted] at hstep
    exact ⟨_, hstep, rfl⟩

/-! ## Reset values -/

/-- The registers, the engine and the command stream hold their reset values, and the registers read them
(R39). -/
def AtReset (s : State) : Prop :=
  s.errIE = false ∧ s.idleIE = false ∧ s.mode = .run ∧ s.errCode = 0#4 ∧ s.errInfo = 0#32 ∧
  s.clip.crx = 0#16 ∧ s.clip.cry = 0#16 ∧ s.clip.crw.toNat = 256 ∧ s.clip.crh.toNat = 224 ∧
  s.fifo = [] ∧ s.latch = [] ∧ s.irq = false ∧ readValue s 0x04#19 .w32 = 0#32 ∧
  readValue s 0x08#19 .w32 = 0#32 ∧ readValue s 0x10#19 .w32 = 0#32 ∧
  readValue s 0x14#19 .w32 = 0x010000E0#32 ∧ readValue s 0x18#19 .w32 = 0#32 ∧
  readValue s 0x00#19 .w32 = 0x52415331#32

/-- The registers read their reset values where the fields they are made of hold theirs. -/
theorem atReset_of_fields {s : State} (herrIE : s.errIE = false) (hidleIE : s.idleIE = false)
    (hclip : s.clip = Clip.reset) (hmode : s.mode = .run) (hcode : s.errCode = 0#4) (hinfo : s.errInfo = 0#32)
    (hfifo : s.fifo = []) (hlatch : s.latch = []) : AtReset s := by
  have herr : s.err = false := State.err_eq_false.2 hmode
  have hbusy : s.busy = false := State.busy_eq_false.2 ⟨hfifo, hlatch⟩
  have hirq : s.irq = false := by rw [State.irq, herr, hidleIE, Bool.and_false]; rfl
  have hctrl : s.ctrlWord = 0#32 := by rw [State.ctrlWord, herrIE, hidleIE]; decide
  have hcodeField : s.errCodeField = 0#4 := by rw [State.errCodeField, herr]; rfl
  have hstatus : s.statusWord = 0#32 := by
    rw [State.statusWord, hcodeField, hirq, herr, hbusy]; decide
  have horg : s.clipOrgWord = 0#32 := by rw [State.clipOrgWord, hclip]; decide
  have hsize : s.clipSizeWord = 0x010000E0#32 := by rw [State.clipSizeWord, hclip]; decide
  have hinfoWord : s.errInfoWord = 0#32 := by rw [State.errInfoWord, herr]; rfl
  refine ⟨herrIE, hidleIE, hmode, hcode, hinfo, ?_, ?_, ?_, ?_, hfifo, hlatch, hirq, hctrl, hstatus, horg, hsize,
    hinfoWord, rfl⟩
  all_goals rw [hclip]; rfl

theorem atReset_softReset (s : State) : AtReset (softReset s) :=
  atReset_of_fields (by simp) (by simp) (by simp) (by simp) (by simp) (by simp) (by simp) (by simp)

theorem atReset_powerOnReset (s : State) : AtReset (powerOnReset s) :=
  atReset_of_fields rfl rfl rfl rfl rfl rfl rfl rfl

/-- Settles O31: each reset sets the fields that the registers are made of, and frees the framebuffer where it is
a power-on reset. -/
theorem resetValues : Obligations.ResetValues :=
  ⟨atReset_of_fields rfl rfl rfl rfl rfl rfl rfl rfl, rfl, fun s =>
    ⟨atReset_softReset s, atReset_powerOnReset s, rfl⟩⟩

end Sys2Proof.Machine
end

section
/-! PROOFS. A well-formed command's words decode to it, and no fewer of them do (30_encoding.md R98, R99). -/

namespace Sys2Proof

/-! ## Words behind a command -/

theorem decodeOne_append {mk : Word → Instr} {ws rest : List Word} {i : Instr}
    (h : decodeOne mk ws = .ok (i, rest)) (more : List Word) :
    decodeOne mk (ws ++ more) = .ok (i, rest ++ more) := by
  cases ws with
  | nil => cases h
  | cons w1 ws => cases h; rfl

theorem decodeTwo_append {mk : Word → Word → Instr} {ws rest : List Word} {i : Instr}
    (h : decodeTwo mk ws = .ok (i, rest)) (more : List Word) :
    decodeTwo mk (ws ++ more) = .ok (i, rest ++ more) := by
  match ws with
  | [] => cases h
  | [_] => cases h
  | w1 :: w2 :: ws => cases h; rfl

theorem decodeCounted_append_ok {mk : Cnt → List XY → Instr} {ws rest : List Word} {i : Instr}
    (h : decodeCounted mk ws = .ok (i, rest)) (more : List Word) :
    decodeCounted mk (ws ++ more) = .ok (i, rest ++ more) := by
  cases ws with
  | nil => cases h
  | cons w1 ws =>
    simp only [decodeCounted, List.cons_append] at h ⊢
    split at h
    · cases h
    · rename_i hlen
      cases h
      have hlen' : ¬(ws ++ more).length < (cntOf w1).vertexWords := by
        rw [List.length_append]; omega
      rw [if_neg hlen', List.take_append_of_le_length (by omega), List.drop_append_of_le_length (by omega)]

/-- The words behind a command are left as they are. -/
theorem decode_append {ws rest : List Word} {i : Instr} (h : decode ws = .ok (i, rest)) (more : List Word) :
    decode (ws ++ more) = .ok (i, rest ++ more) := by
  cases ws with
  | nil => cases h
  | cons h0 ws =>
    simp only [decode, List.cons_append] at h ⊢
    split at h
    case h_2 => exact decodeOne_append h more
    case h_3 | h_6 | h_7 | h_9 => exact decodeTwo_append h more
    case h_4 | h_5 => exact decodeCounted_append_ok h more
    all_goals cases h; rfl

/-! ## The words of a command -/

theorem decodeCounted_words (mk : Cnt → List XY → Instr) {cnt : Cnt} {vs : List XY}
    (h : (vs.length == cnt.vertexWords) = true) :
    decodeCounted mk (cnt.word :: vs.map XY.word) = .ok (mk cnt vs, []) := by
  rw [beq_iff_eq] at h
  rw [decodeCounted, cntOf_word, ← h, List.length_map, if_neg (lt_irrefl _), ← List.length_map (f := XY.word),
    List.take_length, List.drop_length, map_xyOf_word]

/-- The opcode field as a number: what stands above the other 28 bits (R91). -/
theorem opOf_eq_div (h : Word) : opOf h = h.toNat / 2 ^ 28 := by
  have := h.isLt
  rw [opOf, BitVec.extractLsb'_toNat, Nat.shiftRight_eq_div_pow, Nat.mod_eq_of_lt (by omega)]

/-- The low bits of a word made of two parts are its low part. -/
theorem extractLsb'_append_low {m n : Nat} (x : BitVec m) (y : BitVec n) : (x ++ y).extractLsb' 0 n = y := by
  refine BitVec.eq_of_toNat_eq ?_
  rw [BitVec.extractLsb'_toNat, Machine.toNat_append_add, Nat.shiftRight_zero, Nat.mul_add_mod_of_lt y.isLt]

theorem decode_illegal9 (low : BitVec 28) : decode (encode (.illegal9 low)) = .ok (.illegal9 low, []) := by
  have hop : opOf (0x9#4 ++ low) = 9 := by
    have := low.isLt
    rw [opOf_eq_div, Machine.toNat_append_add, BitVec.toNat_ofNat]
    omega
  simp only [encode, Instr.header, Instr.operands, decode, hop, extractLsb'_append_low]

theorem decode_illegalAB (low : BitVec 29) : decode (encode (.illegalAB low)) = .ok (.illegalAB low, []) := by
  have hop : opOf (0b101#3 ++ low) = 10 ∨ opOf (0b101#3 ++ low) = 11 := by
    have := low.isLt
    rw [opOf_eq_div, Machine.toNat_append_add, BitVec.toNat_ofNat]
    omega
  rcases hop with hop | hop <;>
    simp only [encode, Instr.header, Instr.operands, decode, hop, extractLsb'_append_low]

theorem decode_illegalCF (low : BitVec 30) : decode (encode (.illegalCF low)) = .ok (.illegalCF low, []) := by
  have hop : opOf (0b11#2 ++ low) = 12 ∨ opOf (0b11#2 ++ low) = 13 ∨ opOf (0b11#2 ++ low) = 14 ∨
      opOf (0b11#2 ++ low) = 15 := by
    have := low.isLt
    rw [opOf_eq_div, Machine.toNat_append_add, BitVec.toNat_ofNat]
    omega
  rcases hop with hop | hop | hop | hop <;>
    simp only [encode, Instr.header, Instr.operands, decode, hop, extractLsb'_append_low]

/-- A well-formed command is read back from its words (R99). -/
theorem decode_encode {i : Instr} (h : i.wf = true) : decode (encode i) = .ok (i, []) := by
  cases i with
  | poly rsv rgb cnt vs =>
    simp [encode, Instr.header, Instr.operands, decode, decodeCounted_words _ h]
  | polyA rsv rgb cnt vs =>
    simp [encode, Instr.header, Instr.operands, decode, decodeCounted_words _ h]
  | outline a rsv rgb cnt vs =>
    simp [encode, Instr.header, Instr.operands, decode, decodeCounted_words _ h]
  | illegal9 low => exact decode_illegal9 low
  | illegalAB low => exact decode_illegalAB low
  | illegalCF low => exact decode_illegalCF low
  | nop | point | line | ellipse | ellipseA | span | spanA | clear | setclip =>
    simp [encode, Instr.header, Instr.operands, decode, decodeOne, decodeTwo]

/-- The words of a command without its last ones are no command yet (R100). -/
theorem decode_incomplete_of_encode {i : Instr} (h : i.wf = true) {ws : List Word} {w : Word} {more : List Word}
    (henc : encode i = ws ++ w :: more) : decode ws = .error .incomplete := by
  cases hd : decode ws with
  | error r => rfl
  | ok d =>
    obtain ⟨j, rest⟩ := d
    have hall : decode (encode i) = .ok (j, rest ++ w :: more) := by rw [henc, decode_append hd]
    rw [decode_encode h] at hall
    simp at hall

end Sys2Proof
end

section
/-! PROOFS. From an idle engine with whole commands in the FIFO, the default turns are the engine's until it is
quiescent, and they execute the commands in order (20_memory.md R70, R71, 30_encoding.md R100). -/

namespace Sys2Proof.Machine

/-! ## Runs that are not quiescent before their last state -/

/-- A step taken from a state that is not quiescent. -/
def BusyStep (s t : State) : Prop := s.quiescent = false ∧ step s = .next t

/-- Such steps, one after another, are a run whose last state is the first that can be quiescent. -/
theorem exists_run_of_busySteps {s t : State} (h : Relation.ReflTransGen BusyStep s t) :
    ∃ k, Sys2Proof.core.run k s = .next t ∧
      ∀ j u, j < k → Sys2Proof.core.run j s = .next u → u.quiescent = false := by
  induction h using Relation.ReflTransGen.head_induction_on with
  | refl => exact ⟨0, rfl, fun j u hj => absurd hj (Nat.not_lt_zero j)⟩
  | @head s s' hstep _ ih =>
    obtain ⟨hbusy, hstep⟩ := hstep
    obtain ⟨k, hrun, hbefore⟩ := ih
    have hsucc : ∀ j, Sys2Proof.core.run (j + 1) s = Sys2Proof.core.run j s' := fun j => by
      simp only [Host.Core.run, show Sys2Proof.core.step s = .next s' from hstep]
    refine ⟨k + 1, (hsucc k).trans hrun, fun j u hj hu => ?_⟩
    cases j with
    | zero => cases hu; exact hbusy
    | succ j => exact hbefore j u (by omega) ((hsucc j).symm.trans hu)

/-- The host has made its last access where no master has one left. -/
theorem State.hostDone_eq_true {s : State} : s.hostDone = true ↔ ∀ m ∈ s.masters, m.requests = [] := by
  simp [State.hostDone]

/-- A run that ends in the first quiescent state, with no access left to make, has ended there (R271). -/
theorem runEnds_of_quiescent {s t : State} {k : Nat} (hrun : Sys2Proof.core.run k s = .next t)
    (hbefore : ∀ j u, j < k → Sys2Proof.core.run j s = .next u → u.quiescent = false)
    (hquiet : t.quiescent = true) (hdone : ∀ m ∈ t.masters, m.requests = []) : RunEnds s t := by
  refine ⟨k, hrun, ?_, fun j (u : State) hj hu => ?_⟩
  · rw [State.ended, hquiet, State.hostDone_eq_true.2 hdone]; rfl
  · rw [State.ended, hbefore j u hj hu, Bool.and_false]

/-! ## The engine's default turns -/

/-- The engine is running, and the schedule leaves the choice of turns to the default. -/
structure EngineAlone (s : State) : Prop where
  run : s.mode = .run
  notReset : s.resetIn = false
  noSchedule : s.schedule = []

theorem State.quiescent_eq_true {s : State} :
    s.quiescent = true ↔ s.mode = .halted ∨ s.fifo = [] ∧ s.latch = [] := by
  simp only [State.quiescent, State.completed, State.faulted, Bool.or_eq_true, Bool.and_eq_true,
    Bool.not_eq_true', State.err_eq_true, State.err_eq_false, State.busy_eq_false]
  cases s.mode <;> simp

/-- While the engine can step, by default it does. -/
theorem EngineAlone.step_eq {s : State} (h : EngineAlone s)
    (hable : (latchCommand s).isSome = true ∨ s.fifo ≠ []) : step s = engineTurn s := by
  have hturn : engineEnabled s = true := by
    simpa [engineEnabled, h.notReset, State.err_eq_false.2 h.run] using hable
  rw [step_of_no_schedule h.noSchedule, defaultTurn, hturn, Bool.or_true]
  rfl

theorem EngineAlone.not_quiescent {s : State} (h : EngineAlone s) (hwords : s.fifo = [] → s.latch ≠ []) :
    s.quiescent = false := by
  rw [Bool.eq_false_iff, Ne, State.quiescent_eq_true, h.run]
  rintro (hhalted | ⟨hfifo, hlatch⟩)
  · cases hhalted
  · exact hwords hfifo hlatch

/-- With words that wait for more in the latch, the engine moves the next word of the FIFO. -/
theorem EngineAlone.moves {s : State} (h : EngineAlone s) {w : Word} {rest : List Word}
    (hlatch : decode s.latch = .error .incomplete) (hfifo : s.fifo = w :: rest) :
    BusyStep s { s.renewReads with fifo := rest, latch := s.latch ++ [w] } := by
  have hnot : ∀ i, decode s.latch ≠ .ok (i, []) := fun i => by rw [hlatch]; exact nofun
  refine ⟨h.not_quiescent fun hnil => (by rw [hfifo] at hnil; cases hnil), ?_⟩
  rw [h.step_eq (.inr (by rw [hfifo]; exact List.cons_ne_nil _ _)),
    engineTurn_moves hnot h.notReset h.run, hfifo]
  exact if_pos (length_of_incomplete hlatch)

/-- With a whole command in the latch, the engine executes it. -/
theorem EngineAlone.executes {s t : State} (h : EngineAlone s) {i : Instr}
    (hlatch : decode s.latch = .ok (i, [])) (hexec : exec i s.renewReads = .next t) : BusyStep s t := by
  refine ⟨h.not_quiescent fun _ hnil => (by rw [hnil] at hlatch; cases hlatch), ?_⟩
  rw [h.step_eq (.inl (by rw [latchCommand_eq_some.2 hlatch]; rfl)),
    engineTurn_executes hlatch h.notReset h.run, hexec]

/-- The engine moves the words of a command that are still in the FIFO to those already in the latch. -/
theorem busySteps_fillLatch {i : Instr} (hwf : i.wf = true) (todo rest : List Word) {s : State}
    (h : EngineAlone s) (henc : encode i = s.latch ++ todo) (hfifo : s.fifo = todo ++ rest) :
    ∃ d, Relation.ReflTransGen BusyStep s { s with fifo := rest, latch := encode i, readDraw := d } := by
  induction todo generalizing s with
  | nil =>
    rw [List.append_nil] at henc
    rw [List.nil_append] at hfifo
    refine ⟨s.readDraw, ?_⟩
    rw [henc, ← hfifo]
  | cons w todo ih =>
    have hmove := h.moves (decode_incomplete_of_encode hwf henc) hfifo
    obtain ⟨d, hfill⟩ := ih (s := { s.renewReads with fifo := todo ++ rest, latch := s.latch ++ [w] })
      ⟨h.run, h.notReset, h.noSchedule⟩ (by simpa using henc) rfl
    exact ⟨d, .head hmove hfill⟩

/-! ## The queued run and the in-order execution -/

/-- A command leaves the reset input, the masters and the schedule as they are. -/
theorem ExecEffect.outside_eq {i : Instr} {s t : State} (h : ExecEffect i s t) :
    t.resetIn = s.resetIn ∧ t.masters = s.masters ∧ t.schedule = s.schedule := by
  cases h <;> exact ⟨rfl, rfl, rfl⟩

theorem State.with_fifo_readDraw_self {s : State} {ws : List Word} {d : Nat} (hfifo : s.fifo = ws)
    (hdraw : s.readDraw = d) : { s with fifo := ws, readDraw := d } = s := by
  subst hfifo hdraw
  rfl

/-- A list of commands ends where its first one halts the engine (60_exceptions.md R233). -/
theorem execAll_cons_halted {i : Instr} {s t : State} (hexec : exec i s = .next t) (hmode : t.mode = .halted)
    (is : List Instr) : execAll (i :: is) s = .next t := by
  simp only [execAll, hexec, State.err_eq_true.2 hmode, if_true]

/-- The commands behind one that completes are executed from where it leaves the engine. -/
theorem execAll_cons_run {i : Instr} {s t : State} (hexec : exec i s = .next t) (hmode : t.mode = .run)
    (is : List Instr) : execAll (i :: is) s = execAll is t := by
  simp only [execAll, hexec, State.err_eq_false.2 hmode]
  rfl

/-- The engine, alone with whole commands in the FIFO, becomes quiescent in the state that the commands give in
order, whatever the draw for reads while busy is there. -/
theorem busySteps_execAll (is : List Instr) (hwf : ∀ i ∈ is, i.wf = true) {s : State} (h : EngineAlone s)
    (hlatch : s.latch = []) (hfifo : s.fifo = is.flatMap encode) (d : Nat) :
    ∃ t, Relation.ReflTransGen BusyStep s t ∧ t.quiescent = true ∧ t.masters = s.masters ∧
      execAll is { s with fifo := [], readDraw := d } = .next { t with readDraw := d } := by
  induction is generalizing s with
  | nil =>
    rw [List.flatMap_nil] at hfifo
    exact ⟨s, .refl, State.quiescent_eq_true.2 (.inr ⟨hfifo, hlatch⟩), rfl, by rw [← hfifo]; rfl⟩
  | cons i is ih =>
    obtain ⟨hi, his⟩ := List.forall_mem_cons.1 hwf
    obtain ⟨d', hfill⟩ := busySteps_fillLatch hi (encode i) (is.flatMap encode) h (by rw [hlatch]; rfl) hfifo
    -- The command does in the queued state what it does in the in-order one.
    obtain ⟨t, hexec, htlatch, htdraw, hqueued⟩ := exec_sameButForQueues i { s with fifo := [], readDraw := d }
      (is.flatMap encode) (encode i) (d' + 1)
    obtain ⟨hreset, hmasters, hschedule⟩ := (exec_effect hexec).outside_eq
    have hexecutes : ∀ u, exec i { s with
        fifo := is.flatMap encode, latch := encode i, readDraw := d' + 1 } = .next u →
        Relation.ReflTransGen BusyStep s u := fun u hu =>
      hfill.tail (EngineAlone.executes (i := i) ⟨h.run, h.notReset, h.noSchedule⟩ (decode_encode hi) hu)
    obtain ⟨hmode, hempty, hqueued⟩ | ⟨hmode, hempty, hqueued⟩ := hqueued
    · obtain ⟨u, hsteps, hquiet, humasters, hall⟩ := ih his
        (s := { t with fifo := is.flatMap encode, readDraw := d' + 1 })
        ⟨hmode.trans h.run, hreset.trans h.notReset, hschedule.trans h.noSchedule⟩ htlatch rfl
      refine ⟨u, (hexecutes _ hqueued).trans hsteps, hquiet, humasters.trans hmasters, ?_⟩
      rw [execAll_cons_run hexec (hmode.trans h.run), ← hall]
      exact congrArg _ (State.with_fifo_readDraw_self hempty htdraw).symm
    · refine ⟨_, hexecutes _ hqueued, State.quiescent_eq_true.2 (.inl hmode), hmasters, ?_⟩
      rw [execAll_cons_halted hexec hmode]
      exact congrArg _ (State.with_fifo_readDraw_self rfl htdraw).symm

/-- Settles O11: by induction on the commands, each of which the engine moves word by word into its latch and then
executes as it would be executed alone. -/
theorem engineRefinesInOrderExecution : Obligations.EngineRefinesInOrderExecution := by
  intro is s hwf hrun hreset hschedule hlatch hfifo
  obtain ⟨t, hsteps, hquiet, hmasters, hall⟩ :=
    busySteps_execAll is hwf ⟨hrun, hreset, hschedule⟩ hlatch hfifo s.readDraw
  obtain ⟨k, hk, hbefore⟩ := exists_run_of_busySteps hsteps
  exact ⟨k, t, hk, hquiet, hall, fun hdone => runEnds_of_quiescent hk hbefore hquiet (hmasters ▸ hdone)⟩

end Sys2Proof.Machine
end

section
/-! PROOFS. The host window: what framebuffer reads return (20_memory.md R63, R66, R72), which accesses are refused
(R65, R66), which have no effect (R61, R64, R67), and the order of pixel writes (R76). -/

namespace Sys2Proof.Machine

/-! ## The order of pixel writes -/

/-- Settles O38: each byte is new by the one point that reaches it, whatever that point's place in the list. -/
theorem writeOrderDoesNotMatter : Obligations.WriteOrderDoesNotMatter := by
  intro c rgb blend ps qs m hm hps hperm
  refine Memory.ext (wf_plotAll hm c rgb blend ps) (wf_plotAll hm c rgb blend qs) fun x => ?_
  rw [read_plotAll c rgb blend ps hps, read_plotAll c rgb blend qs (hperm.nodup_iff.1 hps)]
  simp only [hperm.mem_iff]

/-! ## Accesses by their support -/

/-- At its master's turn an access is made on the window as it is. -/
theorem step_access {s : State} {k : Nat} {req : BusReq} {ts : List Turn} (h : HostMakes s k req ts) :
    step s = busAccess k req { s with schedule := ts } := by
  obtain ⟨hturn, hreset, m, rest, hm, hreq⟩ := h
  rw [step_of_schedule hturn]
  simp only [runTurn, hostTurn, hm, hreq, hreset]
  rfl

theorem supported_eq_false {off : Offset} {w : Width} : supported off w = false ↔
    (off.toNat < 0x40000 ∧ (w ≠ .w32 ∨ off.toNat % 4 ≠ 0)) ∨
      (0x40000 ≤ off.toNat ∧ off.toNat % w.bytes ≠ 0) := by
  have hbase : Config.fbBase = 0x40000 := rfl
  rw [supported, hbase]
  split
  · rename_i hlow
    rw [Bool.and_eq_false_iff, beq_eq_false_iff_ne, beq_eq_false_iff_ne]
    simp only [hlow, true_and, Nat.not_le.2 hlow, false_and, or_false]
  · rename_i hhigh
    rw [beq_eq_false_iff_ne]
    simp only [hhigh, false_and, Nat.not_lt.1 hhigh, true_and, false_or]

/-- A step that is refused exactly where the access is not supported. -/
def RefusedUnless (s : State) (b : Bool) : Prop :=
  (step s = .refused .unsupportedAccess ↔ b = false) ∧
    (step s = .refused .unsupportedAccess ∨ ∃ t, step s = .next t)

theorem refusedUnless_of_eq {s t : State} {b : Bool}
    (h : step s = if b then .next t else .refused .unsupportedAccess) : RefusedUnless s b := by
  cases b with
  | false => exact ⟨iff_of_true h rfl, .inl h⟩
  | true =>
    exact ⟨iff_of_false (fun hr => by rw [h] at hr; cases hr) nofun, .inr ⟨t, h⟩⟩

/-- Settles O28: reads and writes are made or refused by the same test of width and alignment. -/
theorem unsupportedAccessesAreRefused : Obligations.UnsupportedAccessesAreRefused := by
  intro s k ts off w v hmakes
  rw [← supported_eq_false]
  obtain hread | hwrite := hmakes
  · exact refusedUnless_of_eq (step_access hread)
  · exact refusedUnless_of_eq (step_access hwrite)

/-! ## Accesses without an effect -/

/-- What is read does not depend on the masters or the schedule. -/
theorem readValue_of_outside (s : State) (ms : List Master) (ts : List Turn) (off : Offset) (w : Width) :
    readValue { s with masters := ms, schedule := ts } off w = readValue s off w := rfl

/-- Settles O25: a read's answer is all that it leaves, and no read depends on the answers. -/
theorem readsAnswerAndChangeNothingElse : Obligations.ReadsAnswerAndChangeNothingElse := by
  intro s k off w ts hmakes hsup
  have ⟨_, _, m, _, hm, _⟩ := hmakes
  exact ⟨_, m, step_read hmakes hsup, hm, complete_masters_self hm _, fun j hj => complete_masters_ne hj.symm _,
    rfl, readValue_of_outside s _ ts⟩

theorem busWrite_ignored {off : Offset} (hctrl : off ≠ 0x04#19) (hcmd : off ≠ 0x0C#19) (k : Nat) (v : Word)
    (s : State) : busWrite k off v s = s.complete k .written := by
  unfold busWrite
  split
  · exact absurd (BitVec.eq_of_toNat_eq ‹_›) hctrl
  · exact absurd (BitVec.eq_of_toNat_eq ‹_›) hcmd
  · rfl

/-- Settles O29: only the offsets of CTRL and CMD have a write of their own, and no read depends on the answers. -/
theorem otherWritesAreIgnored : Obligations.OtherWritesAreIgnored := by
  intro s k off w v ts hmakes hsup hctrl hcmd
  refine ⟨?_, readValue_of_outside s _ ts⟩
  rw [step_write hmakes hsup, busWrite_ignored hctrl hcmd]

/-! ## Framebuffer reads -/

theorem readValue_framebuffer (s : State) {off : Offset} (hlow : Config.fbBase ≤ off.toNat)
    (hhigh : off.toNat < Config.fbEnd) (w : Width) : readValue s off w = fbRead s off w := by
  rw [readValue, if_neg (Nat.not_lt.2 hlow), if_pos hhigh]

/-- The bytes of a framebuffer read as a number, the lowest offset in the lowest bits (20_memory.md R62). -/
theorem toNat_fbRead_w8 (s : State) (off : Offset) :
    (fbRead s off .w8).toNat = (windowByte s off.toNat).toNat := by
  simp only [fbRead, toNat_append_add, BitVec.toNat_ofNat, Nat.add_zero]
  omega

theorem toNat_fbRead_w16 (s : State) (off : Offset) : (fbRead s off .w16).toNat =
    (windowByte s (off.toNat + 1)).toNat * 2 ^ 8 + (windowByte s off.toNat).toNat := by
  simp only [fbRead, toNat_append_add, BitVec.toNat_ofNat, Nat.add_zero]
  omega

theorem toNat_fbRead_w32 (s : State) (off : Offset) : (fbRead s off .w32).toNat =
    (windowByte s (off.toNat + 3)).toNat * 2 ^ 24 + (windowByte s (off.toNat + 2)).toNat * 2 ^ 16 +
      (windowByte s (off.toNat + 1)).toNat * 2 ^ 8 + (windowByte s off.toNat).toNat := by
  simp only [fbRead, toNat_append_add, Nat.add_zero]
  omega

theorem windowByte_of_idle {s : State} (h : s.busy = false) (a : Nat) :
    windowByte s a = byteAt s.fbDraw s.fb a := by
  rw [windowByte, h]; rfl

theorem windowByte_of_busy {s : State} (h : s.busy = true) (a : Nat) :
    windowByte s a = Config.busyByte s.readDraw a := by
  rw [windowByte, h]; rfl

/-- The offset of byte `c` of a pixel, which lies in the framebuffer window (R61, R63). -/
theorem toNat_pixelOffset {sx sy c : Nat} (hx : sx < 256) (hy : sy < 224) (hc : c < 4) :
    (BitVec.ofNat 19 (0x40000 + (sy * 256 + sx) * 4 + c)).toNat = fbOff sx sy c ∧
      Config.fbBase ≤ fbOff sx sy c ∧ fbOff sx sy c < Config.fbEnd := by
  have hbase : Config.fbBase = 0x40000 := rfl
  have hend : Config.fbEnd = 0x78000 := rfl
  rw [BitVec.toNat_ofNat, fbOff]
  omega

/-- Settles O26: while idle the window's bytes are the pixel's, at the offsets that `fbOff` gives them. -/
theorem framebufferReadsAreLittleEndian : Obligations.FramebufferReadsAreLittleEndian := by
  intro s sx sy hidle hx hy off p
  have hoff : ∀ c < 4, (off c).toNat = fbOff sx sy c := fun c hc => (toNat_pixelOffset hx hy hc).1
  have hread : ∀ c < 4, ∀ w, readValue s (off c) w = fbRead s (off c) w := fun c hc w => by
    obtain ⟨heq, hlow, hhigh⟩ := toNat_pixelOffset hx hy hc
    exact readValue_framebuffer s (heq ▸ hlow) (heq ▸ hhigh) w
  have hnext : ∀ c k, fbOff sx sy c + k = fbOff sx sy (c + k) := fun c k => Nat.add_assoc _ c k
  simp only [hread 0 (by decide), hread 1 (by decide), hread 2 (by decide), hread 3 (by decide),
    toNat_fbRead_w8, toNat_fbRead_w16, toNat_fbRead_w32, windowByte_of_idle hidle, hoff 0 (by decide),
    hoff 1 (by decide), hoff 2 (by decide), hoff 3 (by decide), hnext]
  exact ⟨rfl, rfl, rfl, rfl, rfl, rfl, rfl⟩

theorem ExecEffect.readDraw_eq {i : Instr} {s t : State} (h : ExecEffect i s t) : t.readDraw = s.readDraw := by
  cases h <;> rfl

/-- An engine's turn that does something takes a new draw for the reads while busy (log entry 3). -/
theorem EngineEffect.renews {s t : State} (h : EngineEffect s t) (hne : t.fifo ≠ s.fifo ∨ t.latch ≠ s.latch) :
    t.readDraw = s.readDraw + 1 := by
  cases h with
  | idle => exact hne.elim (absurd rfl) (absurd rfl)
  | executes _ _ _ _ _ hx => exact hx.readDraw_eq
  | moves => rfl

/-- Settles O27: while busy every byte of the window comes from the current draw, and the engine's turn takes the
next one. -/
theorem busyFramebufferReadsAreFree : Obligations.BusyFramebufferReadsAreFree := by
  intro s off hbusy hlow hhigh b
  have hread : ∀ w, readValue s off w = fbRead s off w := readValue_framebuffer s hlow hhigh
  have hbyte : ∀ k, (windowByte s (off.toNat + k)).toNat = b k := fun k => by rw [windowByte_of_busy hbusy]
  refine ⟨?_, ?_, ?_, fun m d w => ?_, fun t hturn hstep hne => ?_⟩
  · rw [hread, toNat_fbRead_w8]; exact hbyte 0
  · rw [hread, toNat_fbRead_w16, hbyte 1]; exact congrArg _ (hbyte 0)
  · rw [hread, toNat_fbRead_w32, hbyte 3, hbyte 2, hbyte 1]; exact congrArg _ (hbyte 0)
  · have hsame : windowByte { s with fb := m, fbDraw := d } = windowByte s := funext fun a => by
      rw [windowByte_of_busy hbusy, windowByte_of_busy (s := { s with fb := m, fbDraw := d }) hbusy]
    rw [hread, readValue_framebuffer _ hlow hhigh]
    simp only [fbRead, hsame]
  · have heffect := step_effect hstep
    rw [hturn] at heffect
    cases heffect with
    | engine _ he => exact he.renews hne

end Sys2Proof.Machine
end

section
/-! PROOFS. The decoder and the encoder undo each other (30_encoding.md R90 to R99): whatever is decoded is well
formed and encodes to the words read; lengths, errors and fields are read off the command's words. -/

namespace Sys2Proof

/-- Settles O1: a command's words decode to it, and words behind them are left as they are. -/
theorem decodeOfEncode : Obligations.DecodeOfEncode := by
  intro i rest hwf
  simpa using decode_append (decode_encode hwf) rest

/-! ## A header is made of its fields -/

theorem headerWord_of_opOf {h : Word} (op : BitVec 4) (hop : opOf h = op.toNat) :
    headerWord op (aOf h) (rsvOf h) (rgbOf h) = h :=
  headerWord_fields h op (BitVec.eq_of_toNat_eq hop)

/-- A word is made of its low `n` bits and the number that stands above them. -/
theorem append_extractLsb'_low {m n : Nat} {x : BitVec m} {w : BitVec (m + n)} (hx : w.toNat / 2 ^ n = x.toNat) :
    x ++ w.extractLsb' 0 n = w := by
  refine BitVec.eq_of_toNat_eq ?_
  rw [Machine.toNat_append_add, BitVec.extractLsb'_toNat, Nat.shiftRight_zero, ← hx, Nat.div_add_mod']

theorem illegal9_header {h : Word} (hop : opOf h = 9) : 0x9#4 ++ h.extractLsb' 0 28 = h :=
  append_extractLsb'_low (by rw [← opOf_eq_div, hop]; rfl)

theorem illegalAB_header {h : Word} (hop : opOf h = 10 ∨ opOf h = 11) : 0b101#3 ++ h.extractLsb' 0 29 = h := by
  rw [opOf_eq_div] at hop
  exact append_extractLsb'_low (show h.toNat / 2 ^ 29 = 5 by omega)

theorem illegalCF_header {h : Word} (hop : 12 ≤ opOf h) : 0b11#2 ++ h.extractLsb' 0 30 = h := by
  have := h.isLt
  rw [opOf_eq_div] at hop
  exact append_extractLsb'_low (show h.toNat / 2 ^ 30 = 3 by omega)

/-! ## What the decoder reads encodes to the words read -/

/-- Command `i` is well formed, and `ws` are its words with `rest` behind them. -/
def ReadsBack (ws rest : List Word) (i : Instr) : Prop := i.wf = true ∧ encode i ++ rest = ws

theorem ReadsBack.of_parts {h : Word} {ws rest : List Word} {i : Instr} (hwf : i.wf = true) (hheader : i.header = h)
    (hops : i.operands ++ rest = ws) : ReadsBack (h :: ws) rest i := by
  subst hheader hops
  exact ⟨hwf, rfl⟩

theorem ReadsBack.header_operands {h : Word} {ws rest : List Word} {i : Instr} (hi : ReadsBack (h :: ws) rest i) :
    i.header = h ∧ i.operands ++ rest = ws :=
  List.cons.inj hi.2

theorem decodeOne_ok {mk : Word → Instr} {ws rest : List Word} {i : Instr} (h : decodeOne mk ws = .ok (i, rest)) :
    ∃ w1, ws = w1 :: rest ∧ i = mk w1 := by
  cases ws with
  | nil => cases h
  | cons w1 ws => cases h; exact ⟨w1, rfl, rfl⟩

theorem decodeTwo_ok {mk : Word → Word → Instr} {ws rest : List Word} {i : Instr}
    (h : decodeTwo mk ws = .ok (i, rest)) : ∃ w1 w2, ws = w1 :: w2 :: rest ∧ i = mk w1 w2 := by
  match ws with
  | [] => cases h
  | [_] => cases h
  | w1 :: w2 :: ws => cases h; exact ⟨w1, w2, rfl, rfl⟩

/-- A counted command has as many vertices as its CNT word allows, and its operands are the words read. -/
theorem decodeCounted_ok {mk : Cnt → List XY → Instr} {ws rest : List Word} {i : Instr}
    (h : decodeCounted mk ws = .ok (i, rest)) :
    ∃ cnt vs, i = mk cnt vs ∧ (vs.length == cnt.vertexWords) = true ∧
      cnt.word :: vs.map XY.word ++ rest = ws := by
  cases ws with
  | nil => cases h
  | cons w1 ws =>
    simp only [decodeCounted] at h
    split at h
    · cases h
    · rename_i hlen
      cases h
      refine ⟨_, _, rfl, ?_, ?_⟩
      · rw [beq_iff_eq, List.length_map, List.length_take, Nat.min_eq_left (by omega)]
      · rw [word_cntOf, map_word_xyOf, List.cons_append, List.take_append_drop]

/-- Whatever the decoder reads is well formed and encodes to the words read (R99). -/
theorem decode_readsBack {ws rest : List Word} {i : Instr} (h : decode ws = .ok (i, rest)) :
    ReadsBack ws rest i := by
  cases ws with
  | nil => cases h
  | cons h0 ws =>
    simp only [decode] at h
    split at h
    case h_1 hop => cases h; exact .of_parts rfl (headerWord_of_opOf 0x0#4 hop) rfl
    case h_2 hop =>
      obtain ⟨w1, rfl, rfl⟩ := decodeOne_ok h
      exact .of_parts rfl (headerWord_of_opOf 0x1#4 hop) (by simp [Instr.operands])
    case h_3 hop =>
      obtain ⟨w1, w2, rfl, rfl⟩ := decodeTwo_ok h
      exact .of_parts rfl (headerWord_of_opOf 0x2#4 hop) (by simp [Instr.operands])
    case h_4 hop =>
      obtain ⟨cnt, vs, rfl, hwf, hops⟩ := decodeCounted_ok h
      have hh := headerWord_of_opOf 0x3#4 hop
      cases ha : aOf h0 <;> rw [ha] at hh <;> exact .of_parts hwf hh hops
    case h_5 hop =>
      obtain ⟨cnt, vs, rfl, hwf, hops⟩ := decodeCounted_ok h
      exact .of_parts hwf (headerWord_of_opOf 0x4#4 hop) hops
    case h_6 hop =>
      obtain ⟨w1, w2, rfl, rfl⟩ := decodeTwo_ok h
      have hh := headerWord_of_opOf 0x5#4 hop
      cases ha : aOf h0 <;> rw [ha] at hh <;> exact .of_parts rfl hh (by simp [Instr.operands])
    case h_7 hop =>
      obtain ⟨w1, w2, rfl, rfl⟩ := decodeTwo_ok h
      have hh := headerWord_of_opOf 0x6#4 hop
      cases ha : aOf h0 <;> rw [ha] at hh <;> exact .of_parts rfl hh (by simp [Instr.operands])
    case h_8 hop => cases h; exact .of_parts rfl (headerWord_of_opOf 0x7#4 hop) rfl
    case h_9 hop =>
      obtain ⟨w1, w2, rfl, rfl⟩ := decodeTwo_ok h
      exact .of_parts rfl (headerWord_of_opOf 0x8#4 hop) (by simp [Instr.operands])
    case h_10 hop => cases h; exact .of_parts rfl (illegal9_header hop) rfl
    case h_11 hop => cases h; exact .of_parts rfl (illegalAB_header (.inl hop)) rfl
    case h_12 hop => cases h; exact .of_parts rfl (illegalAB_header (.inr hop)) rfl
    case h_13 =>
      have hop : 12 ≤ opOf h0 := by grind
      cases h
      exact .of_parts rfl (illegalCF_header hop) rfl

/-- Settles O2: by the decoder's cases, each of which makes the command of the fields of the words it reads. -/
theorem encodeOfDecode : Obligations.EncodeOfDecode := fun _ _ _ => decode_readsBack

/-! ## A command's opcode, length and CNT word -/

/-- A well-formed command has as many words as its length says (R98). -/
theorem length_encode {i : Instr} (h : i.wf = true) : (encode i).length = i.words := by
  cases i with
  | poly | polyA | outline => exact Laws.EncodedLength.counted h
  | nop | point | line | ellipse | ellipseA | span | spanA | clear | setclip | illegal9 | illegalAB | illegalCF =>
    rfl

/-- The ILLEGAL rows have the opcodes from 9 on (R96). -/
theorem opcode_of_isIllegal {i : Instr} (h : i.isIllegal = true) : 9 ≤ opOf i.header := by
  cases i with
  | illegal9 low | illegalAB low | illegalCF low =>
    rw [Instr.header, opOf_eq_div, Machine.toNat_append_add, BitVec.toNat_ofNat]
    omega
  | nop | point | line | poly | polyA | outline | ellipse | ellipseA | span | spanA | clear | setclip => cases h

/-- Every other row's opcode is below 9 (R95). -/
theorem isIllegal_iff_opcode (i : Instr) : i.isIllegal = true ↔ 9 ≤ opOf i.header := by
  refine ⟨opcode_of_isIllegal, fun hop => ?_⟩
  cases i with
  | illegal9 | illegalAB | illegalCF => rfl
  | nop | point | line | poly | polyA | outline | ellipse | ellipseA | span | spanA | clear | setclip =>
    simp [Instr.header] at hop

/-- The commands with a CNT word are those of the opcodes 3 and 4 (R95). -/
theorem hasCnt_iff_opcode (i : Instr) :
    (∃ cnt, i.cnt? = some cnt) ↔ opOf i.header = 3 ∨ opOf i.header = 4 := by
  have hill := @opcode_of_isIllegal i
  cases i with
  | illegal9 | illegalAB | illegalCF =>
    have hop := hill rfl
    simp only [Instr.cnt?, reduceCtorEq, exists_false, false_iff]
    omega
  | nop | point | line | poly | polyA | outline | ellipse | ellipseA | span | spanA | clear | setclip =>
    simp [Instr.cnt?, Instr.header]

/-- The CNT word is the first operand, and it gives the length (R92, R98). -/
theorem operands_of_cnt {i : Instr} {cnt : Cnt} (h : i.cnt? = some cnt) :
    (∃ vs, i.operands = cnt.word :: vs) ∧ i.words = 2 + cnt.vertexWords := by
  cases i with
  | poly | polyA | outline => cases h; exact ⟨⟨_, rfl⟩, rfl⟩
  | nop | point | line | ellipse | ellipseA | span | spanA | clear | setclip | illegal9 | illegalAB | illegalCF =>
    cases h

/-- The count is the low half of the CNT word (R92). -/
theorem toNat_cntWord_mod (cnt : Cnt) : cnt.word.toNat % 65536 = cnt.n.toNat := by
  rw [Cnt.word, Machine.toNat_append_add]
  exact Nat.mul_add_mod_of_lt cnt.n.isLt

theorem Cnt.legal_eq_false {cnt : Cnt} : cnt.legal = false ↔ cnt.n.toNat = 0 ∨ 128 < cnt.n.toNat := by
  rw [Bool.eq_false_iff, Ne, Machine.Cnt.legal_iff]
  omega

theorem not_isIllegal_of_cnt {i : Instr} {cnt : Cnt} (h : i.cnt? = some cnt) : ¬i.isIllegal = true := by
  have hop := (hasCnt_iff_opcode i).1 ⟨cnt, h⟩
  rw [isIllegal_iff_opcode]
  omega

/-- A command with a CNT word raises an error exactly where its count is illegal (R96). -/
theorem raises_iff_of_cnt {i : Instr} {cnt : Cnt} (h : i.cnt? = some cnt) : i.raises ↔ cnt.legal = false := by
  simp [Instr.raises, not_isIllegal_of_cnt h, h, Cnt.legal_eq_false]

/-- Words that are as many as the longest command give one (R98, R99). -/
theorem exists_decode_of_length {ws : List Word} (h : 130 ≤ ws.length) : ∃ i rest, decode ws = .ok (i, rest) := by
  cases hd : decode ws with
  | ok d => exact ⟨d.1, d.2, rfl⟩
  | error r =>
    have := Machine.length_of_incomplete hd
    omega

/-- Settles O3: with 129 words behind it a header waits for no more, and what is read encodes to it. -/
theorem everyHeaderDecodes : Obligations.EveryHeaderDecodes := by
  intro h ws hlen
  obtain ⟨i, rest, hd⟩ := exists_decode_of_length (ws := h :: ws) (Nat.succ_le_succ hlen)
  obtain ⟨rfl, hws⟩ := (decode_readsBack hd).header_operands
  simp only [← opOf_eq_div]
  refine ⟨i, rest, hd, rfl, isIllegal_iff_opcode i, hasCnt_iff_opcode i, fun cnt w1 tail hcnt htail => ?_⟩
  obtain ⟨⟨vs, hops⟩, hwords⟩ := operands_of_cnt hcnt
  obtain ⟨rfl, -⟩ : cnt.word = w1 ∧ vs ++ rest = tail := by
    rw [hops, htail] at hws
    exact List.cons.inj hws
  refine ⟨(toNat_cntWord_mod cnt).symm, ?_⟩
  cases hlegal : cnt.legal with
  | true =>
    obtain ⟨hlow, hhigh⟩ := (Machine.Cnt.legal_iff cnt).1 hlegal
    exact .inl ⟨hlow, hhigh, by rw [hwords, Cnt.vertexWords, if_pos hlegal]⟩
  | false => exact .inr ⟨Cnt.legal_eq_false.1 hlegal, (raises_iff_of_cnt hcnt).2 hlegal⟩

/-- An illegal count consumes no vertex word (R98, 60_exceptions.md R231). -/
theorem vertexWords_eq (cnt : Cnt) :
    cnt.vertexWords = if 1 ≤ cnt.n.toNat ∧ cnt.n.toNat ≤ 128 then cnt.n.toNat else 0 := by
  simp only [Cnt.vertexWords, Machine.Cnt.legal_iff]

/-- Settles O4: the words read are the command's encoding, whose length the opcode and the CNT word give. -/
theorem commandLengths : Obligations.CommandLengths := by
  intro h ws rest i hd
  have hi := decode_readsBack hd
  obtain ⟨rfl, rfl⟩ := hi.header_operands
  have hwords : i.header :: (i.operands ++ rest) = encode i ++ rest := rfl
  refine ⟨?_, by rw [hwords, ← length_encode hi.1, List.drop_left]⟩
  rw [hwords, List.length_append, Nat.add_sub_cancel, length_encode hi.1]
  simp only [← opOf_eq_div]
  have hill := @opcode_of_isIllegal i
  cases i with
  | illegal9 | illegalAB | illegalCF =>
    have hop := hill rfl
    split
    case h_10 => rfl
    all_goals omega
  | poly | polyA | outline =>
    simp [Instr.header, Instr.words, Instr.operands, toNat_cntWord_mod, vertexWords_eq]
  | nop | point | line | ellipse | ellipseA | span | spanA | clear | setclip =>
    simp [Instr.header, Instr.words]

/-! ## Fields as numbers -/

theorem toNat_extractLsb' (w : Word) (i n : Nat) : (w.extractLsb' i n).toNat = w.toNat / 2 ^ i % 2 ^ n := by
  rw [BitVec.extractLsb'_toNat, Nat.shiftRight_eq_div_pow]

theorem toNat_hiOf (w : Word) : (hiOf w).toNat = w.toNat / 65536 := by
  have := w.isLt
  rw [hiOf, toNat_extractLsb']
  omega

theorem toNat_loOf (w : Word) : (loOf w).toNat = w.toNat % 65536 := by
  rw [loOf, toNat_extractLsb', pow_zero, Nat.div_one]
  rfl

theorem aOf_iff (h : Word) : aOf h = true ↔ h.toNat / 2 ^ 27 % 2 = 1 := by
  rw [aOf, BitVec.getLsbD, Nat.testBit_eq_decide_div_mod_eq, decide_eq_true_eq]

/-- Settles O5: the decoder takes each field from the word's bits, which are a quotient and a remainder. -/
theorem fieldsStandWhereTheSpecPutsThem : Obligations.FieldsStandWhereTheSpecPutsThem := by
  intro h w1 w2
  refine ⟨fun hop => ?_, fun hop => ?_, fun hop => ?_⟩
  · rw [← opOf_eq_div] at hop
    refine ⟨aOf h, rsvOf h, rgbOf h, xyOf w1, xyOf w2, by simp only [decode, hop, decodeTwo], aOf_iff h,
      toNat_extractLsb' h 24 3, toNat_extractLsb' h 16 8, toNat_extractLsb' h 8 8, ?_,
      toNat_hiOf w1, toNat_loOf w1, toNat_hiOf w2, toNat_loOf w2⟩
    rw [rgbOf, toNat_extractLsb', pow_zero, Nat.div_one]
    rfl
  · have hop6 : opOf h = 6 := by rw [opOf_eq_div]; omega
    have ha : aOf h = true := by rw [aOf_iff, hop]
    exact ⟨rsvOf h, rgbOf h, x2Of w1, ywOf w2, by simp only [decode, hop6, ha, decodeTwo, if_true],
      toNat_hiOf w1, toNat_loOf w1, toNat_hiOf w2, toNat_loOf w2⟩
  · rw [← opOf_eq_div] at hop
    exact ⟨aOf h, rsvOf h, rgbOf h, xyOf w1, whOf w2, by simp only [decode, hop, decodeTwo],
      toNat_hiOf w1, toNat_loOf w1, toNat_hiOf w2, toNat_loOf w2⟩

/-- Settles O6: the decoder is run on the words. -/
theorem programWordsOfTheSpecDecode : Obligations.ProgramWordsOfTheSpecDecode := by
  unfold Obligations.ProgramWordsOfTheSpecDecode
  decide

end Sys2Proof
end

section
/-! PROOFS. Command errors: which commands raise one and where it is detected (60_exceptions.md R231, R232); which
fields of a command do not matter (30_encoding.md R94, R97); and the engine's turn (R100). -/

namespace Sys2Proof

/-- The cause of the error a command raises: its opcode, or else its count (60_exceptions.md R230). -/
def Instr.error (i : Instr) : Machine.CmdError := if i.isIllegal then .illegalOpcode else .badVertexCount

/-! ## Where errors are detected -/

/-- A header with an opcode from 9 on is a command by itself (R96, 60_exceptions.md R231). -/
theorem decode_illegalOpcode {h : Word} (hop : 9 ≤ opOf h) :
    ∃ i, decode [h] = .ok (i, []) ∧ i.isIllegal = true := by
  simp only [decode]
  split
  case h_10 | h_11 | h_12 | h_13 => exact ⟨_, rfl, rfl⟩
  all_goals omega

theorem decodeCounted_illegal (mk : Cnt → List XY → Instr) {w1 : Word} (h : (cntOf w1).legal = false) :
    decodeCounted mk [w1] = .ok (mk (cntOf w1) [], []) := by
  simp [decodeCounted, Cnt.vertexWords, h]

/-- An illegal count needs no vertex word to be a command (R96, 60_exceptions.md R231). -/
theorem decode_illegalCount {h w1 : Word} (hop : opOf h = 3 ∨ opOf h = 4) (hcnt : (cntOf w1).legal = false) :
    ∃ i, decode [h, w1] = .ok (i, []) ∧ i.cnt? = some (cntOf w1) := by
  obtain hop | hop := hop <;> simp only [decode, hop, decodeCounted_illegal _ hcnt]
  · cases aOf h <;> exact ⟨_, rfl, rfl⟩
  · exact ⟨_, rfl, rfl⟩

/-! ## Ignored fields -/

theorem clearIgnored_isIllegal (i : Instr) : i.clearIgnored.isIllegal = i.isIllegal := by cases i <;> rfl

theorem clearIgnored_error (i : Instr) : i.clearIgnored.error = i.error := by
  rw [Instr.error, clearIgnored_isIllegal, Instr.error]

/-- Clearing the ignored fields leaves the count. -/
theorem clearIgnored_cnt (i : Instr) : i.clearIgnored.cnt? = i.cnt?.map fun cnt => ⟨0#16, cnt.n⟩ := by
  cases i <;> rfl

theorem clearIgnored_raises {i : Instr} (h : i.raises) : i.clearIgnored.raises := by
  obtain hill | ⟨cnt, hcnt, hn⟩ := h
  · exact .inl ((clearIgnored_isIllegal i).trans hill)
  · exact .inr ⟨⟨0#16, cnt.n⟩, by rw [clearIgnored_cnt, hcnt]; rfl, hn⟩

end Sys2Proof

namespace Sys2Proof.Machine

/-! ## Commands that raise an error and commands that do not -/

theorem execCounted_illegal {cnt : Cnt} (hcnt : cnt.legal = false) (h : Word) (f : Canvas → Memory → Memory)
    (s : State) : execCounted cnt h f s = .next (raiseCmdError .badVertexCount h s) := by
  rw [execCounted_eq, hcnt]
  rfl

theorem execCounted_legal {cnt : Cnt} (hcnt : cnt.legal = true) (h : Word) (f : Canvas → Memory → Memory)
    (s : State) : execCounted cnt h f s = .next (s.paint (2 + cnt.n.toNat) f) := by
  rw [execCounted_eq, hcnt]
  rfl

/-- A command that raises an error does nothing else (60_exceptions.md R232). -/
theorem exec_of_raises {i : Instr} (h : i.raises) (s : State) :
    exec i s = .next (raiseCmdError i.error i.header s) := by
  have hcnt := fun cnt (hi : i.cnt? = some cnt) => (raises_iff_of_cnt hi).1 h
  cases i with
  | illegal9 | illegalAB | illegalCF => rfl
  | poly | polyA | outline => exact execCounted_illegal (hcnt _ rfl) _ _ s
  | nop | point | line | ellipse | ellipseA | span | spanA | clear | setclip =>
    obtain hill | ⟨_, hi, -⟩ := h
    · cases hill
    · cases hi

theorem legal_of_not_raises {i : Instr} (h : ¬i.raises) {cnt : Cnt} (hcnt : i.cnt? = some cnt) :
    cnt.legal = true := by
  rwa [raises_iff_of_cnt hcnt, Bool.not_eq_false] at h

/-- The ignored fields change nothing where no error records the header (R97). -/
theorem exec_eq_clearIgnored {i : Instr} (h : ¬i.raises) (s : State) : exec i s = exec i.clearIgnored s := by
  have hlegal := @legal_of_not_raises i h
  cases i with
  | illegal9 | illegalAB | illegalCF => exact absurd (.inl rfl) h
  | poly | polyA | outline =>
    -- The cleared CNT word has the same count.
    have hcnt := hlegal rfl
    exact (execCounted_legal hcnt _ _ s).trans (execCounted_legal (cnt := ⟨0#16, _⟩) hcnt _ _ s).symm
  | nop | point | line | ellipse | ellipseA | span | spanA | clear | setclip => rfl

/-- A polygon of one or two vertices is a point or a line, whatever A is (R94, 42_polygon.md R161). -/
theorem drawPoly_alpha_of_length (c : Canvas) (rgb : Rgb) {vs : List XY} (h : vs.length = 1 ∨ vs.length = 2)
    (a b : Bool) (m : Memory) : drawPoly c rgb a vs m = drawPoly c rgb b vs m := by
  obtain h | h := h <;> simp [drawPoly, h]

/-- Settles O7: the ignored fields stand in the header alone, which only an error records. -/
theorem ignoredFieldsDoNotMatter : Obligations.IgnoredFieldsDoNotMatter := by
  refine ⟨fun i s h => exec_eq_clearIgnored h s, fun i s h => ?_, fun rsv rgb cnt vs s hlen hcnt => ?_⟩
  · refine ⟨_, exec_of_raises (clearIgnored_raises h) s, ?_⟩
    rw [exec_of_raises h, clearIgnored_error]
    rfl
  · have hlegal : cnt.legal = true := (Cnt.legal_iff cnt).2 (by omega)
    rw [exec_polyA_legal _ _ _ _ _ hlegal, exec_poly_legal _ _ _ _ _ hlegal]
    simp only [drawPoly_alpha_of_length _ rgb hlen true false]

/-- A command that raises no error leaves the mode. -/
theorem mode_of_not_raises {i : Instr} (h : ¬i.raises) {s t : State} (hexec : exec i s = .next t) :
    t.mode = s.mode := by
  have hlegal := @legal_of_not_raises i h
  cases i with
  | illegal9 | illegalAB | illegalCF => exact absurd (.inl rfl) h
  | poly | polyA | outline =>
    cases hexec.symm.trans (execCounted_legal (hlegal rfl) _ _ s)
    rfl
  | nop | point | line | ellipse | ellipseA | span | spanA | clear | setclip => cases hexec; rfl

/-- A host access leaves the mode, or is a soft reset, after which the engine runs. -/
theorem HostEffect.mode_eq_or_run {k : Nat} {s t : State} (h : HostEffect k s t) :
    t.mode = s.mode ∨ t.mode = .run := by
  cases h with
  | idle | reads => exact .inl rfl
  | writes _ _ _ _ _ _ _ _ _ _ hw =>
    cases hw with
    | reset => exact .inr (by simp)
    | ignored | ctrl | discarded | accepted | held | hold => exact .inl rfl

/-! ## The engine's turn with a command that raises an error -/

/-- A scheduled turn of the engine executes the command in the latch (R100). -/
theorem EngineRuns.step_executes {s : State} {ts : List Turn} (h : EngineRuns s ts) {i : Instr}
    (hlatch : decode s.latch = .ok (i, [])) :
    step s = exec i { s with schedule := ts, readDraw := s.readDraw + 1 } := by
  obtain ⟨hschedule, hreset, hrun⟩ := h
  rw [step_of_schedule hschedule]
  exact engineTurn_executes hlatch hreset hrun

/-- The command in the latch raises its error, and the header in the latch is recorded (60_exceptions.md R232). -/
theorem EngineRuns.step_raises {s : State} {ts : List Turn} (h : EngineRuns s ts) {i : Instr} {h0 : Word}
    {ws : List Word} (hlatch : s.latch = h0 :: ws) (hdecode : decode (h0 :: ws) = .ok (i, []))
    (hraises : i.raises) :
    step s = .next { s with
      schedule := ts, mode := .halted, errCode := i.error.code, errInfo := h0, fifo := [], latch := [],
      readDraw := s.readDraw + 1 } := by
  rw [h.step_executes (hlatch ▸ hdecode), exec_of_raises hraises, (decode_readsBack hdecode).header_operands.1]
  rfl

/-- Settles O19: the words in the latch decode to a command that raises its error; a command that raises none
leaves the mode, and no host access halts the engine. -/
theorem errorsAreDetectedThereAndNowhereElse : Obligations.ErrorsAreDetectedThereAndNowhereElse := by
  refine ⟨fun s ts h hruns hlatch hop => ?_, fun s ts h w1 hruns hlatch hop hn => ?_,
    fun i s t hexec hrun hhalted => ?_, fun k s t hturn hhalted => ?_⟩
  · rw [← opOf_eq_div] at hop
    obtain ⟨i, hdecode, hill⟩ := decode_illegalOpcode hop
    rw [hruns.step_raises hlatch hdecode (.inl hill), Instr.error, if_pos hill]
    rfl
  · rw [← opOf_eq_div] at hop
    have hcnt : (cntOf w1).legal = false := Cnt.legal_eq_false.2 (by rwa [cntOf, toNat_loOf])
    obtain ⟨i, hdecode, hi⟩ := decode_illegalCount hop hcnt
    rw [hruns.step_raises hlatch hdecode ((raises_iff_of_cnt hi).2 hcnt), Instr.error,
      if_neg (not_isIllegal_of_cnt hi)]
    rfl
  · by_contra hraises
    rw [mode_of_not_raises hraises hexec, hrun] at hhalted
    cases hhalted
  · obtain hmode | hmode := (hostTurn_effect hturn).mode_eq_or_run
    · exact hmode ▸ hhalted
    · rw [hmode] at hhalted
      cases hhalted

/-! ## The engine's turn -/

/-- Settles O8: the schedule gives the engine its turn, or the default does, because a whole command is in the
latch. -/
theorem stepRunsTheLatchedCommand : Obligations.StepRunsTheLatchedCommand := by
  intro s i hlatch hreset hrun
  refine ⟨fun ts hschedule => EngineRuns.step_executes ⟨hschedule, hreset, hrun⟩ hlatch, fun hschedule => ?_⟩
  have hcommand : (latchCommand s).isSome = true := by rw [latchCommand_eq_some.2 hlatch]; rfl
  rw [EngineAlone.step_eq ⟨hrun, hreset, hschedule⟩ (.inl hcommand)]
  exact engineTurn_executes hlatch hreset hrun

/-- Settles O9: without a whole command in the latch the engine's turn is the move of a word, for which there is
room, or idle. -/
theorem engineMovesOneWord : Obligations.EngineMovesOneWord := by
  intro s ts ⟨hschedule, hreset, hrun⟩ hlatch
  have hstep : step s = engineTurn { s with schedule := ts } := step_of_schedule hschedule
  rw [engineTurn_moves (s := { s with schedule := ts }) hlatch hreset hrun] at hstep
  refine ⟨fun w rest hfifo hroom => ?_, fun hfifo => ?_⟩
  · rw [hstep, hfifo]
    exact if_pos hroom
  · rw [hstep, hfifo]

end Sys2Proof.Machine
end

section
/-! PROOFS. Pixels and spans (40_pixel_span.md R120 to R128): the blend as numbers, what a span paints, and which
pixels a drawing can change and how. -/

namespace Sys2Proof.Machine

/-! ## The blend (R123) -/

theorem toNat_avg (p q : Byte) : (avg p q).toNat = (p.toNat + q.toNat) / 2 := by
  rw [avg, BitVec.toNat_ofNat]
  exact Nat.mod_eq_of_lt (by omega)

@[simp] theorem avg_self (p : Byte) : avg p p = p :=
  BitVec.eq_of_toNat_eq (by rw [toNat_avg]; omega)

theorem avg_comm (p q : Byte) : avg p q = avg q p := by
  rw [avg, avg, Nat.add_comm]

/-- Settles O35: the mean of two channels fits a channel, so it is rounded down and never wraps. -/
theorem blendIsFloorOfMean : Obligations.BlendIsFloorOfMean :=
  fun p q => ⟨toNat_avg p q, avg_self p, avg_comm p q⟩

/-! ## Spans (R125, R128) -/

/-- A command that fills a span paints what the span covers, each pixel once. -/
theorem paints_of_fillSpan {i : Instr} {words : Nat} {s : State} {rgb : Rgb} {bl : Bool} (sp : Span)
    (he : exec i s = .next (s.paint words fun c m => fillSpan c rgb bl sp m)) :
    Paints i words s sp.covers (if bl then blendedPixel rgb else opaquePixel rgb) :=
  paints_of_plotAll_nodup sp.points (nodup_points sp) he rfl fun _ p _ => mem_points sp p

/-- Settles O36: both commands fill the span of their operands. -/
theorem spanPaintsItsRow : Obligations.SpanPaintsItsRow :=
  fun _ _ xs row _ =>
    ⟨paints_of_fillSpan (bl := false) (spanOf xs row) rfl, paints_of_fillSpan (bl := true) (spanOf xs row) rfl⟩

/-! ## Bytes a drawing leaves or makes opaque -/

theorem pixelByte_alphaByte (rgb : Rgb) (bl : Bool) (x : Nat) (old : Byte) :
    pixelByte rgb bl (x / 4 * 4 + 3) old = 0xFF#8 := if_pos (by omega)

/-- A byte that a drawing changes belongs to a pixel whose byte `a` is 0xFF afterwards (R124). -/
theorem DrawnFrom.read_eq_or_opaque {c : Canvas} {rgb : Rgb} {m m' : Memory} (h : DrawnFrom c rgb m m') (x : Nat) :
    m'.read x = m.read x ∨ m'.read (x / 4 * 4 + 3) = some 0xFF#8 := by
  refine h (fun n => n.read x = m.read x ∨ n.read (x / 4 * 4 + 3) = some 0xFF#8) (fun bl p n hn => ?_) (.inl rfl)
  rw [read_plotPixel, read_plotPixel, targetOf_alphaByte]
  by_cases hp : targetOf c.clip x = some p
  · rw [if_pos hp, if_pos hp, pixelByte_alphaByte]
    exact .inr rfl
  · rwa [if_neg hp, if_neg hp]

/-- A drawing leaves a byte that each of its pixel writes, opaque or blended, would leave. -/
theorem DrawnFrom.byteAt_eq {c : Canvas} {rgb : Rgb} {m m' : Memory} (h : DrawnFrom c rgb m m') {x : Nat}
    (hx : ∀ bl, pixelByte rgb bl x (byteAt c.draw m x) = byteAt c.draw m x) :
    byteAt c.draw m' x = byteAt c.draw m x := by
  refine h (fun n => byteAt c.draw n x = byteAt c.draw m x) (fun bl p n hn => ?_) rfl
  by_cases hp : targetOf c.clip x = some p
  · rw [byteAt, read_plotPixel, if_pos hp, hn, hx]
    rfl
  · rw [byteAt_eq_of_read (m' := n) (by rw [read_plotPixel, if_neg hp]), hn]

/-! ## Pixels by their bytes -/

/-- A pixel is as before where its four bytes are. -/
theorem pixel_eq_of_bytes {s t : State} {sx sy : Nat}
    (h : ∀ c < 4, byteAt t.fbDraw t.fb (fbOff sx sy c) = byteAt s.fbDraw s.fb (fbOff sx sy c)) :
    t.pixel sx sy = s.pixel sx sy := by
  rw [State.pixel, State.pixel, h 0 (by decide), h 1 (by decide), h 2 (by decide), h 3 (by decide)]

theorem pixel_a_of_read {s : State} {sx sy : Nat} {b : Byte} (h : s.fb.read (fbOff sx sy 3) = some b) :
    (s.pixel sx sy).a = b :=
  show byteAt s.fbDraw s.fb (fbOff sx sy 3) = b by rw [byteAt, h, Option.getD_some]

theorem fbOff_mod {c : Nat} (hc : c < 4) (sx sy : Nat) : fbOff sx sy c % 4 = c := by
  unfold fbOff; omega

/-- The byte `a` of the pixel that byte `c` belongs to. -/
theorem fbOff_alphaByte {c : Nat} (hc : c < 4) (sx sy : Nat) : fbOff sx sy c / 4 * 4 + 3 = fbOff sx sy 3 := by
  unfold fbOff; omega

/-- Writing its own colour over an opaque pixel, opaque or blended, changes none of its bytes (R123). -/
theorem pixelByte_of_pixel_eq {s : State} {rgb : Rgb} {sx sy : Nat}
    (h : s.pixel sx sy = ⟨rgb.r, rgb.g, rgb.b, 0xFF#8⟩) {c : Nat} (hc : c < 4) (bl : Bool) :
    pixelByte rgb bl (fbOff sx sy c) (byteAt s.fbDraw s.fb (fbOff sx sy c)) =
      byteAt s.fbDraw s.fb (fbOff sx sy c) := by
  obtain ⟨hr, hg, hb, ha⟩ := Pixel.mk.inj h
  rw [pixelByte, fbOff_mod hc]
  obtain rfl | rfl | rfl | rfl : c = 0 ∨ c = 1 ∨ c = 2 ∨ c = 3 := by omega
  · simp [hr]
  · simp [hg]
  · simp [hb]
  · simp [ha]

/-! ## Pixels of a drawing -/

section Drawing

variable {s t : State} {rgb : Rgb} {sx sy : Nat}

/-- No drawing changes a pixel outside the clipping rectangle (R122). -/
theorem DrawnFrom.pixel_eq_of_outside (h : DrawnFrom s.canvas rgb s.fb t.fb) (hdraw : t.fbDraw = s.fbDraw)
    (hx : sx < 256) (hy : sy < 224) (hout : ¬s.insideClip (s.clipPoint sx sy)) :
    t.pixel sx sy = s.pixel sx sy := by
  refine pixel_eq_of_bytes fun c hc => ?_
  rw [hdraw]
  refine byteAt_eq_of_read (h.read_eq ?_)
  rw [canvas_clip, targetOf_pixel s hx hy hc, if_neg hout]

/-- A pixel that a drawing changes is opaque afterwards (R124). -/
theorem DrawnFrom.alpha_of_pixel_ne (h : DrawnFrom s.canvas rgb s.fb t.fb) (hdraw : t.fbDraw = s.fbDraw)
    (hne : t.pixel sx sy ≠ s.pixel sx sy) : (t.pixel sx sy).a = 0xFF#8 := by
  by_contra ha
  refine hne (pixel_eq_of_bytes fun c hc => ?_)
  have hbyte := h.read_eq_or_opaque (fbOff sx sy c)
  rw [fbOff_alphaByte hc] at hbyte
  obtain hsame | hopaque := hbyte
  · rw [hdraw, byteAt_eq_of_read hsame]
  · exact absurd (pixel_a_of_read hopaque) ha

/-- A drawing leaves every pixel of the screen where all visible ones hold its colour (R123). -/
theorem DrawnFrom.pixel_eq_of_ownColour (h : DrawnFrom s.canvas rgb s.fb t.fb) (hdraw : t.fbDraw = s.fbDraw)
    (hx : sx < 256) (hy : sy < 224)
    (hown : s.insideClip (s.clipPoint sx sy) → s.pixel sx sy = ⟨rgb.r, rgb.g, rgb.b, 0xFF#8⟩) :
    t.pixel sx sy = s.pixel sx sy := by
  by_cases hin : s.insideClip (s.clipPoint sx sy)
  · refine pixel_eq_of_bytes fun c hc => ?_
    rw [hdraw]
    exact h.byteAt_eq (pixelByte_of_pixel_eq (hown hin) hc)
  · exact h.pixel_eq_of_outside hdraw hx hy hin

/-- A command that draws in the colour all visible pixels hold completes and leaves every pixel. -/
theorem leavesPixels_of_ownColour {i : Instr} {words : Nat} {f : Canvas → Memory → Memory}
    (hown : ∀ sx sy, sx < 256 → sy < 224 → s.insideClip (s.clipPoint sx sy) →
      s.pixel sx sy = ⟨rgb.r, rgb.g, rgb.b, 0xFF#8⟩)
    (hexec : exec i s = .next (s.paint words f)) (hdrawn : DrawnFrom s.canvas rgb s.fb (f s.canvas s.fb)) :
    ∃ t, exec i s = .next t ∧ ∀ sx sy, sx < 256 → sy < 224 → t.pixel sx sy = s.pixel sx sy :=
  ⟨_, hexec, fun sx sy hx hy =>
    DrawnFrom.pixel_eq_of_ownColour (t := s.paint words f) hdrawn (paint_fbDraw s words f) hx hy (hown sx sy hx hy)⟩

end Drawing

/-- Settles O37: a command draws through PlotPixel alone, or leaves the framebuffer as it is. -/
theorem pixelsChangeOnlyInsideTheClip : Obligations.PixelsChangeOnlyInsideTheClip := by
  intro i s t hexec sx sy hx hy
  cases exec_effect hexec with
  | draws words rgb m hm =>
    have hdrawn : DrawnFrom s.canvas rgb s.fb ({ s with fb := m }.retire words).fb := hm
    exact ⟨hdrawn.pixel_eq_of_outside rfl hx hy, hdrawn.alpha_of_pixel_ne rfl⟩
  | setsClip | raises => exact ⟨fun _ => rfl, fun hne => absurd rfl hne⟩

/-- Settles O39: each of the three commands completes with a drawing in its own colour; a polygon of one or two
vertices draws opaquely, which leaves its own colour as well. -/
theorem blendOverOwnColourChangesNothing : Obligations.BlendOverOwnColourChangesNothing := by
  intro rgb s hown
  refine ⟨fun rsv cnt vs hlow hhigh => ?_, fun rsv c r => ?_, fun rsv xs row => ?_⟩
  · have hlegal : cnt.legal = true := (Cnt.legal_iff cnt).2 ⟨hlow, hhigh⟩
    exact leavesPixels_of_ownColour hown (exec_polyA_legal rsv rgb cnt vs s hlegal) (.drawPoly true vs)
  · exact leavesPixels_of_ownColour hown rfl (.drawEllipse true (pointOf c) (pointOf r))
  · exact leavesPixels_of_ownColour hown rfl (.fillSpan true (spanOf xs row))

end Sys2Proof.Machine
end

section
/-! PROOFS. POINT and LINE (41_point_line.md R140 to R144): what the two commands paint, and a line's walk as the
list of the points that a closed form gives. -/

namespace Sys2Proof.Machine

/-! ## The commands (R140, R143) -/

/-- Settles O40: POINT plots a list of one point. -/
theorem pointPaintsOnePixel : Obligations.PointPaintsOnePixel :=
  fun _ _ _ p _ => paints_of_plotAll_opaque [pointOf p] rfl rfl fun _ _ _ => List.mem_singleton

/-- Settles O41: LINE plots the pixels of its walk. -/
theorem linePaintsItsWalk : Obligations.LinePaintsItsWalk :=
  fun _ _ _ p1 p2 _ => paints_of_plotAll_opaque (linePixels (pointOf p1) (pointOf p2)) rfl rfl fun _ _ _ => Iff.rfl

/-! ## The set-up (R141) -/

/-- The steps of a line along its major axis, `delta_max` (R141). -/
def majorLength (p1 p2 : Point) : Nat := max (p2.1 - p1.1).natAbs (p2.2 - p1.2).natAbs

/-- The steps of a line along its minor axis, `delta_min` (R141). -/
def minorLength (p1 p2 : Point) : Nat := min (p2.1 - p1.1).natAbs (p2.2 - p1.2).natAbs

theorem minorLength_le_majorLength (p1 p2 : Point) : minorLength p1 p2 ≤ majorLength p1 p2 := min_le_max

theorem lineSetup_deltaMax (p1 p2 : Point) : (lineSetup p1 p2).deltaMax = majorLength p1 p2 :=
  (lineSetup_spec p1 p2).1

theorem lineSetup_deltaMin (p1 p2 : Point) : (lineSetup p1 p2).deltaMin = minorLength p1 p2 :=
  (lineSetup_spec p1 p2).2.1

theorem lineSetup_sx (p1 p2 : Point) : (lineSetup p1 p2).sx = if p2.1 < p1.1 then -1 else 1 := by
  simp only [lineSetup, sub_neg]

theorem lineSetup_sy (p1 p2 : Point) : (lineSetup p1 p2).sy = if p2.2 < p1.2 then -1 else 1 := by
  simp only [lineSetup, sub_neg]

/-! ## Steps along the minor axis (R142) -/

/-- `k · delta_min / delta_max` rounded to the nearest, a half up. -/
def minorSteps (p1 p2 : Point) (k : Nat) : Nat :=
  (2 * minorLength p1 p2 * k + majorLength p1 p2) / (2 * majorLength p1 p2)

/-- A line without length is one pixel. -/
theorem minorSteps_of_majorLength_eq_zero {p1 p2 : Point} (h : majorLength p1 p2 = 0) (k : Nat) :
    minorSteps p1 p2 k = 0 := by
  rw [minorSteps, h, Nat.mul_zero, Nat.div_zero]

theorem minorSteps_zero (p1 p2 : Point) : minorSteps p1 p2 0 = 0 := by
  obtain h | h := Nat.eq_zero_or_pos (majorLength p1 p2)
  · exact minorSteps_of_majorLength_eq_zero h 0
  · exact Nat.div_eq_of_lt (by omega)

theorem minorSteps_majorLength (p1 p2 : Point) : minorSteps p1 p2 (majorLength p1 p2) = minorLength p1 p2 := by
  obtain h | h := Nat.eq_zero_or_pos (majorLength p1 p2)
  · have hle := minorLength_le_majorLength p1 p2
    rw [minorSteps_of_majorLength_eq_zero h]
    omega
  · rw [minorSteps, Nat.mul_right_comm, Nat.mul_add_div (by omega) (minorLength p1 p2), Nat.div_eq_of_lt (by omega),
      Nat.add_zero]

theorem minorSteps_le_succ (p1 p2 : Point) (k : Nat) : minorSteps p1 p2 k ≤ minorSteps p1 p2 (k + 1) :=
  Nat.div_le_div_right (by rw [Nat.mul_succ]; omega)

/-- One round adds `2 · delta_min` to the dividend, no more than the divisor. -/
theorem minorSteps_succ_le (p1 p2 : Point) (k : Nat) : minorSteps p1 p2 (k + 1) ≤ minorSteps p1 p2 k + 1 := by
  have hle := minorLength_le_majorLength p1 p2
  obtain h | h := Nat.eq_zero_or_pos (majorLength p1 p2)
  · simp [minorSteps_of_majorLength_eq_zero h]
  · rw [minorSteps, minorSteps, ← Nat.add_div_right _ (by omega)]
    exact Nat.div_le_div_right (by rw [Nat.mul_succ]; omega)

/-- A sequence that grows by at most one changes as often as it grows. -/
theorem length_filter_changes (f : Nat → Nat) (hle : ∀ k, f k ≤ f (k + 1)) (hsucc : ∀ k, f (k + 1) ≤ f k + 1)
    (n : Nat) : ((List.range n).filter fun k => f k ≠ f (k + 1)).length + f 0 = f n := by
  induction n with
  | zero => simp
  | succ n ih =>
    have hlast : ([n].filter fun k => f k ≠ f (k + 1)).length + f n = f (n + 1) := by
      by_cases h : f n = f (n + 1)
      · simp [h]
      · have h1 := hle n
        have h2 := hsucc n
        have hgrows : 1 + f n = f (n + 1) := by omega
        simpa [h] using hgrows
    rw [List.range_succ, List.filter_append, List.length_append]
    omega

/-! ## The pixels of a walk in closed form (R142, R144) -/

/-- `k` steps along the major axis from the first endpoint, and `minorSteps` along the minor axis. -/
def linePoint (p1 p2 : Point) (k : Nat) : Point :=
  if (p2.2 - p1.2).natAbs ≤ (p2.1 - p1.1).natAbs then
    (p1.1 + (lineSetup p1 p2).sx * k, p1.2 + (lineSetup p1 p2).sy * minorSteps p1 p2 k)
  else (p1.1 + (lineSetup p1 p2).sx * minorSteps p1 p2 k, p1.2 + (lineSetup p1 p2).sy * k)

/-- The steps along the minor axis are the ones that keep the error term in its range. -/
theorem eq_minorSteps {p1 p2 : Point} {k m : Nat} (hk : k ≤ majorLength p1 p2) (hmk : m ≤ k)
    (hlow : 2 * majorLength p1 p2 * m ≤ 2 * minorLength p1 p2 * k + majorLength p1 p2)
    (hhigh : 2 * minorLength p1 p2 * k + majorLength p1 p2 < 2 * majorLength p1 p2 * (m + 1) ∨
      majorLength p1 p2 = 0) : m = minorSteps p1 p2 k := by
  obtain hhigh | hzero := hhigh
  · exact (Nat.div_eq_of_lt_le (by rwa [Nat.mul_comm m]) (by rwa [Nat.mul_comm (m + 1)])).symm
  · rw [minorSteps_of_majorLength_eq_zero hzero]
    omega

theorem getD_linePixels_eq {p1 p2 : Point} {k : Nat} (hk : k ≤ majorLength p1 p2) :
    (linePixels p1 p2).getD k (0, 0) = linePoint p1 p2 k := by
  have hmax := lineSetup_deltaMax p1 p2
  have hmin := lineSetup_deltaMin p1 p2
  obtain ⟨-, -, hmajor, -⟩ := lineSetup_spec p1 p2
  have hle := minorLength_le_majorLength p1 p2
  obtain ⟨m, hmk, herr, hlow, hhigh, hpoint⟩ :=
    lineRounds_eq (lineSetup p1 p2) p1 (by omega) (by omega) k
  rw [herr, hmax, hmin] at hlow hhigh
  obtain rfl : m = minorSteps p1 p2 k := by
    refine eq_minorSteps hk hmk ?_ (hhigh.imp (fun h => ?_) (by omega))
    · zify; linarith
    · zify; linarith
  rw [getD_linePixels p1 p2 hk, hpoint, linePoint]
  simp only [hmajor]

@[simp] theorem length_linePixels (p1 p2 : Point) : (linePixels p1 p2).length = majorLength p1 p2 + 1 := by
  rw [linePixels, List.length_cons, length_lineWalk, lineSetup_deltaMax, Int.toNat_natCast]

/-- A walk is its closed form, from the first endpoint on. -/
theorem linePixels_eq_map (p1 p2 : Point) :
    linePixels p1 p2 = (List.range (majorLength p1 p2 + 1)).map (linePoint p1 p2) := by
  refine List.ext_getElem (by simp) fun k hk _ => ?_
  rw [← List.getD_eq_getElem _ (0, 0) hk, getD_linePixels_eq (by rw [length_linePixels] at hk; omega)]
  simp

theorem linePoint_majorLength (p1 p2 : Point) : linePoint p1 p2 (majorLength p1 p2) = p2 := by
  obtain ⟨-, -, -, hdx, hdy, -, -⟩ := lineSetup_spec p1 p2
  rw [linePoint, minorSteps_majorLength, majorLength, minorLength]
  split
  next h => rw [max_eq_left h, min_eq_right h, hdx, hdy, add_sub_cancel, add_sub_cancel]
  next h =>
    rw [max_eq_right (by omega), min_eq_left (by omega), hdx, hdy, add_sub_cancel, add_sub_cancel]

/-! ## Two pixels of a walk (R144) -/

/-- The distance of two points of an axis that a walk goes along in direction `d`. -/
theorem natAbs_offset_sub {d : Int} (hd : d = 1 ∨ d = -1) (x : Int) (i j : Nat) :
    (x + d * j - (x + d * i)).natAbs = ((j : Int) - i).natAbs := by
  obtain rfl | rfl := hd <;> omega

theorem offset_inj {d : Int} (hd : d = 1 ∨ d = -1) (x : Int) (i j : Nat) : x + d * i = x + d * j ↔ i = j := by
  obtain rfl | rfl := hd <;> omega

theorem linePoint_injective (p1 p2 : Point) : Function.Injective (linePoint p1 p2) := by
  obtain ⟨-, -, -, -, -, hsx, hsy⟩ := lineSetup_spec p1 p2
  intro i j h
  unfold linePoint at h
  split at h
  · exact (offset_inj hsx _ i j).1 (congrArg Prod.fst h)
  · exact (offset_inj hsy _ i j).1 (congrArg Prod.snd h)

/-- A step is diagonal where the rounded number of minor steps grows. -/
theorem linePoint_diagonal_iff (p1 p2 : Point) (k : Nat) :
    ((linePoint p1 p2 k).1 ≠ (linePoint p1 p2 (k + 1)).1 ∧ (linePoint p1 p2 k).2 ≠ (linePoint p1 p2 (k + 1)).2) ↔
      minorSteps p1 p2 k ≠ minorSteps p1 p2 (k + 1) := by
  obtain ⟨-, -, -, -, -, hsx, hsy⟩ := lineSetup_spec p1 p2
  unfold linePoint
  split <;> simp only [ne_eq, offset_inj hsx, offset_inj hsy, Nat.left_eq_add, one_ne_zero, not_false_eq_true,
    true_and, and_true]

/-- Settles O42: the walk is the image of `0 … delta_max` under an injective closed form, whose steps go one along
the major axis and, as the rounded number of minor steps grows by at most one, at most one along the other. -/
theorem lineWalkShape : Obligations.LineWalkShape := by
  intro p1 p2
  refine ⟨length_linePixels p1 p2, rfl, ?_, ?_, fun k hk => ?_⟩
  · rw [linePixels_eq_map, List.range_succ, List.map_append, List.map_singleton, List.getLast?_concat,
      linePoint_majorLength]
  · rw [linePixels_eq_map]
    exact List.nodup_range.map (linePoint_injective p1 p2)
  · obtain ⟨-, -, -, -, -, hsx, hsy⟩ := lineSetup_spec p1 p2
    have hlow := minorSteps_le_succ p1 p2 k
    have hhigh := minorSteps_succ_le p1 p2 k
    have hk' : k < majorLength p1 p2 := hk
    rw [getD_linePixels_eq hk'.le, getD_linePixels_eq (k := k + 1) hk']
    refine ⟨fun h => ?_, fun h => ?_⟩
    · rw [linePoint, linePoint, if_pos h, if_pos h, natAbs_offset_sub hsx, natAbs_offset_sub hsy]
      omega
    · rw [linePoint, linePoint, if_neg (by omega), if_neg (by omega), natAbs_offset_sub hsx, natAbs_offset_sub hsy]
      omega

/-- Settles O43: the closed form, and the diagonal steps as the changes of the rounded number of minor steps, which
grows from 0 to `delta_min`. -/
theorem lineWalkDiagonalSteps : Obligations.LineWalkDiagonalSteps := by
  intro p1 p2
  refine ⟨fun k hk => ?_, ?_⟩
  · rw [getD_linePixels_eq hk, ← lineSetup_sx, ← lineSetup_sy]
    exact ⟨fun h => if_pos h, fun h => if_neg (by omega)⟩
  · have hcount := length_filter_changes (minorSteps p1 p2) (minorSteps_le_succ p1 p2) (minorSteps_succ_le p1 p2)
      (majorLength p1 p2)
    rw [minorSteps_zero, minorSteps_majorLength] at hcount
    refine (congrArg List.length (List.filter_congr fun k hk => ?_)).trans hcount
    have hk' : k < majorLength p1 p2 := List.mem_range.1 hk
    rw [getD_linePixels_eq hk'.le, getD_linePixels_eq (k := k + 1) hk']
    exact decide_eq_decide.2 (linePoint_diagonal_iff p1 p2 k)

end Sys2Proof.Machine
end

section
/-! PROOFS. The edges of a polygon (42_polygon.md R164 to R172): an edge's step for every input, its pixel on every
row, and the advance loop, which takes no more rounds than the walker is moves away from the other one's vertex. -/

namespace Sys2Proof.Machine

/-! ## The edge step (R165) -/

/-- The wrapping 16-bit cast as arithmetic (00_scope.md R7). -/
theorem int16_eq (v : Int) : int16 v = (v + 32768) % 65536 - 32768 := by
  simp only [int16, BitVec.toInt_ofInt, Int.bmod_def]
  norm_num
  split <;> omega

theorem toInt_wrap32_int16 (v : Int) : (wrap32 (int16 v * 256)).toInt = ((v + 32768) % 65536 - 32768) * 256 := by
  rw [int16_eq, toInt_wrap32 (by omega) (by omega)]

theorem toInt_wrap32_shl (q : Int) : (wrap32 (shl q 16)).toInt = ((q + 32768) % 65536 - 32768) * 65536 := by
  simp only [wrap32, shl, BitVec.toInt_ofInt, Int.bmod_def]
  norm_num
  split <;> omega

/-- The mask of the left form drops nothing that the 32 bits keep (90_conflicts.md C2). -/
theorem wrap32_shl_low16 (q : Int) : wrap32 (shl (low16 q) 16) = wrap32 (shl q 16) := by
  apply BitVec.eq_of_toInt_eq
  rw [toInt_wrap32_shl, toInt_wrap32_shl, low16]
  omega

/-- The test of the first form, by `dx`: the shift rounds down, so a negative `dx` leaves the form earlier. -/
theorem absInt_asr_lt_iff {dx dy : Int} (hdy : 0 < dy) :
    absInt (asr (dx * 256) 16) < dy ↔ -(256 * (dy - 1)) ≤ dx ∧ dx < 256 * dy := by
  simp only [absInt, asr]
  omega

theorem calcStep_of_not_descends {dx dy : Int} (h : dy ≤ 0) (side : Side) : calcStep dx dy side = 0#32 :=
  if_pos h

/-- Below 256 pixels a row the step is the 8.8 quotient, wrapped to 16 bits (90_conflicts.md C3). -/
theorem calcStep_of_shallow {dx dy : Int} (hdy : 0 < dy) (hlow : -(256 * (dy - 1)) ≤ dx) (hhigh : dx < 256 * dy)
    (side : Side) : calcStep dx dy side = wrap32 (int16 ((dx * 256).tdiv dy) * 256) := by
  rw [calcStep, if_neg (by omega)]
  exact if_pos ((absInt_asr_lt_iff hdy).2 ⟨hlow, hhigh⟩)

/-- From 256 pixels a row on the step is the whole quotient, on either side. -/
theorem calcStep_of_steep {dx dy : Int} (hdy : 0 < dy) (h : dx < -(256 * (dy - 1)) ∨ 256 * dy ≤ dx) (side : Side) :
    calcStep dx dy side = wrap32 (shl (dx.tdiv dy) 16) := by
  have htest : ¬absInt (asr (dx * 256) 16) < dy := by
    rw [absInt_asr_lt_iff hdy]
    omega
  have hq : tdiv (tdiv (dx * 256) 256) dy = dx.tdiv dy := by
    rw [tdiv, tdiv, Int.mul_tdiv_cancel _ (by decide)]
  simp only [calcStep, if_neg (show ¬dy ≤ 0 by omega), if_neg htest, hq]
  cases side
  · exact wrap32_shl_low16 _
  · rfl

theorem toInt_calcStep_of_shallow {dx dy : Int} (hdy : 0 < dy) (hlow : -(256 * (dy - 1)) ≤ dx)
    (hhigh : dx < 256 * dy) (side : Side) :
    (calcStep dx dy side).toInt = (((dx * 256).tdiv dy + 32768) % 65536 - 32768) * 256 := by
  rw [calcStep_of_shallow hdy hlow hhigh, toInt_wrap32_int16]

theorem toInt_calcStep_of_steep {dx dy : Int} (hdy : 0 < dy) (h : dx < -(256 * (dy - 1)) ∨ 256 * dy ≤ dx)
    (side : Side) : (calcStep dx dy side).toInt = ((dx.tdiv dy + 32768) % 65536 - 32768) * 65536 := by
  rw [calcStep_of_steep hdy h, toInt_wrap32_shl]

theorem calcStep_left_eq_right (dx dy : Int) : calcStep dx dy .left = calcStep dx dy .right := by
  obtain hdy | hdy := lt_or_ge 0 dy
  · by_cases h : -(256 * (dy - 1)) ≤ dx ∧ dx < 256 * dy
    · rw [calcStep_of_shallow hdy h.1 h.2, calcStep_of_shallow hdy h.1 h.2]
    · rw [calcStep_of_steep hdy (by omega), calcStep_of_steep hdy (by omega)]
  · rw [calcStep_of_not_descends hdy, calcStep_of_not_descends hdy]

/-- Under 128 pixels a row nothing wraps. On the one row of an edge whose negative `dx` leaves the first form, both
forms give the same step. -/
theorem toInt_calcStep_of_lt_128 {dx dy : Int} (hdy : 0 < dy) (h : dx.natAbs < 128 * dy) (side : Side) :
    (calcStep dx dy side).toInt = (dx * 256).tdiv dy * 256 := by
  by_cases hlow : -(256 * (dy - 1)) ≤ dx
  · have hfits : ((dx * 256).tdiv dy).natAbs < (32768 : Int) := natAbs_tdiv_lt hdy (by omega)
    rw [toInt_calcStep_of_shallow hdy hlow (by omega), Int.emod_eq_of_lt (by omega) (by omega)]
    ring
  · obtain rfl : dy = 1 := by omega
    rw [toInt_calcStep_of_steep hdy (by omega), Int.tdiv_one, Int.tdiv_one, Int.emod_eq_of_lt (by omega) (by omega)]
    ring

/-- Settles O50: the three forms by the range of `dx`, and where their quotients fit 16 bits. -/
theorem calcStepValues : Obligations.CalcStepValues := by
  intro dx dy
  refine ⟨calcStep_left_eq_right dx dy, fun side => ⟨fun h => calcStep_of_not_descends h side,
    fun hdy hlow hhigh => toInt_calcStep_of_shallow hdy hlow hhigh side,
    fun hdy h => toInt_calcStep_of_steep hdy h side, fun hdy h => toInt_calcStep_of_lt_128 hdy h side,
    fun hdy h hfits => ?_⟩⟩
  rw [toInt_calcStep_of_steep hdy (by omega), Int.emod_eq_of_lt (by omega) (by omega), add_sub_cancel_right]

/-! ## The advance loop (R169, R172) -/

/-- The advance loop goes on: the row has reached the edge's end, and the other walker heads elsewhere. -/
def Edge.Advances (e : Edge) (y : Int) (other : Nat) : Prop := y ≥ e.ey ∧ e.tip ≠ other

theorem advanceEdge_succ_of_advances {e : Edge} {y : Int} {other : Nat} (h : e.Advances y other) (side : Side)
    (vs : List XY) (n : Nat) :
    advanceEdge side vs y other (n + 1) e = advanceEdge side vs y other n (edgeFrom side vs e.tip) := if_pos h

theorem advanceEdge_of_not_advances {e : Edge} {y : Int} {other : Nat} (h : ¬e.Advances y other) (side : Side)
    (vs : List XY) (n : Nat) : advanceEdge side vs y other n e = e := by
  cases n with
  | zero => rfl
  | succ n => exact if_neg h

/-- An edge that advances has its end a move or more from the other walker's, and the next edge one move fewer. -/
theorem Edge.Advances.distance_edgeFrom {e : Edge} {y : Int} {other : Nat} (h : e.Advances y other) (side : Side)
    {vs : List XY} (htip : e.tip < vs.length) (ho : other < vs.length) :
    side.distance vs.length (edgeFrom side vs e.tip).tip other + 1 = side.distance vs.length e.tip other :=
  side.distance_move htip ho h.2

theorem edgeFrom_tip_lt (side : Side) {vs : List XY} {k : Nat} (h : k < vs.length) :
    (edgeFrom side vs k).tip < vs.length := side.move_lt h

/-- With as many rounds as moves lead to the other walker's vertex the loop's test is false at the end, and one
round more changes nothing. -/
theorem advanceEdge_of_distance_le (side : Side) {vs : List XY} (y : Int) {other n : Nat} {e : Edge}
    (htip : e.tip < vs.length) (ho : other < vs.length) (hn : side.distance vs.length e.tip other ≤ n) :
    ¬(advanceEdge side vs y other n e).Advances y other ∧
      advanceEdge side vs y other (n + 1) e = advanceEdge side vs y other n e := by
  induction n generalizing e with
  | zero =>
    have hstay : ¬e.Advances y other := fun h => by
      have := h.distance_edgeFrom side htip ho
      omega
    exact ⟨hstay, advanceEdge_of_not_advances hstay side vs 1⟩
  | succ n ih =>
    by_cases h : e.Advances y other
    · rw [advanceEdge_succ_of_advances h, advanceEdge_succ_of_advances h]
      have hmove := h.distance_edgeFrom side htip ho
      exact ih (edgeFrom_tip_lt side htip) (by omega)
    · rw [advanceEdge_of_not_advances h, advanceEdge_of_not_advances h]
      exact ⟨h, rfl⟩

/-- Settles O51: the other walker's vertex is fewer moves away than there are vertices. -/
theorem advanceLoopsRunToTheirEnd : Obligations.AdvanceLoopsRunToTheirEnd := by
  intro side vs y other n e htip ho hn
  have hdist := side.distance_lt other htip
  refine ⟨?_, ?_, (advanceEdge_of_distance_le side y htip ho hdist.le).1⟩
  · exact (advanceEdge_of_distance_le side y htip ho hdist.le).2.symm
  · induction n, hn using Nat.le_induction with
    | base => rfl
    | succ n hn ih => rw [(advanceEdge_of_distance_le side y htip ho (by omega)).2, ih]

/-! ## An edge on every row (R164, R166, R167, R170, R171) -/

theorem Side.move_eq (side : Side) {n k : Nat} (h : k < n) :
    side.move n k = if side = .left then (if k = 0 then n - 1 else k - 1) else if k + 1 = n then 0 else k + 1 := by
  cases side with
  | left =>
    simp only [Side.move, if_true]
    split
    next h0 => rw [h0, Nat.zero_add, Nat.mod_eq_of_lt (by omega)]
    next h0 => rw [show k + n - 1 = k - 1 + n by omega, Nat.add_mod_right, Nat.mod_eq_of_lt (by omega)]
  | right =>
    simp only [Side.move, reduceCtorEq, if_false]
    split
    next h1 => rw [h1, Nat.mod_self]
    next h1 => exact Nat.mod_eq_of_lt (by omega)

/-- An edge between vertices, its start pre-advanced, `j` rows later. -/
theorem next_iterate_preAdvance_edgeFrom (side : Side) (vs : List XY) (k : Nat) (ymin : Int) (j : Nat) :
    Edge.next^[j] ((edgeFrom side vs k).preAdvance ymin) =
      { edgeFrom side vs k with
        x := wrap32 (vertexX vs k * 65536 +
          (j + if ymin < 0 then -ymin else 0) * (edgeFrom side vs k).step.toInt) } := by
  have hx : (edgeFrom side vs k).x = wrap32 (vertexX vs k * 65536) := rfl
  rw [Edge.next_iterate, Edge.preAdvance_eq]
  simp only [hx, wrap32_add]
  congr 2
  rw [add_assoc, ← add_mul, add_comm (j : Int)]
  rfl

theorem pixel_of_wrap32 {e : Edge} {v : Int} (h : e.x = wrap32 v) :
    e.pixel = (BitVec.ofInt 32 (v + 32768)).toInt / 65536 := by
  rw [Edge.pixel, h, wrap32_add]
  rfl

theorem pixel_next_iterate_preAdvance (side : Side) (vs : List XY) (k : Nat) (ymin : Int) (j : Nat) :
    (Edge.next^[j] ((edgeFrom side vs k).preAdvance ymin)).pixel =
      (BitVec.ofInt 32 (vertexX vs k * 65536 +
        (j + if ymin < 0 then -ymin else 0) * (edgeFrom side vs k).step.toInt + 32768)).toInt / 65536 := by
  rw [next_iterate_preAdvance_edgeFrom]
  exact pixel_of_wrap32 rfl

theorem vertexX_bounds (vs : List XY) (k : Nat) : -32768 ≤ vertexX vs k ∧ vertexX vs k < 32768 :=
  ⟨BitVec.le_toInt _, BitVec.toInt_lt⟩

/-- An edge starts at its vertex's pixel. -/
theorem edgeFrom_pixel (side : Side) (vs : List XY) (k : Nat) : (edgeFrom side vs k).pixel = vertexX vs k := by
  have hx := vertexX_bounds vs k
  rw [pixel_of_wrap32 (e := edgeFrom side vs k) rfl, ← wrap32, shl, toInt_wrap32 (by omega) (by omega)]
  omega

/-- Settles O52: the closed form of an edge's x, and its vertices' places in the list. -/
theorem edgesStartAtTheirVertex : Obligations.EdgesStartAtTheirVertex := by
  intro side vs k hk
  refine ⟨?_, fun ymin j => ?_⟩
  · rw [← side.move_eq hk]
    exact ⟨rfl, rfl, edgeFrom_pixel side vs k, rfl⟩
  · have hpixel := pixel_next_iterate_preAdvance side vs k ymin j
    refine ⟨?_, ?_, ?_, hpixel, fun hlow hhigh => hpixel.trans ?_⟩
    · rw [next_iterate_preAdvance_edgeFrom]
    · rw [next_iterate_preAdvance_edgeFrom]
    · rw [next_iterate_preAdvance_edgeFrom]
    · exact congrArg (· / 65536) (toInt_wrap32 hlow hhigh)

end Sys2Proof.Machine
end

section
/-! PROOFS. POLY and OUTLINE as commands (42_polygon.md R160 to R163, R174): small polygons, outlines, and what a
polygon paints by its bounding box. -/

namespace Sys2Proof.Machine

/-! ## Small polygons (R161) -/

theorem minorSteps_of_minorLength_eq_zero {p1 p2 : Point} (h : minorLength p1 p2 = 0) (k : Nat) :
    minorSteps p1 p2 k = 0 := by
  rw [minorSteps, h]
  obtain hM | hM := Nat.eq_zero_or_pos (majorLength p1 p2)
  · rw [hM, Nat.mul_zero, Nat.div_zero]
  · exact Nat.div_eq_of_lt (by omega)

/-- A line between two points of a row, from left to right, is the row from the one to the other (R144). -/
theorem mem_linePixels_of_row {x0 x1 y : Int} (h : x0 ≤ x1) (q : Point) :
    q ∈ linePixels (x0, y) (x1, y) ↔ q.2 = y ∧ x0 ≤ q.1 ∧ q.1 ≤ x1 := by
  have hmajor : majorLength (x0, y) (x1, y) = (x1 - x0).natAbs := by simp [majorLength]
  have hminor : minorLength (x0, y) (x1, y) = 0 := by simp [minorLength]
  have hpoint : ∀ k, linePoint (x0, y) (x1, y) k = (x0 + k, y) := fun k => by
    simp [linePoint, minorSteps_of_minorLength_eq_zero hminor, lineSetup_sx, not_lt.2 h]
  simp only [linePixels_eq_map, hmajor, hpoint, List.mem_map, List.mem_range]
  constructor
  · rintro ⟨k, hk, rfl⟩
    refine ⟨rfl, ?_, ?_⟩ <;> simp only <;> omega
  · rintro ⟨hy, hlow, hhigh⟩
    exact ⟨(q.1 - x0).toNat, by omega, Prod.ext (by simp only; omega) hy.symm⟩

/-- POLY and POLY.A with one or two vertices plot points opaquely. -/
theorem paints_of_drawPoly_opaque {rsv : BitVec 3} {rgb : Rgb} {cnt : Cnt} {vs : List XY} {s : State}
    (hlegal : cnt.legal = true) (ps : List Point)
    (hdraw : ∀ a, drawPoly s.canvas rgb a vs s.fb = plotAll s.canvas rgb false ps s.fb) :
    Paints (.poly rsv rgb cnt vs) (2 + cnt.n.toNat) s (· ∈ ps) (opaquePixel rgb) ∧
      Paints (.polyA rsv rgb cnt vs) (2 + cnt.n.toNat) s (· ∈ ps) (opaquePixel rgb) :=
  ⟨paints_of_plotAll_opaque ps (exec_poly_legal rsv rgb cnt vs s hlegal) (hdraw false) fun _ _ _ => Iff.rfl,
    paints_of_plotAll_opaque ps (exec_polyA_legal rsv rgb cnt vs s hlegal) (hdraw true) fun _ _ _ => Iff.rfl⟩

/-- Settles O44: one vertex plots a list of one point and two plot a line, which is a row for a horizontal pair. -/
theorem smallPolygons : Obligations.SmallPolygons := by
  intro rsv rgb cnt v0 v1 s point line
  have hline : cnt.n.toNat = 2 → Paints (.poly rsv rgb cnt [v0, v1]) 4 s line (opaquePixel rgb) ∧
      Paints (.polyA rsv rgb cnt [v0, v1]) 4 s line (opaquePixel rgb) := fun hn => by
    have hpaints := paints_of_drawPoly_opaque (rsv := rsv) (rgb := rgb) (s := s) (vs := [v0, v1])
      ((Cnt.legal_iff cnt).2 (by omega)) (linePixels (pointOf v0) (pointOf v1)) fun _ => rfl
    rwa [hn] at hpaints
  refine ⟨fun hn => ?_, hline, fun hn hy hx => (hline hn).1.congr fun q => ?_⟩
  · obtain ⟨hpoly, hpolyA⟩ := paints_of_drawPoly_opaque (rsv := rsv) (rgb := rgb) (s := s) (vs := [v0])
      ((Cnt.legal_iff cnt).2 (by omega)) [pointOf v0] fun _ => rfl
    rw [hn] at hpoly hpolyA
    exact ⟨hpoly.congr fun _ => List.mem_singleton, hpolyA.congr fun _ => List.mem_singleton⟩
  · simp only [line, ← hy]
    exact mem_linePixels_of_row hx q

/-! ## Outlines (R174) -/

/-- Settles O53: OUTLINE plots the lines of its vertices one after another, opaquely. -/
theorem outlinePaintsItsEdges : Obligations.OutlinePaintsItsEdges := by
  intro a rsv rgb cnt vs s hlen hlow hhigh
  refine paints_of_plotAll_opaque (outlinePixels vs)
    (exec_outline_legal a rsv rgb cnt vs s ((Cnt.legal_iff cnt).2 ⟨hlow, hhigh⟩)) rfl fun _ q _ => ?_
  simp only [outlinePixels, List.mem_flatMap, List.mem_range, hlen]
  rfl

/-! ## Bounding boxes (R162) -/

section BoundingBox

variable {vs : List XY}

theorem minOver_vertices (hne : vs ≠ []) {f : Nat → Int} {g : XY → Int}
    (hf : ∀ k (h : k < vs.length), f k = g vs[k]) :
    (∀ v ∈ vs, minOver vs.length f ≤ g v) ∧ ∃ v ∈ vs, minOver vs.length f = g v := by
  obtain ⟨hle, k, hk, heq⟩ := minOver_spec (List.length_pos_iff.2 hne) f
  refine ⟨fun v hv => ?_, vs[k], List.getElem_mem hk, heq.trans (hf k hk)⟩
  obtain ⟨j, hj, rfl⟩ := List.getElem_of_mem hv
  exact hf j hj ▸ hle j hj

theorem maxOver_vertices (hne : vs ≠ []) {f : Nat → Int} {g : XY → Int}
    (hf : ∀ k (h : k < vs.length), f k = g vs[k]) :
    (∀ v ∈ vs, g v ≤ maxOver vs.length f) ∧ ∃ v ∈ vs, maxOver vs.length f = g v := by
  obtain ⟨hle, k, hk, heq⟩ := maxOver_spec (List.length_pos_iff.2 hne) f
  refine ⟨fun v hv => ?_, vs[k], List.getElem_mem hk, heq.trans (hf k hk)⟩
  obtain ⟨j, hj, rfl⟩ := List.getElem_of_mem hv
  exact hf j hj ▸ hle j hj

theorem polyXmin_spec (hne : vs ≠ []) :
    (∀ v ∈ vs, polyXmin vs ≤ v.x.toInt) ∧ ∃ v ∈ vs, polyXmin vs = v.x.toInt :=
  minOver_vertices hne (g := fun v => v.x.toInt) fun _ h => vertexX_eq vs h

theorem polyXmax_spec (hne : vs ≠ []) :
    (∀ v ∈ vs, v.x.toInt ≤ polyXmax vs) ∧ ∃ v ∈ vs, polyXmax vs = v.x.toInt :=
  maxOver_vertices hne (g := fun v => v.x.toInt) fun _ h => vertexX_eq vs h

theorem polyYmin_spec (hne : vs ≠ []) :
    (∀ v ∈ vs, polyYmin vs ≤ v.y.toInt) ∧ ∃ v ∈ vs, polyYmin vs = v.y.toInt :=
  minOver_vertices hne (g := fun v => v.y.toInt) fun _ h => vertexY_eq vs h

theorem polyYmax_spec (hne : vs ≠ []) :
    (∀ v ∈ vs, v.y.toInt ≤ polyYmax vs) ∧ ∃ v ∈ vs, polyYmax vs = v.y.toInt :=
  maxOver_vertices hne (g := fun v => v.y.toInt) fun _ h => vertexY_eq vs h

theorem polyRejected_iff (clip : Clip) (vs : List XY) : polyRejected clip vs = true ↔
    polyXmax vs < 0 ∨ polyXmin vs > clip.width - 1 ∨ polyYmax vs < 0 ∨ polyYmin vs > clip.height - 1 :=
  decide_eq_true_iff

/-- A polygon whose bounding box holds a point of the rectangle is not rejected. -/
theorem not_polyRejected_of_inside {s : State} {p : Point} (hin : s.insideClip p)
    (hx : polyXmin vs ≤ p.1 ∧ p.1 ≤ polyXmax vs) (hy : polyYmin vs ≤ p.2 ∧ p.2 ≤ polyYmax vs) :
    ¬polyRejected s.clip vs = true := by
  obtain ⟨hx0, hx1, hy0, hy1⟩ := hin
  have hw : s.clip.width = s.clip.crw.toNat := rfl
  have hh : s.clip.height = s.clip.crh.toNat := rfl
  rw [polyRejected_iff]
  omega

end BoundingBox

/-! ## The spans of ScanFill (R162, R163) -/

theorem scanSpans_of_rejected {clip : Clip} {vs : List XY} (h : polyRejected clip vs = true) :
    scanSpans clip vs = [] := if_pos h

theorem scanSpans_of_flat {clip : Clip} {vs : List XY} (h : ¬polyRejected clip vs = true)
    (hflat : polyYmin vs = polyYmax vs) : scanSpans clip vs = [⟨polyYmin vs, polyXmin vs, polyXmax vs⟩] :=
  (if_neg h).trans (if_pos hflat)

/-- POLY and POLY.A paint what the spans of ScanFill cover inside the rectangle, each pixel once. -/
theorem paints_of_scanSpans {rsv : BitVec 3} {rgb : Rgb} {cnt : Cnt} {vs : List XY} {s : State}
    {covered : Point → Prop} (hlen : vs.length = cnt.n.toNat) (hlow : 3 ≤ cnt.n.toNat) (hhigh : cnt.n.toNat ≤ 128)
    (hc : ∀ p, s.insideClip p → ((∃ sp ∈ scanSpans s.clip vs, sp.covers p) ↔ covered p)) :
    Paints (.poly rsv rgb cnt vs) (2 + cnt.n.toNat) s covered (opaquePixel rgb) ∧
      Paints (.polyA rsv rgb cnt vs) (2 + cnt.n.toNat) s covered (blendedPixel rgb) := by
  have hlegal : cnt.legal = true := (Cnt.legal_iff cnt).2 ⟨by omega, hhigh⟩
  have hrows := scanSpans_rows_nodup s.clip vs
  have hvisible : ∀ x p, targetOf s.clip x = some p →
      ((∃ sp ∈ scanSpans s.clip vs, sp.covers p) ↔ covered p) := fun x p hp => by
    obtain ⟨⟨hx0, hx1⟩, hy⟩ := targetOf_inside hp
    exact hc p ⟨hx0, hx1, hy⟩
  exact
    ⟨paints_of_clampSpans (bl := false) _ hrows (exec_poly_legal rsv rgb cnt vs s hlegal)
        (drawPoly_scan (by omega)) hvisible,
      paints_of_clampSpans (bl := true) _ hrows (exec_polyA_legal rsv rgb cnt vs s hlegal)
        (drawPoly_scan (by omega)) hvisible⟩

/-- Settles O45: each row has one span at most, and the clamp drops no point of the rectangle. -/
theorem polygonPaintsItsSpans : Obligations.PolygonPaintsItsSpans :=
  fun _ _ _ _ _ hlen hlow hhigh => paints_of_scanSpans hlen hlow hhigh fun _ _ => Iff.rfl

/-- A drawing that writes nothing retires its command and leaves the rest. -/
theorem paint_eq_of_fb_eq {s : State} {words : Nat} {f : Canvas → Memory → Memory} (h : f s.canvas s.fb = s.fb) :
    s.paint words f = { s with latch := [], cmdPos := s.cmdPos + words } := by
  simp only [State.paint, h, State.retire]

/-- Settles O46: the extreme vertices lie on the same side of the rectangle, so the polygon is rejected. -/
theorem polygonOutsideTheClipPaintsNothing : Obligations.PolygonOutsideTheClipPaintsNothing := by
  intro rsv rgb cnt vs s hlen hlow hhigh hout
  have hne : vs ≠ [] := List.ne_nil_of_length_pos (by omega)
  have hrejected : polyRejected s.clip vs = true := by
    obtain ⟨-, l, hl, hxmin⟩ := polyXmin_spec hne
    obtain ⟨-, r, hr, hxmax⟩ := polyXmax_spec hne
    obtain ⟨-, t, ht, hymin⟩ := polyYmin_spec hne
    obtain ⟨-, b, hb, hymax⟩ := polyYmax_spec hne
    rw [polyRejected_iff, hxmin, hxmax, hymin, hymax]
    exact hout.imp (fun h => h r hr) (Or.imp (fun h => h l hl) (Or.imp (fun h => h b hb) fun h => h t ht))
  have hlegal : cnt.legal = true := (Cnt.legal_iff cnt).2 ⟨by omega, hhigh⟩
  have hnothing : ∀ a, drawPoly s.canvas rgb a vs s.fb = s.fb := fun a => by
    rw [drawPoly_scan (by omega), canvas_clip, scanSpans_of_rejected hrejected]
    rfl
  rw [exec_poly_legal rsv rgb cnt vs s hlegal, exec_polyA_legal rsv rgb cnt vs s hlegal,
    paint_eq_of_fb_eq (hnothing false), paint_eq_of_fb_eq (hnothing true)]
  exact ⟨rfl, rfl⟩

/-- Settles O47: a flat polygon has one span, its bounding box, and no point of the rectangle lies in the box of a
rejected one. -/
theorem flatPolygonFillsItsRow : Obligations.FlatPolygonFillsItsRow := by
  intro rsv rgb cnt vs y s hlen hlow hhigh hflat
  refine paints_of_scanSpans hlen hlow hhigh fun p hin => ?_
  have hne : vs ≠ [] := List.ne_nil_of_length_pos (by omega)
  obtain ⟨hxmin, l, hl, hleft⟩ := polyXmin_spec hne
  obtain ⟨hxmax, r, hr, hright⟩ := polyXmax_spec hne
  have hymin : polyYmin vs = y.toInt := by
    obtain ⟨-, v, hv, h⟩ := polyYmin_spec hne
    rw [h, hflat v hv]
  have hymax : polyYmax vs = y.toInt := by
    obtain ⟨-, v, hv, h⟩ := polyYmax_spec hne
    rw [h, hflat v hv]
  have hbox : (p.2 = y.toInt ∧ (∃ v ∈ vs, v.x.toInt ≤ p.1) ∧ ∃ v ∈ vs, p.1 ≤ v.x.toInt) ↔
      p.2 = polyYmin vs ∧ polyXmin vs ≤ p.1 ∧ p.1 ≤ polyXmax vs := by
    rw [hymin]
    refine and_congr_right fun _ => and_congr ?_ ?_
    · exact ⟨fun ⟨v, hv, h⟩ => (hxmin v hv).trans h, fun h => ⟨l, hl, hleft ▸ h⟩⟩
    · exact ⟨fun ⟨v, hv, h⟩ => h.trans (hxmax v hv), fun h => ⟨r, hr, hright ▸ h⟩⟩
  rw [hbox]
  by_cases hrejected : polyRejected s.clip vs = true
  · rw [scanSpans_of_rejected hrejected]
    refine iff_of_false (by simp) fun ⟨hy, hx⟩ => ?_
    exact not_polyRejected_of_inside hin hx (by omega) hrejected
  · rw [scanSpans_of_flat hrejected (hymin.trans hymax.symm)]
    simp [Span.covers]

end Sys2Proof.Machine
end

section
/-! PROOFS. The rows of a polygon (42_polygon.md R164 to R171): which rows are walked, the two edges in use on each,
and the upright rectangle, whose edges stand at its left and its right column on every row. -/

namespace Sys2Proof.Machine

/-! ## The rows walked (R168) -/

/-- The first row walked. -/
def firstRow (vs : List XY) : Int := max 0 (polyYmin vs)

/-- The number of rows walked, negative only where the polygon is rejected. -/
def rowCount (clip : Clip) (vs : List XY) : Int := min (clip.height - 1) (polyYmax vs) - firstRow vs + 1

theorem scanSpans_of_walked {clip : Clip} {vs : List XY} (h : ¬polyRejected clip vs = true)
    (hflat : polyYmin vs ≠ polyYmax vs) :
    scanSpans clip vs = walkRows vs (rowCount clip vs).toNat (firstRow vs)
      ((edgeFrom .left vs (topVertex vs)).preAdvance (polyYmin vs))
      ((edgeFrom .right vs (topVertex vs)).preAdvance (polyYmin vs)) :=
  (if_neg h).trans (if_neg hflat)

@[simp] theorem length_walkRows (vs : List XY) (n : Nat) (y : Int) (eL eR : Edge) :
    (walkRows vs n y eL eR).length = n := by
  have h := congrArg List.length (walkRows_rows vs n y eL eR)
  rwa [List.length_map, List.length_map, List.length_range] at h

theorem polyYmin_le_polyYmax {vs : List XY} (hne : vs ≠ []) : polyYmin vs ≤ polyYmax vs := by
  obtain ⟨hmin, -⟩ := polyYmin_spec hne
  obtain ⟨-, v, hv, hmax⟩ := polyYmax_spec hne
  exact hmax ▸ hmin v hv

/-- A polygon that is not rejected has rows to walk, or the rectangle has none. -/
theorem rowCount_nonneg {clip : Clip} {vs : List XY} (hne : vs ≠ []) (h : ¬polyRejected clip vs = true) :
    0 ≤ rowCount clip vs := by
  have hle := polyYmin_le_polyYmax hne
  have hheight : 0 ≤ clip.height := Int.natCast_nonneg _
  rw [polyRejected_iff] at h
  unfold rowCount firstRow
  omega

/-! ## The edges in use (R169) -/

/-- Above the ends of both edges neither advances. -/
theorem edgesOn_of_above {vs : List XY} {y : Int} {eL eR : Edge} (j : Nat) (hL : y + (j : Int) < eL.ey)
    (hR : y + (j : Int) < eR.ey) : edgesOn vs y eL eR j = (Edge.next^[j] eL, Edge.next^[j] eR) := by
  have hey : ∀ (e : Edge) (i : Nat), (Edge.next^[i] e).ey = e.ey := fun e i => by rw [Edge.next_iterate]
  have hstay : ∀ {e : Edge} {i : Nat}, y + (i : Int) < e.ey → ∀ side other,
      advanceEdge side vs (y + (i : Int)) other vs.length (Edge.next^[i] e) = Edge.next^[i] e :=
    fun {e i} h side other => advanceEdge_of_lt (by rwa [hey e i]) side vs other _
  induction j with
  | zero =>
    have hl := hstay hL .left eR.tip
    have hr := hstay hR .right eL.tip
    simp only [Nat.cast_zero, add_zero, Function.iterate_zero, id] at hl hr ⊢
    simp only [edgesOn, hl, hr]
  | succ j ih =>
    have hl := hstay hL .left
    have hr := hstay hR .right
    rw [Function.iterate_succ_apply'] at hl hr
    rw [edgesOn, ih (by omega) (by omega), Function.iterate_succ_apply', Function.iterate_succ_apply']
    simp only [hl, hr]

/-- The edges in use on the row `j` rows after the first. -/
def polyEdges (vs : List XY) (j : Nat) : Edge × Edge :=
  edgesOn vs (firstRow vs) ((edgeFrom .left vs (topVertex vs)).preAdvance (polyYmin vs))
    ((edgeFrom .right vs (topVertex vs)).preAdvance (polyYmin vs)) j

/-- The span of the row `j` rows after the first (R170). -/
def polyRow (vs : List XY) (j : Nat) : Span :=
  rowSpan (firstRow vs + (j : Int)) (polyEdges vs j).1 (polyEdges vs j).2

theorem polyRow_eq (vs : List XY) (j : Nat) : polyRow vs j = ⟨firstRow vs + (j : Int),
    min (polyEdges vs j).1.pixel (polyEdges vs j).2.pixel, max (polyEdges vs j).1.pixel (polyEdges vs j).2.pixel⟩ :=
  rowSpan_eq _ _ _

/-- ScanFill's spans, each between the edges in use on its row (R170). -/
theorem scanSpans_eq_map {clip : Clip} {vs : List XY} (h : ¬polyRejected clip vs = true)
    (hflat : polyYmin vs ≠ polyYmax vs) :
    scanSpans clip vs = (List.range (rowCount clip vs).toNat).map (polyRow vs) := by
  rw [scanSpans_of_walked h hflat]
  refine List.ext_getElem (by simp) fun j hj _ => ?_
  rw [← List.getD_eq_getElem _ ⟨0, 0, 0⟩ hj, getD_walkRows vs _ _ _ (by rwa [length_walkRows] at hj),
    List.getElem_map, List.getElem_range]
  rfl

/-- Above the ends of the initial edges a row's edges are the initial ones with one step for every row above it, so
their pixels are those of O52. -/
theorem polyEdges_of_above {vs : List XY} {j : Nat}
    (hL : firstRow vs + (j : Int) < (edgeFrom .left vs (topVertex vs)).ey)
    (hR : firstRow vs + (j : Int) < (edgeFrom .right vs (topVertex vs)).ey) :
    polyEdges vs j = (Edge.next^[j] ((edgeFrom .left vs (topVertex vs)).preAdvance (polyYmin vs)),
      Edge.next^[j] ((edgeFrom .right vs (topVertex vs)).preAdvance (polyYmin vs))) :=
  edgesOn_of_above j (by rwa [Edge.preAdvance_ey]) (by rwa [Edge.preAdvance_ey])

/-- Settles O49: the walk's own edges are the ones in use on each row, and above their ends they have only taken
steps. -/
theorem polygonRowsAreWalkedInOrder : Obligations.PolygonRowsAreWalkedInOrder := by
  intro clip vs hne hrejected hflat
  have hpos : 0 < vs.length := List.length_pos_iff.2 hne
  have hrej : ¬polyRejected clip vs = true := Bool.not_eq_true _ ▸ hrejected
  obtain ⟨hmin, -⟩ := minOver_spec hpos (vertexY vs)
  obtain ⟨hmax, hbottom⟩ := maxOver_spec hpos (vertexY vs)
  obtain ⟨ht, htop, hfirst⟩ := topVertex_spec hpos
  rw [scanSpans_eq_map hrej hflat, List.length_map, List.length_range]
  have hspan : ∀ {j}, j < (rowCount clip vs).toNat →
      ((List.range (rowCount clip vs).toNat).map (polyRow vs)).getD j ⟨0, 0, 0⟩ = polyRow vs j := fun hj => by
    simp [hj]
  refine ⟨?_, ?_, fun k hk => ⟨hmin k hk, hmax k hk⟩, hbottom, topVertex vs, ht, htop.symm,
    fun k hk => lt_of_le_of_ne (hmin k (hk.trans ht)) (hfirst k hk).symm, fun j hj hL hR => ?_,
    fun j => (polyEdges vs j).1, fun j => (polyEdges vs j).2, ?_, ?_,
    fun j => ⟨rfl, rfl, fun hj => (hspan hj).trans (polyRow_eq vs j)⟩⟩
  · rw [List.map_map]
    exact List.map_congr_left fun j _ => rowSpan_y _ _ _
  · exact Int.toNat_of_nonneg (rowCount_nonneg hne hrej)
  · have hrows : (j + if polyYmin vs < 0 then -polyYmin vs else 0 : Int) =
        max 0 (polyYmin vs) + (j : Int) - polyYmin vs := by
      split <;> omega
    rw [hspan hj, polyRow_eq, polyEdges_of_above hL hR]
    simp only [pixel_next_iterate_preAdvance, hrows]
    rfl
  · simp only [polyEdges, edgesOn, Edge.preAdvance_tip, firstRow, Nat.cast_zero, add_zero]
  · simp only [polyEdges, edgesOn, Edge.preAdvance_tip, firstRow, Nat.cast_zero, add_zero]

/-! ## Upright edges -/

/-- An edge that stands upright at column `x` and heads to vertex `tip`, on row `ey`. -/
structure Edge.Stands (e : Edge) (x : Int) (tip : Nat) (ey : Int) : Prop where
  upright : e.UprightAt x
  tip_eq : e.tip = tip
  ey_eq : e.ey = ey

namespace Edge.Stands

variable {e : Edge} {x ey : Int} {tip : Nat}

theorem next (h : e.Stands x tip ey) : e.next.Stands x tip ey := ⟨h.upright.next, h.tip_eq, h.ey_eq⟩

theorem preAdvance (h : e.Stands x tip ey) (ymin : Int) : (e.preAdvance ymin).Stands x tip ey :=
  ⟨h.upright.preAdvance ymin, (e.preAdvance_tip ymin).trans h.tip_eq, (e.preAdvance_ey ymin).trans h.ey_eq⟩

/-- An edge between vertices stands upright where it keeps its column or does not descend. -/
theorem of_edgeFrom {side : Side} {vs : List XY} {k : Nat} (hmove : side.move vs.length k = tip)
    (h : vertexX vs tip = vertexX vs k ∨ vertexY vs tip ≤ vertexY vs k) :
    (edgeFrom side vs k).Stands (vertexX vs k) tip (vertexY vs tip) := by
  rw [edgeFrom_eq hmove]
  refine ⟨⟨rfl, ?_⟩, rfl, rfl⟩
  obtain hx | hy := h
  · rw [hx, sub_self, calcStep_upright]
  · exact calcStep_of_not_descends (by omega) side

/-- An edge whose end the row has not reached, or to whose end the other walker heads, stays. -/
theorem advanceEdge_eq (h : e.Stands x tip ey) {y : Int} {other : Nat} (hstay : y < ey ∨ tip = other) (side : Side)
    (vs : List XY) : advanceEdge side vs y other vs.length e = e := by
  refine advanceEdge_of_not_advances (fun ⟨hend, htip⟩ => ?_) side vs vs.length
  rw [h.ey_eq] at hend
  rw [h.tip_eq] at htip
  omega

/-- An edge whose end the row has reached, while the other walker heads elsewhere, is left for the next one (R169). -/
theorem advanceEdge_edgeFrom (h : e.Stands x tip ey) {y : Int} {other : Nat} (hend : ey ≤ y) (hne : tip ≠ other)
    (side : Side) {vs : List XY} (htip : tip < vs.length) (ho : other < vs.length) :
    advanceEdge side vs y other vs.length e = advanceEdge side vs y other vs.length (edgeFrom side vs tip) := by
  obtain ⟨-, rfl, rfl⟩ := h
  exact (advanceLoopsRunToTheirEnd side vs y other vs.length e htip ho le_rfl).1.trans (if_pos ⟨hend, hne⟩)

end Edge.Stands

/-- A row between two upright edges, in either order. -/
theorem rowSpan_of_upright {eL eR : Edge} {xL xR : Int} (hL : eL.UprightAt xL) (hR : eR.UprightAt xR)
    (hxL : -32768 ≤ xL ∧ xL < 32768) (hxR : -32768 ≤ xR ∧ xR < 32768) (y : Int) :
    rowSpan y eL eR = ⟨y, min xL xR, max xL xR⟩ := by
  rw [rowSpan_eq, hL.pixel hxL.1 hxL.2, hR.pixel hxR.1 hxR.2]

/-! ## The upright rectangle -/

/-- The vertices of an upright rectangle, clockwise from its top left corner. -/
def rectangle (x0 y0 x1 y1 : Half) : List XY := [⟨x0, y0⟩, ⟨x1, y0⟩, ⟨x1, y1⟩, ⟨x0, y1⟩]

section Rectangle

variable {x0 y0 x1 y1 : Half}

/-- The bounding box of an upright rectangle. -/
theorem rectangle_box (hx : x0.toInt ≤ x1.toInt) (hy : y0.toInt ≤ y1.toInt) :
    polyXmin (rectangle x0 y0 x1 y1) = x0.toInt ∧ polyXmax (rectangle x0 y0 x1 y1) = x1.toInt ∧
      polyYmin (rectangle x0 y0 x1 y1) = y0.toInt ∧ polyYmax (rectangle x0 y0 x1 y1) = y1.toInt := by
  simp [polyXmin, polyXmax, polyYmin, polyYmax, minOver, maxOver, List.range_succ, vertexX, vertexY, rectangle, sext16,
    hx, hy]

theorem topVertex_rectangle (hy : y0.toInt ≤ y1.toInt) : topVertex (rectangle x0 y0 x1 y1) = 0 := by
  have hymin : polyYmin (rectangle x0 y0 x1 y1) = y0.toInt := by
    simp [polyYmin, minOver, List.range_succ, vertexY, rectangle, sext16, hy]
  obtain ⟨-, -, hfirst⟩ := topVertex_spec (vs := rectangle x0 y0 x1 y1) (show 0 < 4 by decide)
  by_contra h
  exact hfirst 0 (Nat.pos_of_ne_zero h) hymin.symm

section Edges

variable (x0 y0 x1 y1)

theorem rectangle_leftSide : (edgeFrom .left (rectangle x0 y0 x1 y1) 0).Stands x0.toInt 3 y1.toInt :=
  .of_edgeFrom (show Side.move 4 0 .left = 3 from rfl) (.inl rfl)

/-- The bottom edge does not descend. -/
theorem rectangle_bottom : (edgeFrom .left (rectangle x0 y0 x1 y1) 3).Stands x0.toInt 2 y1.toInt :=
  .of_edgeFrom (show Side.move 4 3 .left = 2 from rfl) (.inr le_rfl)

theorem rectangle_rightSide : (edgeFrom .right (rectangle x0 y0 x1 y1) 1).Stands x1.toInt 2 y1.toInt :=
  .of_edgeFrom (show Side.move 4 1 .right = 2 from rfl) (.inl rfl)

/-- The right side from its lower end, which the left walker takes where it has passed the bottom edge at once. -/
theorem rectangle_rightSide_upward : (edgeFrom .left (rectangle x0 y0 x1 y1) 2).Stands x1.toInt 1 y0.toInt :=
  .of_edgeFrom (show Side.move 4 2 .left = 1 from rfl) (.inl rfl)

/-- The top edge does not descend. -/
theorem rectangle_top : (edgeFrom .right (rectangle x0 y0 x1 y1) 0).Stands x0.toInt 1 y0.toInt :=
  .of_edgeFrom (show Side.move 4 0 .right = 1 from rfl) (.inr le_rfl)

end Edges

section Rows

variable {eL eR : Edge} {y : Int} {j : Nat}

theorem advanceEdge_rectangle {e : Edge} {x ey : Int} {tip : Nat} (h : e.Stands x tip ey) (side : Side) (other : Nat)
    (hend : ey ≤ y) (hvertices : tip ≠ other ∧ tip < 4 ∧ other < 4) :
    advanceEdge side (rectangle x0 y0 x1 y1) y other (rectangle x0 y0 x1 y1).length e =
      advanceEdge side (rectangle x0 y0 x1 y1) y other (rectangle x0 y0 x1 y1).length
        (edgeFrom side (rectangle x0 y0 x1 y1) tip) :=
  h.advanceEdge_edgeFrom hend hvertices.1 side hvertices.2.1 hvertices.2.2

/-- On every row above the last the edges in use are the left and the right side. -/
theorem edgesOn_rectangle_of_above (hL : eL.Stands x0.toInt 3 y1.toInt) (hR : eR.Stands x0.toInt 1 y0.toInt)
    (hy : y0.toInt ≤ y) (hj : y + (j : Int) < y1.toInt) :
    (edgesOn (rectangle x0 y0 x1 y1) y eL eR j).1.Stands x0.toInt 3 y1.toInt ∧
      (edgesOn (rectangle x0 y0 x1 y1) y eL eR j).2.Stands x1.toInt 2 y1.toInt := by
  have hright := rectangle_rightSide x0 y0 x1 y1
  induction j with
  | zero =>
    have hy1 : y < y1.toInt := by omega
    simp only [edgesOn]
    rw [hL.advanceEdge_eq (.inl hy1), hL.tip_eq, advanceEdge_rectangle hR .right 3 hy (by decide),
      hright.advanceEdge_eq (.inl hy1)]
    exact ⟨hL, hright⟩
  | succ j ih =>
    obtain ⟨hl, hr⟩ := ih (by omega)
    simp only [edgesOn]
    rw [hl.next.advanceEdge_eq (.inl hj), hr.next.advanceEdge_eq (.inl hj)]
    exact ⟨hl.next, hr.next⟩

/-- On the last row the left walker passes over the bottom edge's start. Where the last row is the first one walked,
the right walker still heads along the top edge, so the left one goes on to the right side's column. -/
theorem edgesOn_rectangle_last (hL : eL.Stands x0.toInt 3 y1.toInt) (hR : eR.Stands x0.toInt 1 y0.toInt)
    (hy : y0.toInt ≤ y) (hj : y + (j : Int) = y1.toInt) :
    ((edgesOn (rectangle x0 y0 x1 y1) y eL eR j).1.UprightAt x0.toInt ∧
        (edgesOn (rectangle x0 y0 x1 y1) y eL eR j).2.UprightAt x1.toInt) ∨
      ((edgesOn (rectangle x0 y0 x1 y1) y eL eR j).1.UprightAt x1.toInt ∧
        (edgesOn (rectangle x0 y0 x1 y1) y eL eR j).2.UprightAt x0.toInt) := by
  have hbottom := rectangle_bottom x0 y0 x1 y1
  cases j with
  | zero =>
    have hy1 : y1.toInt ≤ y := by omega
    have hup := rectangle_rightSide_upward x0 y0 x1 y1
    refine .inr ?_
    simp only [edgesOn, hR.tip_eq]
    rw [advanceEdge_rectangle hL .left 1 hy1 (by decide), advanceEdge_rectangle hbottom .left 1 hy1 (by decide),
      hup.advanceEdge_eq (.inr rfl), hup.tip_eq, hR.advanceEdge_eq (.inr rfl)]
    exact ⟨hup.upright, hR.upright⟩
  | succ j =>
    obtain ⟨hl, hr⟩ := edgesOn_rectangle_of_above (x1 := x1) hL hR hy (j := j) (by omega)
    refine .inl ?_
    simp only [edgesOn, hr.tip_eq]
    rw [advanceEdge_rectangle hl.next .left 2 hj.ge (by decide),
      hbottom.advanceEdge_eq (.inr rfl), hbottom.tip_eq, hr.next.advanceEdge_eq (.inr rfl)]
    exact ⟨hbottom.upright, hr.next.upright⟩

/-- Every row's span goes from the left to the right column. -/
theorem polyRow_rectangle (hx : x0.toInt ≤ x1.toInt) (hy : y0.toInt ≤ y1.toInt)
    (hj : firstRow (rectangle x0 y0 x1 y1) + (j : Int) ≤ y1.toInt) :
    polyRow (rectangle x0 y0 x1 y1) j = ⟨firstRow (rectangle x0 y0 x1 y1) + (j : Int), x0.toInt, x1.toInt⟩ := by
  have hfits : ∀ x : Half, -32768 ≤ x.toInt ∧ x.toInt < 32768 := fun x => ⟨BitVec.le_toInt x, BitVec.toInt_lt⟩
  have hfirst : y0.toInt ≤ firstRow (rectangle x0 y0 x1 y1) := by
    obtain ⟨-, -, hymin, -⟩ := rectangle_box hx hy
    rw [firstRow, hymin]
    exact le_max_right 0 _
  have hL := (rectangle_leftSide x0 y0 x1 y1).preAdvance (polyYmin (rectangle x0 y0 x1 y1))
  have hR := (rectangle_top x0 y0 x1 y1).preAdvance (polyYmin (rectangle x0 y0 x1 y1))
  rw [polyRow, polyEdges, topVertex_rectangle hy]
  obtain habove | hlast := lt_or_eq_of_le hj
  · obtain ⟨hl, hr⟩ := edgesOn_rectangle_of_above (x1 := x1) hL hR hfirst habove
    rw [rowSpan_of_upright hl.upright hr.upright (hfits x0) (hfits x1), min_eq_left hx, max_eq_right hx]
  · obtain ⟨hl, hr⟩ | ⟨hl, hr⟩ := edgesOn_rectangle_last (x1 := x1) hL hR hfirst hlast
    · rw [rowSpan_of_upright hl hr (hfits x0) (hfits x1), min_eq_left hx, max_eq_right hx]
    · rw [rowSpan_of_upright hl hr (hfits x1) (hfits x0), min_eq_right hx, max_eq_left hx]

end Rows

end Rectangle

/-- Settles O48: each row's span goes from the left to the right side, and no point of the rectangle lies in the box
of a rejected one. -/
theorem rectangleIsFilledExactly : Obligations.RectangleIsFilledExactly := by
  intro rsv rgb cnt x0 y0 x1 y1 s hn hx hy
  obtain ⟨hxmin, hxmax, hymin, hymax⟩ := rectangle_box hx hy.le
  have hpaints := paints_of_scanSpans (rsv := rsv) (rgb := rgb) (cnt := cnt) (vs := rectangle x0 y0 x1 y1) (s := s)
    (covered := fun p => x0.toInt ≤ p.1 ∧ p.1 ≤ x1.toInt ∧ y0.toInt ≤ p.2 ∧ p.2 ≤ y1.toInt) hn.symm (by omega)
    (by omega) fun p hin => ?_
  · rwa [hn] at hpaints
  by_cases hrej : polyRejected s.clip (rectangle x0 y0 x1 y1) = true
  · rw [scanSpans_of_rejected hrej]
    refine iff_of_false (by simp) fun ⟨hx0, hx1, hy01⟩ => ?_
    exact not_polyRejected_of_inside hin (by omega) (by omega) hrej
  · have hfirst : firstRow (rectangle x0 y0 x1 y1) = max 0 y0.toInt := by rw [firstRow, hymin]
    have hcount : rowCount s.clip (rectangle x0 y0 x1 y1) =
        min ((s.clip.crh.toNat : Int) - 1) y1.toInt - max 0 y0.toInt + 1 := by
      rw [rowCount, hfirst, hymax]
      rfl
    rw [scanSpans_eq_map hrej (by omega)]
    constructor
    · rintro ⟨sp, hsp, hcov⟩
      obtain ⟨j, hj, rfl⟩ := List.mem_map.1 hsp
      rw [List.mem_range] at hj
      rw [polyRow_rectangle hx hy.le (by omega)] at hcov
      obtain ⟨hrow, hx0, hx1⟩ := hcov
      refine ⟨hx0, hx1, ?_, ?_⟩ <;> simp only at hrow <;> omega
    · rintro ⟨hx0, hx1, hy0, hy1⟩
      obtain ⟨-, -, hin0, hin1⟩ := hin
      refine ⟨_, List.mem_map.2 ⟨(p.2 - max 0 y0.toInt).toNat, List.mem_range.2 (by omega), rfl⟩, ?_⟩
      rw [polyRow_rectangle hx hy.le (by omega)]
      exact ⟨by simp only; omega, hx0, hx1⟩

end Sys2Proof.Machine
end

section
/-! PROOFS. The midpoint walk of an ellipse (43_ellipse.md R192 to R194): each point from the one before it, where the
walk ends, and that its loops are never cut short. -/

namespace Sys2Proof.Machine

/-! ## The point after a point (R192, R193) -/

/-- The point that follows `p`: one column on where `b²·x < a²·y`, one row down elsewhere, and in either case both
where the midpoint test says so. -/
def ellipseNext (a2 b2 : Int) (p : Point) : Point :=
  if b2 * p.1 < a2 * p.2 then
    (p.1 + 1, if 4 * b2 * (p.1 + 1) ^ 2 + a2 * (2 * p.2 - 1) ^ 2 < 4 * a2 * b2 then p.2 else p.2 - 1)
  else
    (if b2 * (2 * p.1 + 1) ^ 2 + 4 * a2 * (p.2 - 1) ^ 2 > 4 * a2 * b2 then p.1 else p.1 + 1, p.2 - 1)

/-- The point a round of the walk records. -/
def EllipseWalk.point (w : EllipseWalk) : Point := (w.x, w.y)

/-- Region 1 goes on exactly where `b²·x < a²·y`. -/
theorem EllipseWalk.Region1.flat_iff {a2 b2 b k : Int} {w : EllipseWalk} (h : w.Region1 a2 b2 b k) :
    w.px < w.py ↔ b2 * w.x < a2 * w.y := by
  rw [h.px, h.py, h.x, mul_assoc, mul_assoc]
  omega

theorem EllipseWalk.Region2.not_flat {a2 b2 : Int} {w : EllipseWalk} (h : w.Region2 a2 b2) :
    ¬b2 * w.x < a2 * w.y := by
  have hsteep := h.steep
  rw [h.px, h.py, mul_assoc, mul_assoc] at hsteep
  omega

/-- A round of region 1 goes to the next point: its test is the sign of `p` (R192). -/
theorem EllipseWalk.Region1.point_step1 {a2 b2 b k : Int} {w : EllipseWalk} (h : w.Region1 a2 b2 b k)
    (hflat : w.px < w.py) : (w.step1 a2 b2).point = ellipseNext a2 b2 w.point := by
  have hp : w.p < 0 ↔ 4 * b2 * (w.x + 1) ^ 2 + a2 * (2 * w.y - 1) ^ 2 < 4 * a2 * b2 := by rw [h.p, sub_neg]
  refine Eq.trans ?_ (if_pos (h.flat_iff.1 hflat)).symm
  simp only [EllipseWalk.point, EllipseWalk.step1, ← hp]
  split <;> rfl

/-- A round of region 2 goes to the next point: its test is the sign of `p` (R193). -/
theorem EllipseWalk.Region2.point_step2 {a2 b2 : Int} {w : EllipseWalk} (h : w.Region2 a2 b2) :
    (w.step2 a2 b2).point = ellipseNext a2 b2 w.point := by
  have hp : w.p > 0 ↔ b2 * (2 * w.x + 1) ^ 2 + 4 * a2 * (w.y - 1) ^ 2 > 4 * a2 * b2 := by rw [h.p]; exact sub_pos
  refine Eq.trans ?_ (if_neg h.not_flat).symm
  simp only [EllipseWalk.point, EllipseWalk.step2, ← hp]
  split <;> rfl

/-! ## A walk from a point to the centre row -/

/-- `pts` is a walk from `p` to the centre row, each point the next of the one before it, in the first quadrant and
no row above `b`. -/
structure WalksFrom (a2 b2 b : Int) (p : Point) (pts : List Point) : Prop where
  first : pts.head? = some p
  last : ∃ x, pts.getLast? = some (x, 0)
  bounds : ∀ q ∈ pts, 0 ≤ q.1 ∧ 0 ≤ q.2 ∧ q.2 ≤ b
  chain : pts.IsChain fun q r => r = ellipseNext a2 b2 q

section WalksFrom
variable {a2 b2 b : Int} {p : Point} {pts : List Point}

theorem walksFrom_singleton (hx : 0 ≤ p.1) (hy : p.2 = 0) (hb : 0 ≤ b) : WalksFrom a2 b2 b p [p] where
  first := rfl
  last := ⟨p.1, by rw [← hy]; rfl⟩
  bounds q hq := by
    obtain rfl := List.mem_singleton.1 hq
    omega
  chain := .singleton p

theorem WalksFrom.cons (h : WalksFrom a2 b2 b (ellipseNext a2 b2 p) pts) (hp : 0 ≤ p.1 ∧ 0 ≤ p.2 ∧ p.2 ≤ b) :
    WalksFrom a2 b2 b p (p :: pts) where
  first := rfl
  last := by
    obtain ⟨x, hx⟩ := h.last
    exact ⟨x, by rw [List.getLast?_cons, hx]; rfl⟩
  bounds := List.forall_mem_cons.2 ⟨hp, h.bounds⟩
  chain := h.chain.cons fun q hq => (Option.some.inj (h.first.symm.trans hq)).symm

theorem WalksFrom.getD_succ (h : WalksFrom a2 b2 b p pts) {k : Nat} (hk : k + 1 < pts.length) :
    pts.getD (k + 1) (0, 0) = ellipseNext a2 b2 (pts.getD k (0, 0)) := by
  rw [List.getD_eq_getElem _ _ hk, List.getD_eq_getElem _ _ (by omega)]
  exact List.isChain_iff_getElem.1 h.chain k hk

end WalksFrom

/-- Region 2 walks to the centre row in as many rounds as there are rows. -/
theorem walksFrom_region2 {a2 b2 b : Int} (ha : 0 ≤ a2) (hb : 0 ≤ b2) {n : Nat} {w : EllipseWalk}
    (h : w.Region2 a2 b2) (hx : 0 ≤ w.x) (hy : 0 ≤ w.y) (hmax : w.y ≤ b) (hn : w.y + 1 = n) :
    WalksFrom a2 b2 b w.point (region2 a2 b2 n w) := by
  induction n generalizing w with
  | zero => omega
  | succ n ih =>
    rw [region2, if_pos hy]
    by_cases h0 : w.y = 0
    · obtain rfl : n = 0 := by omega
      exact walksFrom_singleton hx h0 (by omega)
    · refine WalksFrom.cons ?_ ⟨hx, hy, hmax⟩
      rw [← h.point_step2]
      have hrow := w.step2_y a2 b2
      exact ih (h.step2 ha hb) (hx.trans (w.le_step2_x a2 b2)) (by omega) (by omega) (by omega)

/-- Region 1 is over after `a²·b` rounds for every two radii, 0 too. -/
theorem EllipseWalk.Region1.over_of_radii {a b : Nat} {k : Int} {w : EllipseWalk}
    (h : w.Region1 ((a : Int) * a) ((b : Int) * b) b k) (hk : 0 ≤ k) (hmax : (a : Int) * a * b ≤ k) :
    ¬w.px < w.py := by
  rcases Nat.eq_zero_or_pos b with rfl | hb
  · have hy : w.y = 0 := le_antisymm h.yMax h.yMin
    simp [h.px, h.py, hy]
  · have hb' : (1 : Int) ≤ b := by omega
    exact h.over (by positivity) (by nlinarith) hk hmax

/-- Where region 1 is over, region 2 walks to the centre row. -/
theorem EllipseWalk.Region1.walksFrom_enter2 {a b : Nat} {k : Int} {w : EllipseWalk}
    (h : w.Region1 ((a : Int) * a) ((b : Int) * b) b k) (hk : 0 ≤ k) (hsteep : ¬w.px < w.py) :
    WalksFrom ((a : Int) * a) ((b : Int) * b) b w.point
      (region2 (a * a) (b * b) (w.y + 1).toNat (w.enter2 (a * a) (b * b))) := by
  have hy := h.yMin
  exact walksFrom_region2 (by positivity) (by positivity) (h.enter2 hsteep) (hk.trans_eq h.x.symm) hy h.yMax
    (show w.y + 1 = _ by omega)

theorem region1_of_not_flat {a2 b2 : Int} {w : EllipseWalk} (h : ¬w.px < w.py) (n : Nat) :
    region1 a2 b2 n w = region2 a2 b2 (w.y + 1).toNat (w.enter2 a2 b2) := by
  cases n with
  | zero => rfl
  | succ n => exact if_neg h

/-- From any round of region 1 the rounds left are enough to walk to the centre row. -/
theorem walksFrom_region1 {a b n : Nat} {k : Int} {w : EllipseWalk}
    (h : w.Region1 ((a : Int) * a) ((b : Int) * b) b k) (hk : 0 ≤ k) (hn : (a : Int) * a * b ≤ k + n) :
    WalksFrom ((a : Int) * a) ((b : Int) * b) b w.point (region1 (a * a) (b * b) n w) := by
  induction n generalizing k w with
  | zero => exact h.walksFrom_enter2 hk (h.over_of_radii hk (by simpa using hn))
  | succ n ih =>
    rw [region1]
    split
    case isFalse hsteep => exact h.walksFrom_enter2 hk hsteep
    case isTrue hflat =>
      refine WalksFrom.cons ?_ ⟨hk.trans_eq h.x.symm, h.yMin, h.yMax⟩
      rw [← h.point_step1 hflat]
      exact ih (h.step1 (by positivity) hk hflat) (by omega) (by omega)

/-- The points of an ellipse are a walk from its top to its centre row. -/
theorem walksFrom_ellipsePoints (a b : Nat) :
    WalksFrom ((a : Int) * a) ((b : Int) * b) b (0, (b : Int)) (ellipsePoints a b) :=
  walksFrom_region1 (ellipseStart_region1 a b) le_rfl (by push_cast; omega)

/-! ## More rounds (R194) -/

theorem region2_succ {a2 b2 : Int} {n : Nat} {w : EllipseWalk} (hn : (w.y + 1).toNat ≤ n) :
    region2 a2 b2 (n + 1) w = region2 a2 b2 n w := by
  induction n generalizing w with
  | zero => exact if_neg (by omega)
  | succ n ih =>
    have hrow := w.step2_y a2 b2
    rw [region2, ih (by omega), region2]

theorem region1_succ {a b n : Nat} {k : Int} {w : EllipseWalk}
    (h : w.Region1 ((a : Int) * a) ((b : Int) * b) b k) (hk : 0 ≤ k) (hn : (a : Int) * a * b ≤ k + n) :
    region1 (a * a) (b * b) (n + 1) w = region1 (a * a) (b * b) n w := by
  induction n generalizing k w with
  | zero => exact if_neg (h.over_of_radii hk (by simpa using hn))
  | succ n ih =>
    by_cases hflat : w.px < w.py
    · rw [region1, ih (h.step1 (by positivity) hk hflat) (by omega) (by omega), region1]
    · rw [region1_of_not_flat hflat, region1_of_not_flat hflat]

/-- Settles O55: the points are a walk from the top, and one round more changes neither loop once its rounds are
enough. -/
theorem ellipseWalkRunsToItsEnd : Obligations.EllipseWalkRunsToItsEnd := by
  intro a b
  have hwalk := walksFrom_ellipsePoints a b
  refine ⟨hwalk.first, hwalk.last, hwalk.bounds, fun k hk => hwalk.getD_succ hk, fun n => ⟨fun hn => ?_, ?_⟩⟩
  · induction n, hn using Nat.le_induction with
    | base => rfl
    | succ n hn ih =>
      exact (region1_succ (ellipseStart_region1 a b) le_rfl (by rw [zero_add]; exact_mod_cast hn)).trans ih
  · intro c2 d2 w hn
    induction n, hn using Nat.le_induction with
    | base => rfl
    | succ n hn ih => exact (region2_succ hn).trans ih

end Sys2Proof.Machine
end

section
/-! PROOFS. ELLIPSE and ELLIPSE.A as commands (43_ellipse.md R190, R191, R195 to R198): what they paint, negative radii
and degenerate ellipses. -/

namespace Sys2Proof.Machine

/-! ## What the commands paint (R190, R195, R196, R198) -/

/-- The points that an ellipse with centre `c` covers: those within `x` columns of the centre on the rows `y` away
from it, for a point `(x, y)` of the walk. -/
def ellipseCovers (c r : XY) (p : Point) : Prop :=
  ∃ q ∈ ellipsePoints r.x.toInt.natAbs r.y.toInt.natAbs,
    ((p.2 - c.y.toInt).natAbs : Int) = q.2 ∧ ((p.1 - c.x.toInt).natAbs : Int) ≤ q.1

/-- The span table holds the covered points of the rectangle that are on screen. -/
theorem ellipseSpans_covers {clip : Clip} {x : Nat} {c r : XY} {p : Point} (hp : targetOf clip x = some p) :
    (∃ sp ∈ ellipseSpans clip (pointOf c) (pointOf r), sp.covers p) ↔ ellipseCovers c r p := by
  obtain ⟨-, hy0, hy1⟩ := targetOf_inside hp
  obtain ⟨-, hscreen, -⟩ := (targetOf_eq_some _ _ _).1 hp
  have hscreen := (onScreen_iff _ _).1 hscreen
  have hrow : (((clip.top + p.2).toNat : Nat) : Int) = clip.top + p.2 := by omega
  have hbounds := (walksFrom_ellipsePoints r.x.toInt.natAbs r.y.toInt.natAbs).bounds
  refine (tableSpans_covers clip _ (by omega) hrow).trans ?_
  refine (recordPoints_covers clip _ _ (tableOk_empty _) (fun q hq => (hbounds q hq).1) (by omega) _).trans ?_
  have hempty : ¬cellCovers none p.1 := fun ⟨_, _, h, _⟩ => nomatch h
  rw [getD_emptyTable, hrow, or_iff_right hempty]
  refine exists_congr fun q => and_congr_right fun hq => ?_
  have hq0 := (hbounds q hq).2.1
  simp only [pointOf, sext16]
  omega

/-- ELLIPSE and ELLIPSE.A paint what the walk's points cover, each pixel once. -/
theorem paints_ellipse {rsv : BitVec 3} {rgb : Rgb} {c r : XY} {s : State} {covered : Point → Prop}
    (hc : ∀ p, ellipseCovers c r p ↔ covered p) :
    Paints (.ellipse rsv rgb c r) 3 s covered (opaquePixel rgb) ∧
      Paints (.ellipseA rsv rgb c r) 3 s covered (blendedPixel rgb) := by
  have hrows := tableSpans_rows_nodup s.clip
    (recordSpans s.clip c.x.toInt c.y.toInt (ellipsePoints r.x.toInt.natAbs r.y.toInt.natAbs))
  have hvisible : ∀ x p, targetOf s.clip x = some p →
      ((∃ sp ∈ ellipseSpans s.clip (pointOf c) (pointOf r), sp.covers p) ↔ covered p) :=
    fun x p hp => (ellipseSpans_covers hp).trans (hc p)
  exact ⟨paints_of_clampSpans (bl := false) _ hrows rfl rfl hvisible,
    paints_of_clampSpans (bl := true) _ hrows rfl rfl hvisible⟩

/-- Settles O54: each row of the span table has one span at most, which holds the columns of all the walk's points on
that row. -/
theorem ellipsePaintsItsPoints : Obligations.EllipsePaintsItsPoints :=
  fun _ _ _ _ _ => paints_ellipse fun _ => Iff.rfl

/-! ## Negative radii (R191) -/

theorem natAbs_toInt_neg {n : Nat} (v : BitVec n) : (-v).toInt.natAbs = v.toInt.natAbs := by
  by_cases h : v = BitVec.intMin n
  · rw [h, BitVec.neg_intMin]
  · rw [BitVec.toInt_neg_of_ne_intMin h, Int.natAbs_neg]

theorem natAbs_toInt_le (v : Half) : v.toInt.natAbs ≤ 32768 := by
  have := v.toInt_lt
  have := v.le_toInt
  omega

/-- The walk reads the absolute values of the radii alone. -/
theorem drawEllipse_congr {r r' : XY} (hx : r'.x.toInt.natAbs = r.x.toInt.natAbs)
    (hy : r'.y.toInt.natAbs = r.y.toInt.natAbs) (cv : Canvas) (rgb : Rgb) (a : Bool) (c : Point) (m : Memory) :
    drawEllipse cv rgb a c (pointOf r') m = drawEllipse cv rgb a c (pointOf r) m := by
  simp only [drawEllipse, ellipseSpans, pointOf, sext16, hx, hy]

/-- Settles O56: negating a radius keeps its absolute value, that of -32768 too, which is its own negation. -/
theorem radiusSignDoesNotMatter : Obligations.RadiusSignDoesNotMatter := by
  intro rsv rgb c r s
  have hexec : ∀ r' : XY, r'.x.toInt.natAbs = r.x.toInt.natAbs → r'.y.toInt.natAbs = r.y.toInt.natAbs →
      exec (.ellipse rsv rgb c r') s = exec (.ellipse rsv rgb c r) s ∧
        exec (.ellipseA rsv rgb c r') s = exec (.ellipseA rsv rgb c r) s := fun r' hx hy => by
    simp only [exec, execEllipse, execEllipseA, drawEllipse_congr hx hy, and_self]
  obtain ⟨hx1, hx2⟩ := hexec ⟨-r.x, r.y⟩ (natAbs_toInt_neg r.x) rfl
  obtain ⟨hy1, hy2⟩ := hexec ⟨r.x, -r.y⟩ rfl (natAbs_toInt_neg r.y)
  exact ⟨natAbs_toInt_le _, natAbs_toInt_le _, hx1, hy1, hx2, hy2⟩

/-! ## Degenerate ellipses (R197) -/

theorem ellipsePoints_zero_right (a : Nat) : ellipsePoints a 0 = [(0, 0)] := by
  rw [ellipsePoints, region1_of_not_flat (by simp [ellipseStart])]
  rfl

/-- With `a = 0` region 2 goes straight down. -/
theorem mem_region2_straight {b2 : Int} (q : Point) {n : Nat} {w : EllipseWalk} (hpy : w.py = 0) (hp : 0 < w.p)
    (hn : w.y + 1 = n) : q ∈ region2 0 b2 n w ↔ q.1 = w.x ∧ 0 ≤ q.2 ∧ q.2 ≤ w.y := by
  induction n generalizing w with
  | zero =>
    simp only [region2, List.not_mem_nil, false_iff]
    omega
  | succ n ih =>
    have hstep : w.step2 0 b2 = { w with y := w.y - 1 } := by simp [EllipseWalk.step2, hpy, hp]
    have hrest := ih (w := { w with y := w.y - 1 }) hpy hp (show w.y - 1 + 1 = _ by omega)
    rw [region2, if_pos (by omega), hstep, List.mem_cons, hrest, Prod.ext_iff]
    simp only
    omega

theorem mem_ellipsePoints_zero_left (b : Nat) (q : Point) :
    q ∈ ellipsePoints 0 b ↔ q.1 = 0 ∧ 0 ≤ q.2 ∧ q.2 ≤ b := by
  rcases Nat.eq_zero_or_pos b with rfl | hb
  · rw [ellipsePoints_zero_right, List.mem_singleton, Prod.ext_iff]
    simp only
    omega
  · have hstart : (ellipseStart 0 b).enter2 ((0 : Nat) * (0 : Nat)) (b * b) = ⟨0, b, 0, 0, b * b⟩ := by
      simp [ellipseStart, EllipseWalk.enter2]
    rw [ellipsePoints, region1_of_not_flat (by simp [ellipseStart]), hstart]
    exact mem_region2_straight q rfl (show (0 : Int) < b * b by positivity)
      (show (b : Int) + 1 = ((b : Int) + 1).toNat by omega)

theorem ellipseCovers_of_ry_eq_zero {c r : XY} (hy : r.y = 0#16) (p : Point) :
    ellipseCovers c r p ↔ p = (c.x.toInt, c.y.toInt) := by
  have hzero : r.y.toInt.natAbs = 0 := by rw [hy]; rfl
  simp only [ellipseCovers, hzero, ellipsePoints_zero_right, List.mem_singleton, exists_eq_left]
  rw [Prod.ext_iff]
  omega

theorem ellipseCovers_of_rx_eq_zero {c r : XY} (hx : r.x = 0#16) (p : Point) :
    ellipseCovers c r p ↔ p.1 = c.x.toInt ∧ (p.2 - c.y.toInt).natAbs ≤ r.y.toInt.natAbs := by
  have hzero : r.x.toInt.natAbs = 0 := by rw [hx]; rfl
  simp only [ellipseCovers, hzero, mem_ellipsePoints_zero_left]
  constructor
  · rintro ⟨q, ⟨hq, -, hmax⟩, hrow, hcol⟩
    omega
  · rintro ⟨hcol, hrow⟩
    exact ⟨(0, (p.2 - c.y.toInt).natAbs), ⟨rfl, by omega, by omega⟩, rfl, by omega⟩

/-- Settles O57: the walk of a degenerate ellipse is its centre, or the rows of column 0. -/
theorem degenerateEllipses : Obligations.DegenerateEllipses :=
  fun _ _ _ _ _ => ⟨fun hy => paints_ellipse (ellipseCovers_of_ry_eq_zero hy),
    fun hx => paints_ellipse (ellipseCovers_of_rx_eq_zero hx)⟩

end Sys2Proof.Machine
end

section
/-! PROOFS. NOP, CLEAR and SETCLIP (44_control.md R210 to R212): the exact state each leaves, and the pixels that CLEAR
paints. -/

namespace Sys2Proof.Machine

/-! ## NOP (R210) -/

/-- Settles O58: a header with opcode 0 decodes alone to a NOP, whatever its other bits. -/
theorem nopOnlyAdvances : Obligations.NopOnlyAdvances := by
  refine ⟨fun _ _ _ _ => rfl, fun s ts h hruns hlatch hop => ?_⟩
  rw [← opOf_eq_div] at hop
  have hdecode : decode s.latch = .ok (.nop (aOf h) (rsvOf h) (rgbOf h), []) := by
    simp only [hlatch, decode, hop]
  rw [hruns.step_executes hdecode]
  rfl

/-! ## CLEAR (R211) -/

/-- Filling spans one after another plots their points in that order. -/
theorem drawClear_eq_plotAll (c : Canvas) (rgb : Rgb) (m : Memory) :
    drawClear c rgb m = plotAll c rgb false ((clipRows c.clip).flatMap Span.points) m :=
  List.foldl_flatMap.symm

/-- The rows that CLEAR fills hold exactly the points of the clipping rectangle. -/
theorem mem_clipRows_points (clip : Clip) (p : Point) :
    p ∈ (clipRows clip).flatMap Span.points ↔ inClip clip p.1 p.2 = true := by
  simp only [clipRows, List.mem_flatMap, List.mem_map, List.mem_range, mem_points, inClip_iff,
    exists_exists_and_eq_and]
  constructor
  · rintro ⟨y, hy, hrow, hcol⟩
    omega
  · rintro ⟨hcol, hrow⟩
    exact ⟨p.2.toNat, by omega, by omega, by omega⟩

/-- Settles O59: a point through which a byte can be written is one of the rectangle, and CLEAR plots all of those. -/
theorem clearPaintsTheRectangle : Obligations.ClearPaintsTheRectangle := fun _ _ _ s =>
  paints_of_plotAll_opaque ((clipRows s.clip).flatMap Span.points) rfl (drawClear_eq_plotAll _ _ _) fun x p hp =>
    iff_of_true ((mem_clipRows_points s.clip p).2 ((targetOf_eq_some s.clip x p).1 hp).1) trivial

/-! ## SETCLIP (R212) -/

/-- CLIP_ORG and CLIP_SIZE read back the two words whose fields the clipping registers hold (10_state.md R28, R29). -/
theorem readValue_clipOf {t : State} {w1 w2 : Word} (h : t.clip = clipOf (xyOf w1) (whOf w2)) :
    readValue t 0x10#19 .w32 = w1 ∧ readValue t 0x14#19 .w32 = w2 := by
  have horg : readValue t 0x10#19 .w32 = t.clip.crx ++ t.clip.cry := rfl
  have hsize : readValue t 0x14#19 .w32 = t.clip.crw ++ t.clip.crh := rfl
  rw [horg, hsize, h]
  exact ⟨hiOf_loOf w1, hiOf_loOf w2⟩

/-- Settles O60: a header with opcode 8 and two words decode to a SETCLIP with the halves of those words. -/
theorem setclipSetsTheRectangle : Obligations.SetclipSetsTheRectangle := by
  refine ⟨fun _ _ _ _ _ _ => rfl, fun s ts h w1 w2 hruns hlatch hop => ?_⟩
  rw [← opOf_eq_div] at hop
  have hdecode : decode s.latch = .ok (.setclip (aOf h) (rsvOf h) (rgbOf h) (xyOf w1) (whOf w2), []) := by
    simp only [hlatch, decode, hop, decodeTwo]
  exact ⟨_, hruns.step_executes hdecode, rfl, toNat_hiOf w1, toNat_loOf w1, toNat_hiOf w2, toNat_loOf w2,
    readValue_clipOf rfl⟩

end Sys2Proof.Machine
end

section
/-! PROOFS. Command errors and the halted engine (60_exceptions.md R232 to R235): what an error leaves, what the engine,
the registers and the host's writes do while halted, and which steps leave HALTED. -/

namespace Sys2Proof.Machine

/-! ## Taking the error (R232) -/

/-- While halted `irq` is the enable of the error interrupt (10_state.md R36). -/
theorem State.irq_of_halted {s : State} (h : s.mode = .halted) : s.irq = s.errIE := by
  rw [Bool.eq_iff_iff, State.irq_eq_true, h]
  simp

/-- Command `i` halts the engine with `code` and its header, empties FIFO and latch, and changes nothing else. -/
def HaltsWith (code : BitVec 4) (i : Instr) (s : State) : Prop :=
  ∃ t, exec i s = .next t ∧
    t = { s with mode := .halted, errCode := code, errInfo := i.header, fifo := [], latch := [] } ∧
    t.busy = false ∧ t.irq = s.errIE

theorem haltsWith_of_raises {i : Instr} (h : i.raises) (s : State) : HaltsWith i.error.code i s :=
  ⟨_, exec_of_raises h s, rfl, rfl, State.irq_of_halted rfl⟩

/-- Settles O18: the ILLEGAL rows raise ILLEGAL_OPCODE, and a counted command with such a count BAD_VERTEX_COUNT. -/
theorem commandErrorsHaltTheEngine : Obligations.CommandErrorsHaltTheEngine := by
  intro s
  refine ⟨fun low => haltsWith_of_raises (i := .illegal9 low) (.inl rfl) s,
    fun low => haltsWith_of_raises (i := .illegalAB low) (.inl rfl) s,
    fun low => haltsWith_of_raises (i := .illegalCF low) (.inl rfl) s, fun a rsv rgb cnt vs hn => ?_⟩
  exact ⟨haltsWith_of_raises (i := .poly rsv rgb cnt vs) (.inr ⟨cnt, rfl, hn⟩) s,
    haltsWith_of_raises (i := .polyA rsv rgb cnt vs) (.inr ⟨cnt, rfl, hn⟩) s,
    haltsWith_of_raises (i := .outline a rsv rgb cnt vs) (.inr ⟨cnt, rfl, hn⟩) s⟩

/-! ## While halted (R234) -/

theorem engineTurn_of_halted {s : State} (h : s.mode = .halted) : engineTurn s = .next s := by
  rw [engineTurn, State.err_eq_true.2 h, Bool.or_true, if_pos rfl]

/-- STATUS while halted with no word left: ERR, the code, and the irq level (10_state.md R26). -/
theorem toNat_readStatus_of_halted {s : State} (hhalted : s.mode = .halted) (hfifo : s.fifo = [])
    (hlatch : s.latch = []) : (readValue s 0x08#19 .w32).toNat =
      2 + 16 * s.errCode.toNat + (if s.errIE = true then 4 else 0) := by
  obtain ⟨hstatus, -, -⟩ := statusBitsAndIrqLevel s
  rw [hstatus, if_pos ⟨hfifo, hlatch⟩, if_pos hhalted, if_pos hhalted, State.irq_of_halted hhalted]
  omega

theorem readErrInfo_of_halted {s : State} (h : s.mode = .halted) : readValue s 0x18#19 .w32 = s.errInfo := by
  obtain ⟨-, -, -, -, -, -, herrInfo, -, -⟩ := registerMapReads s
  rw [herrInfo, if_pos h]

/-- A byte read of the framebuffer window gives the framebuffer's byte while idle (20_memory.md R63). -/
theorem readValue_w8_of_idle {s : State} (hidle : s.busy = false) {off : Offset}
    (hlow : Config.fbBase ≤ off.toNat) (hhigh : off.toNat < Config.fbEnd) :
    readValue s off .w8 = 0#24 ++ byteAt s.fbDraw s.fb off.toNat := by
  rw [readValue_framebuffer s hlow hhigh, ← windowByte_of_idle hidle]
  rfl

/-- Settles O20: the engine's turn is idle and a CMD write is discarded; framebuffer reads and CTRL writes are those of
any idle engine. -/
theorem whileHalted : Obligations.WhileHalted := by
  intro s ts hhalted hfifo hlatch
  refine ⟨fun hturn => ?_, fun k v hmakes => ?_, toNat_readStatus_of_halted hhalted hfifo hlatch,
    readErrInfo_of_halted hhalted, fun off => readValue_w8_of_idle (State.busy_eq_false.2 ⟨hfifo, hlatch⟩),
    fun k v hmakes hsrst => ?_⟩
  · rw [step_of_schedule hturn]
    exact engineTurn_of_halted (s := { s with schedule := ts }) hhalted
  · obtain ⟨-, -, hdiscarded⟩ := cmdWriteCases s k v ts hmakes
    obtain ⟨t, hstep, rfl⟩ := hdiscarded hhalted
    exact ⟨_, hstep, rfl⟩
  · rw [step_write hmakes rfl, busWrite_ctrl, writeCtrl_enables hsrst]
    rfl

/-! ## Leaving HALTED (R235) -/

/-- A halted engine with no word in FIFO or latch, as an error leaves it. -/
structure HaltedEmpty (s : State) : Prop where
  halted : s.mode = .halted
  fifo : s.fifo = []
  latch : s.latch = []

theorem State.Inv.haltedEmpty_of_halted {s : State} (h : s.Inv) (hhalted : s.mode = .halted) : HaltedEmpty s := by
  obtain ⟨hfifo, hlatch, -⟩ := h.haltedEmpty hhalted
  exact ⟨hhalted, hfifo, hlatch⟩

/-- From `s` to `t` the engine stays halted, with its error, clip and framebuffer kept. -/
def StaysHalted (s t : State) : Prop :=
  t.mode = .halted ∧ t.errCode = s.errCode ∧ t.errInfo = s.errInfo ∧ t.clip = s.clip ∧
    t.fb = s.fb ∧ t.fbDraw = s.fbDraw ∧ t.fifo = [] ∧ t.latch = []

/-- In `t` the engine and the registers have their reset values; out of reset the framebuffer is that of `s`. -/
def LeavesHalted (s t : State) : Prop :=
  t.mode = .run ∧ t.errCode = 0#4 ∧ t.errInfo = 0#32 ∧ t.clip = Clip.reset ∧
    t.errIE = false ∧ t.idleIE = false ∧ t.fifo = [] ∧ t.latch = [] ∧
    (t.resetIn = false → t.fb = s.fb ∧ t.fbDraw = s.fbDraw)

theorem HaltedEmpty.stays {s : State} (h : HaltedEmpty s) : StaysHalted s s :=
  ⟨h.halted, rfl, rfl, rfl, rfl, rfl, h.fifo, h.latch⟩

theorem HaltedEmpty.not_run {s : State} (h : HaltedEmpty s) : s.mode ≠ .run := by
  rw [h.halted]
  decide

/-- A soft reset with nothing in FIFO and latch keeps the framebuffer (70_reset_and_hazards.md R263). -/
theorem softReset_of_idle {s : State} (h : s.busy = false) : softReset s = s.resetEngine := by
  rw [softReset, h]
  rfl

theorem HaltedEmpty.softReset_leaves {s : State} (h : HaltedEmpty s) : LeavesHalted s (softReset s.renewReads) := by
  have hidle : s.renewReads.busy = false := State.busy_eq_false.2 ⟨h.fifo, h.latch⟩
  rw [softReset_of_idle hidle]
  exact ⟨rfl, rfl, rfl, rfl, rfl, rfl, rfl, rfl, fun _ => ⟨rfl, rfl⟩⟩

theorem assertReset_leaves (s : State) : LeavesHalted s (assertReset s) :=
  ⟨rfl, rfl, rfl, rfl, rfl, rfl, rfl, rfl, nofun⟩

theorem EngineEffect.staysHalted {s t : State} (he : EngineEffect s t) (h : HaltedEmpty s) : StaysHalted s t := by
  cases he with
  | idle => exact h.stays
  | executes _ _ hrun | moves _ _ hrun => exact absurd hrun h.not_run

/-- A supported write while halted leaves the engine halted, or is a soft reset. -/
theorem WriteEffect.staysHalted_or_resets {k : Nat} {off : Offset} {v : Word} {s t : State}
    (he : WriteEffect k off v s t) (h : HaltedEmpty s) :
    StaysHalted s t ∨ (off.toNat = 0x04 ∧ v.getLsbD 0 = true ∧ LeavesHalted s t) := by
  cases he with
  | ignored | ctrl | discarded => exact .inl h.stays
  | reset hoff hv => exact .inr ⟨hoff, hv, h.softReset_leaves⟩
  | accepted _ hrun | held _ hrun | hold _ hrun => exact absurd hrun h.not_run

/-- Settles O21: of the turns only an assertion of the reset input and a CTRL write with SRST leave HALTED. -/
theorem onlyAResetLeavesHalted : Obligations.OnlyAResetLeavesHalted := by
  intro s t hinv hhalted hstep
  have h : HaltedEmpty s := hinv.haltedEmpty_of_halted hhalted
  have h' : HaltedEmpty { s with schedule := s.schedule.tail } := ⟨h.halted, h.fifo, h.latch⟩
  have he := step_effect hstep
  generalize hturn : turnTaken s = turn at he
  cases he with
  | engine _ he => exact .inl (he.staysHalted h')
  | asserts => exact .inr ⟨.inl hturn, assertReset_leaves s⟩
  | releases => exact .inl h.stays
  | host k _ he =>
    cases he with
    | idle | reads => exact .inl h.stays
    | writes off w v m rest _ hm hreq hsup _ hw =>
      obtain hstays | ⟨hoff, hv, hleaves⟩ := hw.staysHalted_or_resets h'
      · exact .inl hstays
      · exact .inr ⟨takesReset_of_write hturn hm hreq hsup hoff hv, hleaves⟩

end Sys2Proof.Machine
end

section
/-! PROOFS. Resets and hazards (70_reset_and_hazards.md): no step faults (R268), the engine is not starved (R270), the
reset input (R260), and the soft reset with a CMD write held over it (R262, R263). -/

namespace Sys2Proof.Machine

/-! ## The latch has room for every word (R268) -/

theorem moveWord_of_room {s : State} (h : s.latch.length < Config.latchCapacity) (w : Word) (rest : List Word) :
    moveWord w rest s = .next { s with fifo := rest, latch := s.latch ++ [w] } := if_pos h

theorem engineTurn_of_resetIn {s : State} (h : s.resetIn = true) : engineTurn s = .next s := by
  rw [engineTurn, h, Bool.true_or, if_pos rfl]

/-- The engine's turn answers a next state: only the move of a word could fault, and it finds room. -/
theorem engineTurn_total {s : State} (hlatch : latchOk s.latch) : ∃ t, engineTurn s = .next t := by
  cases hreset : s.resetIn with
  | true => exact ⟨s, engineTurn_of_resetIn hreset⟩
  | false =>
    cases hmode : s.mode with
    | halted => exact ⟨s, engineTurn_of_halted hmode⟩
    | run =>
      by_cases hcommand : ∃ i, decode s.latch = .ok (i, [])
      · obtain ⟨i, hi⟩ := hcommand
        obtain ⟨t, hexec, -⟩ := exec_total i s.renewReads
        exact ⟨t, (engineTurn_executes hi hreset hmode).trans hexec⟩
      · rw [not_exists] at hcommand
        rw [engineTurn_moves hcommand hreset hmode]
        cases s.fifo with
        | nil => exact ⟨s, rfl⟩
        | cons w rest => exact ⟨_, moveWord_of_room (s := s.renewReads) (latch_hasRoom hlatch hcommand) w rest⟩

theorem busAccess_not_fault (k : Nat) (req : BusReq) (s : State) (f : Fault) : busAccess k req s ≠ .fault f := by
  cases req with
  | read | write =>
    rw [busAccess]
    split <;> exact nofun

/-- A master's turn completes an access, leaves it held, or is refused. -/
theorem hostTurn_not_fault (k : Nat) (s : State) (f : Fault) : hostTurn k s ≠ .fault f := by
  unfold hostTurn
  split
  · exact nofun
  · split
    · exact nofun
    · split
      · split <;> exact nofun
      · exact busAccess_not_fault k _ s f

/-- Settles O15: of the turns only the engine's could fault, and the invariant gives its latch room. -/
theorem noStepFaults : Obligations.NoStepFaults := by
  intro s f hinv
  rw [step_eq_runTurn]
  cases turnTaken s with
  | engine =>
    obtain ⟨t, hturn⟩ := engineTurn_total (s := { s with schedule := s.schedule.tail }) hinv.latchWhole
    rw [runTurn, hturn]
    exact nofun
  | host k => exact hostTurn_not_fault k _ f
  | resetAssert | resetRelease => exact nofun

/-! ## The engine goes first by default (R270) -/

/-- A latch without a whole command waits for more words. -/
theorem decode_incomplete_of_latchOk {ws : List Word} (h : latchOk ws) (hcommand : ∀ i, decode ws ≠ .ok (i, [])) :
    decode ws = .error .incomplete := by
  obtain rfl | hincomplete | ⟨i, hi⟩ := h
  · rfl
  · exact hincomplete
  · exact absurd hi (hcommand i)

/-- While the engine can step, the default turn is its own. -/
theorem EngineAlone.turnTaken_eq {s : State} (h : EngineAlone s)
    (hable : (latchCommand s).isSome = true ∨ s.fifo ≠ []) : turnTaken s = .engine := by
  have henabled : engineEnabled s = true := by
    simpa [engineEnabled, h.notReset, State.err_eq_false.2 h.run] using hable
  rw [turnTaken, h.noSchedule, List.headD_nil, defaultTurn, henabled, Bool.or_true, if_pos rfl]

/-- Settles O10: the engine executes the command in its latch, which empties it, or moves a word out of the FIFO. -/
theorem engineGoesFirstByDefault : Obligations.EngineGoesFirstByDefault := by
  intro s hinv hschedule hreset hrun hable
  have halone : EngineAlone s := ⟨hrun, hreset, hschedule⟩
  by_cases hcommand : ∃ i, decode s.latch = .ok (i, [])
  · obtain ⟨i, hi⟩ := hcommand
    have hturn : turnTaken s = .engine :=
      halone.turnTaken_eq (.inl (by rw [latchCommand_eq_some.2 hi]; rfl))
    obtain ⟨t, hexec, hlatch, -⟩ := exec_sameButForQueues i s.renewReads [] [] 0
    obtain ⟨-, hstep⟩ := halone.executes hi hexec
    exact ⟨hturn, t, hstep, .inr ⟨hlatch, fun hnil => by rw [hnil] at hi; cases hi⟩⟩
  · have hfifo : s.fifo ≠ [] := hable.resolve_right hcommand
    have hturn : turnTaken s = .engine := halone.turnTaken_eq (.inr hfifo)
    obtain ⟨w, rest, hwords⟩ := List.exists_cons_of_ne_nil hfifo
    obtain ⟨-, hstep⟩ := halone.moves
      (decode_incomplete_of_latchOk hinv.latchWhole (not_exists.1 hcommand)) hwords
    refine ⟨hturn, _, hstep, .inl ?_⟩
    rw [hwords]
    exact Nat.lt_succ_self _

/-! ## The reset input (R260) -/

/-- While reset is asserted an access that was held goes on being held, and any other is refused (log entry 12). -/
theorem hostTurn_of_resetIn {s : State} {k : Nat} {m : Master} {req : BusReq} {rest : List BusReq}
    (hreset : s.resetIn = true) (hm : s.masters[k]? = some m) (hreq : m.requests = req :: rest) :
    hostTurn k s = if k ∈ s.waiting then .next s else .refused .accessDuringReset := by
  simp only [hostTurn, hm, hreq, hreset, if_true, List.contains_iff_mem]

/-- Settles O32: each turn that the schedule can give, by what it does to the state. -/
theorem resetInput : Obligations.ResetInput := by
  intro s ts
  refine ⟨fun hturn => ?_, fun hturn hreset => ?_, fun k m req rest hturn hreset hm hreq => ?_, fun hturn => ?_⟩
  · rw [step_of_schedule hturn]
    rfl
  · rw [step_of_schedule hturn]
    exact engineTurn_of_resetIn hreset
  · have hstep : step s = hostTurn k { s with schedule := ts } := step_of_schedule hturn
    rw [hstep, hostTurn_of_resetIn (s := { s with schedule := ts }) hreset hm hreq]
    exact ⟨fun hk => if_neg hk, fun hk => if_pos hk⟩
  · rw [step_of_schedule hturn]
    rfl

/-! ## The soft reset (R262, R263) -/

/-- A soft reset by its fields. -/
theorem softReset_eq (s : State) : softReset s = { s with
    errIE := false, idleIE := false, clip := Clip.reset, mode := .run, errCode := 0#4, errInfo := 0#32, fifo := [],
    latch := [], cmdPos := 0, fb := if s.busy = true then [] else s.fb,
    fbDraw := if s.busy = true then s.fbDraw + 1 else s.fbDraw } := by
  rw [softReset]
  cases s.busy <;> rfl

/-- A master's write of CTRL with SRST is a soft reset, and completes (10_state.md R25). -/
theorem step_softReset {s : State} {k : Nat} {v : Word} {ts : List Turn}
    (hmakes : HostMakes s k (.write 0x04#19 .w32 v) ts) (hsrst : v.toNat % 2 = 1) :
    step s = .next ((softReset { s with schedule := ts }.renewReads).complete k .written) := by
  rw [step_write hmakes rfl, busWrite_ctrl, writeCtrl_reset ((getLsbD_zero_iff v).2 hsrst)]

/-- Settles O33: the step is a soft reset, field by field. -/
theorem softResetByCtrl : Obligations.SoftResetByCtrl := by
  intro s k v ts hmakes hsrst
  rw [step_softReset hmakes hsrst, softReset_eq]
  rfl

/-- Settles O34: the soft reset leaves the held write first in line before an empty FIFO, and the next turn accepts
it. -/
theorem heldWriteStartsTheNewStream : Obligations.HeldWriteStartsTheNewStream := by
  intro s j k v w mk reqs ts tl hmakes hsrst hjk hwaiting hmk hreqs
  have hreset := step_softReset hmakes hsrst
  generalize ht : (softReset { s with schedule := .host k :: ts }.renewReads).complete j .written = t at hreset
  have hmasters : t.masters[k]? = some mk := by
    rw [← ht, complete_masters_ne hjk, softReset_masters]
    exact hmk
  obtain ⟨hrun, hfifo, hlatch, hheld⟩ : t.mode = .run ∧ t.fifo = [] ∧ t.latch = [] ∧ t.waiting = k :: tl := by
    simp [← ht, hwaiting]
  have hwrites : HostMakes t k (.write 0x0C#19 .w32 w) ts := by
    obtain ⟨-, hout, -⟩ := hmakes
    exact ⟨by simp [← ht], by simp [← ht, hout], mk, reqs, hmasters, hreqs⟩
  have hroom : t.fifo.length < Config.fifoDepth := by
    rw [hfifo]
    exact Nat.succ_pos _
  obtain ⟨haccepted, -, -⟩ := cmdWriteCases t k w ts hwrites
  obtain ⟨u, hstep, -, rfl⟩ := haccepted hrun hroom tl (.inr hheld)
  refine ⟨t, _, hreset, hstep, hfifo, by rw [hfifo]; rfl, hlatch, ?_, rfl⟩
  rw [complete_masters_self (s := { t with schedule := ts }) hmasters, hreqs, List.tail_cons]

end Sys2Proof.Machine
end
